-- ==== Sys2Proof/Word.lean ====
section
/-! DEFINITION. The data words of the block: a byte, a 32-bit register or MMIO word (R8, D2), a 32-byte message (R4). -/

namespace Sys2Proof

/-- One byte of a message buffer. -/
abbrev Byte := BitVec 8

/-- A register, an MMIO datum or a command word: 32 bits, unsigned (R8). -/
abbrev Word := BitVec 32

/-- A message: exactly 32 bytes, byte `k` at index `k` (R4, R95). -/
abbrev Msg := Vector Byte 32

/-- The message of 32 zero bytes. -/
def Msg.zero : Msg := Vector.replicate 32 0

end Sys2Proof
end

