-- ==== Sys2Proof/Syntax.lean ====
section
/-! DEFINITION. The syntax: who issues an access, the registers, one constructor of `Instr` per row of
spec/opcode_table.json, and the form in which the environment proposes a step. -/

namespace Sys2Proof

/-- A TX channel, global index 0..7 (R4). -/
abbrev TxCh := Fin 8

/-- An RX channel by its place 0..7 among the RX channels: place `r` is the global index `r + 8` (R4). -/
abbrev RxCh := Fin 8

/-- Who issues an MMIO access (R99): the block's DEMUX, TXENG and INIT, or the PEER. -/
inductive Issuer where
  | demux
  | txeng
  | init
  | peer
  deriving DecidableEq, Repr, Inhabited

/-- The direction of an MMIO access (R99). -/
inductive Dir where
  | read
  | write
  deriving DecidableEq, Repr, Inhabited

/-- The nine words of the register window (R120); `rsvd` is the reserved offset 0x10. -/
inductive Reg where
  | c2dEn
  | c2dSet
  | c2dClr
  | c2dStat
  | rsvd
  | d2cSet
  | d2cClr
  | d2cEn
  | d2cStat
  deriving DecidableEq, Repr, Inhabited

/-- One constructor per row of spec/opcode_table.json. Commands carry the issuing port `p` and the fields of
their word; an illegal word keeps the word, and its payload where its opcode is SEND's (R101). Accesses carry
the issuing agent and, for a write, the data. Events carry the operand their rule names. -/
inductive Instr where
  -- format cmd32 (R92)
  | bind (p : Nat) (ch : Nat)
  | send (p : Nat) (ch : Nat) (m : Msg)
  | receiveNb (p : Nat) (ch : Nat)
  | receiveB (p : Nat) (ch : Nat) (t : Nat)
  | pollReady (p : Nat) (ch : Nat)
  | registerListener (p : Nat) (ch : Nat)
  | cancel (p : Nat) (ch : Nat)
  | illegal (p : Nat) (w : Word) (payload : Option Msg)
  -- format mmio32 (R120)
  | c2dEnR (ag : Issuer)
  | c2dEnW (ag : Issuer) (v : Word)
  | c2dSetW (ag : Issuer) (v : Word)
  | c2dSetR (ag : Issuer)
  | c2dClrW (ag : Issuer) (v : Word)
  | c2dClrR (ag : Issuer)
  | c2dStatR (ag : Issuer)
  | c2dStatW (ag : Issuer) (v : Word)
  | rsvdR (ag : Issuer)
  | rsvdW (ag : Issuer) (v : Word)
  | d2cSetW (ag : Issuer) (v : Word)
  | d2cSetR (ag : Issuer)
  | d2cClrW (ag : Issuer) (v : Word)
  | d2cClrR (ag : Issuer)
  | d2cEnR (ag : Issuer)
  | d2cEnW (ag : Issuer) (v : Word)
  | d2cStatR (ag : Issuer)
  | d2cStatW (ag : Issuer) (v : Word)
  -- format buf32 (R140, R141): word `k` of buffer `i`
  | bufR (ag : Issuer) (i : Fin 16) (k : Fin 8)
  | bufW (ag : Issuer) (i : Fin 16) (k : Fin 8) (v : Word)
  -- format event (R100)
  | dmxStart
  | dmxClear
  | dmxSpurious
  | dmxTxack
  | dmxTxackUnbound
  | dmxRxDispatch
  | dmxRxRead
  | dmxRxCommit
  | dmxRearm
  | dmxRxUnbound
  | txGrant (c : TxCh)
  | txWrite
  | txSet
  | txTimeout (c : TxCh)
  | waitConsume (p : Nat)
  | waitTimeout (p : Nat)
  | sync (r : RxCh)
  | tick
  | init
  | reset
  deriving DecidableEq, Repr, Inhabited

/-- The pseudo-instructions of R103. -/
inductive Pseudo where
  | receive (p : Nat) (ch : Nat)
  | receiveWait (p : Nat) (ch : Nat)
  | sendSeq (p : Nat) (ch : Nat) (b : Byte)
  deriving DecidableEq, Repr, Inhabited

/-- What the environment or the schedule proposes as the next step (R12): a port issues a command word, with 32
payload bytes beside it for the opcodes that carry them (R90); a master issues an MMIO access of some width in
bits (R99; the data matters for a write only); or an event, which has no encoding (R100). -/
inductive Proposal where
  | command (p : Nat) (w : Word) (m : Msg)
  | access (ag : Issuer) (dir : Dir) (width : Nat) (addr : Nat) (data : Word)
  | event (i : Instr)
  deriving DecidableEq, Repr, Inhabited

/-- The draws offered to one step (R11): free inputs chosen by the environment. `txArb` of R192 is the operand of
TX_GRANT and `buf_reset` of R340 is `Config.bufResetDraw`. -/
structure Draws where
  xferErr : Bool
  clrTakes : Bool
  spuriousTrigger : Bool
  deriving DecidableEq, Repr, Inhabited

/-- One slot of the schedule: a proposed step and the draws offered to it. -/
structure Slot where
  proposal : Proposal
  draws : Draws
  deriving DecidableEq, Repr, Inhabited

end Sys2Proof
end

