-- ==== Sys2Proof/Config.lean ====
section
/-! DEFINITION. The parameters of R5 that are OPEN, the fixed constants, and the free values. -/

namespace Sys2Proof

/-- The OPEN parameters of R5, "an argument of the model". A state carries its configuration and no step changes
it (log 4). -/
structure Config where
  regBase : Nat
  bufBase : Nat
  addrBits : Nat
  numPorts : Nat
  tSendTimeout : Nat
  syncStages : Nat
  deriving DecidableEq, Repr, Inhabited

/-- CLEAR_RETRY_COUNT (R5). -/
abbrev clearRetryCount : Nat := 3

/-- The configuration of `State.reset`: the conventions of 95_test_vectors.md, the default ADDR_BITS and the least
SYNC_STAGES (DESIGN CHOICE, log 4). -/
def Config.vectors : Config :=
  { regBase := 0x10000000, bufBase := 0x10000100, addrBits := 32, numPorts := 4, tSendTimeout := 3, syncStages := 2 }

/-- The draw `buf_reset` of R340: the byte at an address after the given RESET (a free value, log 3). -/
opaque Config.bufResetDraw : Nat → Nat → Byte

/-- The slot the environment and the schedule offer at a step for which `agenda` lists none (a free value, log 1). -/
opaque Config.freeSlot : Nat → Slot

end Sys2Proof
end

