-- ==== Sys2Proof/WellFormed.lean ====
section
/-! DEFINITION. Which instructions a word can spell: the field widths of R91 and the legality of R93. -/

namespace Sys2Proof

/-- The field constraints of R93, as a check on a command word. -/
def legalWord (w : Word) : Bool :=
  let n := w.toNat
  if n % 16 = 3 then
    decide (n / 2 ^ 13 % 8 = 0) && (decide (n / 2 ^ 12 % 2 = 1) || decide (n / 2 ^ 16 = 0))
  else
    decide (n % 16 = 1 ∨ n % 16 = 2 ∨ n % 16 = 4 ∨ n % 16 = 5 ∨ n % 16 = 6) && decide (n / 2 ^ 12 = 0)

/-- The channel field is 8 bits wide (R91). -/
def chanFits (ch : Nat) : Bool := decide (ch < 256)

/-- The timeout field is 16 bits wide (R91). -/
def timeoutFits (t : Nat) : Bool := decide (t < 65536)

/-- An illegal word is one no other row matches, and it has a payload exactly when its opcode is SEND's (R98, R101). -/
def illegalFits (w : Word) (payload : Option Msg) : Bool :=
  !legalWord w && (payload.isSome == decide (w.toNat % 16 = 2))

/-- An instruction whose operands its encoding can carry. -/
def Instr.wf : Instr → Bool
  | .bind _ ch => chanFits ch
  | .send _ ch _ => chanFits ch
  | .receiveNb _ ch => chanFits ch
  | .receiveB _ ch t => chanFits ch && timeoutFits t
  | .pollReady _ ch => chanFits ch
  | .registerListener _ ch => chanFits ch
  | .cancel _ ch => chanFits ch
  | .illegal _ w payload => illegalFits w payload
  | .c2dEnR _ => true
  | .c2dEnW _ _ => true
  | .c2dSetW _ _ => true
  | .c2dSetR _ => true
  | .c2dClrW _ _ => true
  | .c2dClrR _ => true
  | .c2dStatR _ => true
  | .c2dStatW _ _ => true
  | .rsvdR _ => true
  | .rsvdW _ _ => true
  | .d2cSetW _ _ => true
  | .d2cSetR _ => true
  | .d2cClrW _ _ => true
  | .d2cClrR _ => true
  | .d2cEnR _ => true
  | .d2cEnW _ _ => true
  | .d2cStatR _ => true
  | .d2cStatW _ _ => true
  | .bufR _ _ _ => true
  | .bufW _ _ _ _ => true
  | .dmxStart => true
  | .dmxClear => true
  | .dmxSpurious => true
  | .dmxTxack => true
  | .dmxTxackUnbound => true
  | .dmxRxDispatch => true
  | .dmxRxRead => true
  | .dmxRxCommit => true
  | .dmxRearm => true
  | .dmxRxUnbound => true
  | .txGrant _ => true
  | .txWrite => true
  | .txSet => true
  | .txTimeout _ => true
  | .waitConsume _ => true
  | .waitTimeout _ => true
  | .sync _ => true
  | .tick => true
  | .init => true
  | .reset => true

end Sys2Proof
end

