-- ==== Sys2Proof/Decode.lean ====
section
/-! DEFINITION. The address map, the decoders of command words, command bytes and MMIO accesses, and after them the
encoders. A command word is decoded by R94, an access by its offset and direction (R99, R120, R140), and an event has no
encoding (R100). -/

namespace Sys2Proof

/-! ## Bit fields and bytes -/

/-- `w[hi:lo]`, read as an unsigned number (R8). -/
def bits (w : Word) (hi lo : Nat) : Nat := w.toNat / 2 ^ lo % 2 ^ (hi + 1 - lo)

/-- `le32` of R10: four bytes packed little-endian. -/
def le32 (b0 b1 b2 b3 : Byte) : Word :=
  b0.setWidth 32 ||| (b1.setWidth 32 <<< 8) ||| (b2.setWidth 32 <<< 16) ||| (b3.setWidth 32 <<< 24)

/-- Byte `j` of `le_bytes` of R10: bits `[8j+7:8j]`. -/
def leByte (w : Word) (j : Fin 4) : Byte := w.extractLsb' (8 * j.val) 8

/-- `le_bytes` of R10. -/
def leBytes (w : Word) : List Byte := [leByte w 0, leByte w 1, leByte w 2, leByte w 3]

/-! ## The address map -/

/-- The byte offset of a register from REG_BASE (R120). -/
def Reg.offset : Reg → Nat
  | .c2dEn => 0x00
  | .c2dSet => 0x04
  | .c2dClr => 0x08
  | .c2dStat => 0x0c
  | .rsvd => 0x10
  | .d2cSet => 0x14
  | .d2cClr => 0x18
  | .d2cEn => 0x1c
  | .d2cStat => 0x20

/-- The address of a register. -/
def regAddr (c : Config) (r : Reg) : Nat := c.regBase + r.offset

/-- `buf_addr` of R10. -/
def bufAddr (c : Config) (i : Fin 16) : Nat := c.bufBase + 32 * i.val

/-- The address of word `k` of buffer `i` (R67). -/
def bufWordAddr (c : Config) (i : Fin 16) (k : Fin 8) : Nat := bufAddr c i + 4 * k.val

/-- The register window of R61. -/
def inRegWindow (c : Config) (addr : Nat) : Bool := decide (c.regBase ≤ addr ∧ addr < c.regBase + 0x24)

/-- The buffer window of R62. -/
def inBufWindow (c : Config) (addr : Nat) : Bool := decide (c.bufBase ≤ addr ∧ addr < c.bufBase + 512)

/-! ## Decoders -/

/-- Why a byte string, an access or a proposal is no instruction. -/
inductive Reject where
  /-- fewer than four bytes -/
  | truncatedWord
  /-- fewer than 32 payload bytes after a word whose opcode carries them -/
  | truncatedPayload
  /-- R142: the width is not 32 bits -/
  | badWidth
  /-- R142, R120: the address is not a multiple of 4 -/
  | misaligned
  /-- R142: the address is in neither window -/
  | outsideWindows
  /-- the proposal names no event of R100 -/
  | notAnEvent
  deriving DecidableEq, Repr, Inhabited

/-- `decode` of R94, on the word a port `p` issues with the payload `m` beside it. Total: a word no row matches is
ILLEGAL (R98). -/
def decodeCommand (p : Nat) (w : Word) (m : Msg) : Instr :=
  let ch := bits w 11 4
  let upperZero := bits w 31 12 = 0
  match bits w 3 0 with
  | 1 => if upperZero then .bind p ch else .illegal p w none
  | 2 => if upperZero then .send p ch m else .illegal p w (some m)
  | 3 =>
    if bits w 15 13 ≠ 0 then .illegal p w none
    else if bits w 12 12 = 0 then
      if bits w 31 16 = 0 then .receiveNb p ch else .illegal p w none
    else .receiveB p ch (bits w 31 16)
  | 4 => if upperZero then .pollReady p ch else .illegal p w none
  | 5 => if upperZero then .registerListener p ch else .illegal p w none
  | 6 => if upperZero then .cancel p ch else .illegal p w none
  | _ => .illegal p w none

/-- Whether a command word is followed by 32 payload bytes: from bits [3:0] alone (R101). -/
def carriesPayload (w : Word) : Bool := decide (bits w 3 0 = 2)

/-- Decode the bytes of a command: the word, little-endian, then the payload if its opcode carries one. The order of
the two in a byte string is the model's own (log 11). -/
def decodeBytes (p : Nat) (bytes : List Byte) : Except Reject (Instr × List Byte) :=
  match bytes with
  | b0 :: b1 :: b2 :: b3 :: rest =>
    let w := le32 b0 b1 b2 b3
    if carriesPayload w then
      if h : (rest.take 32).length = 32 then
        .ok (decodeCommand p w ⟨(rest.take 32).toArray, by simpa using h⟩, rest.drop 32)
      else .error .truncatedPayload
    else .ok (decodeCommand p w Msg.zero, rest)
  | _ => .error .truncatedWord

/-- The row of format mmio32 with this register and direction (R120). -/
def regInstr (ag : Issuer) (dir : Dir) (v : Word) (r : Reg) : Instr :=
  match r, dir with
  | .c2dEn, .read => .c2dEnR ag
  | .c2dEn, .write => .c2dEnW ag v
  | .c2dSet, .read => .c2dSetR ag
  | .c2dSet, .write => .c2dSetW ag v
  | .c2dClr, .read => .c2dClrR ag
  | .c2dClr, .write => .c2dClrW ag v
  | .c2dStat, .read => .c2dStatR ag
  | .c2dStat, .write => .c2dStatW ag v
  | .rsvd, .read => .rsvdR ag
  | .rsvd, .write => .rsvdW ag v
  | .d2cSet, .read => .d2cSetR ag
  | .d2cSet, .write => .d2cSetW ag v
  | .d2cClr, .read => .d2cClrR ag
  | .d2cClr, .write => .d2cClrW ag v
  | .d2cEn, .read => .d2cEnR ag
  | .d2cEn, .write => .d2cEnW ag v
  | .d2cStat, .read => .d2cStatR ag
  | .d2cStat, .write => .d2cStatW ag v

/-- The register at an offset of the register window, if any (R120). -/
def regAtOffset (o : Nat) : Option Reg :=
  [Reg.c2dEn, .c2dSet, .c2dClr, .c2dStat, .rsvd, .d2cSet, .d2cClr, .d2cEn, .d2cStat].find? fun r => r.offset == o

/-- The buffer word at an offset from BUF_BASE: buffer [8:5], word [4:2] (R140). -/
def bufInstr (ag : Issuer) (dir : Dir) (v : Word) (o : Nat) : Instr :=
  let i : Fin 16 := ⟨o / 32 % 16, Nat.mod_lt _ (by decide)⟩
  let k : Fin 8 := ⟨o % 32 / 4, by omega⟩
  match dir with
  | .read => .bufR ag i k
  | .write => .bufW ag i k v

/-- Decode an MMIO access (R99, R120, R140), rejecting by name the accesses that have no step (R142). -/
def decodeAccess (c : Config) (ag : Issuer) (dir : Dir) (width addr : Nat) (data : Word) : Except Reject Instr :=
  if width ≠ 32 then .error .badWidth
  else if addr % 4 ≠ 0 then .error .misaligned
  else if inRegWindow c addr then
    match regAtOffset (addr - c.regBase) with
    | some r => .ok (regInstr ag dir data r)
    | none => .error .misaligned
  else if inBufWindow c addr then
    if (addr - c.bufBase) % 4 = 0 then .ok (bufInstr ag dir data (addr - c.bufBase)) else .error .misaligned
  else .error .outsideWindows

/-- The rows of format event (R100). -/
def Instr.isEvent : Instr → Bool
  | .dmxStart | .dmxClear | .dmxSpurious | .dmxTxack | .dmxTxackUnbound | .dmxRxDispatch | .dmxRxRead
  | .dmxRxCommit | .dmxRearm | .dmxRxUnbound | .txGrant _ | .txWrite | .txSet | .txTimeout _ | .waitConsume _
  | .waitTimeout _ | .sync _ | .tick | .init | .reset => true
  | .bind .. | .send .. | .receiveNb .. | .receiveB .. | .pollReady .. | .registerListener .. | .cancel ..
  | .illegal .. | .c2dEnR .. | .c2dEnW .. | .c2dSetW .. | .c2dSetR .. | .c2dClrW .. | .c2dClrR .. | .c2dStatR ..
  | .c2dStatW .. | .rsvdR .. | .rsvdW .. | .d2cSetW .. | .d2cSetR .. | .d2cClrW .. | .d2cClrR .. | .d2cEnR ..
  | .d2cEnW .. | .d2cStatR .. | .d2cStatW .. | .bufR .. | .bufW .. => false

/-- Decode a proposal. -/
def decode (c : Config) : Proposal → Except Reject Instr
  | .command p w m => .ok (decodeCommand p w m)
  | .access ag dir width addr data => decodeAccess c ag dir width addr data
  | .event i => if i.isEvent then .ok i else .error .notAnEvent

/-! ## Encoders -/

/-- The command word of an instruction, by the table of R102; 0 for an instruction that has no command word. -/
def encodeWord : Instr → Word
  | .bind _ ch => BitVec.ofNat 32 (ch * 2 ^ 4 + 0x1)
  | .send _ ch _ => BitVec.ofNat 32 (ch * 2 ^ 4 + 0x2)
  | .receiveNb _ ch => BitVec.ofNat 32 (ch * 2 ^ 4 + 0x3)
  | .receiveB _ ch t => BitVec.ofNat 32 (t * 2 ^ 16 + 0x1000 + ch * 2 ^ 4 + 0x3)
  | .pollReady _ ch => BitVec.ofNat 32 (ch * 2 ^ 4 + 0x4)
  | .registerListener _ ch => BitVec.ofNat 32 (ch * 2 ^ 4 + 0x5)
  | .cancel _ ch => BitVec.ofNat 32 (ch * 2 ^ 4 + 0x6)
  | .illegal _ w _ => w
  | _ => 0

/-- The payload that goes with a command (R95, R101). -/
def commandPayload : Instr → Option Msg
  | .send _ _ m => some m
  | .illegal _ _ payload => payload
  | _ => none

/-- The proposal that presents a command. -/
def encodeCommand (p : Nat) (i : Instr) : Proposal :=
  .command p (encodeWord i) ((commandPayload i).getD Msg.zero)

/-- The bytes of a command, in the order `decodeBytes` reads them. -/
def encodeBytes (i : Instr) : List Byte :=
  leBytes (encodeWord i) ++ (match commandPayload i with | some m => m.toList | none => [])

/-- The proposal that presents an instruction: a command word, an access tuple (R99), or an event. -/
def encode (c : Config) : Instr → Proposal
  | .bind p ch => encodeCommand p (.bind p ch)
  | .send p ch m => encodeCommand p (.send p ch m)
  | .receiveNb p ch => encodeCommand p (.receiveNb p ch)
  | .receiveB p ch t => encodeCommand p (.receiveB p ch t)
  | .pollReady p ch => encodeCommand p (.pollReady p ch)
  | .registerListener p ch => encodeCommand p (.registerListener p ch)
  | .cancel p ch => encodeCommand p (.cancel p ch)
  | .illegal p w payload => encodeCommand p (.illegal p w payload)
  | .c2dEnR ag => .access ag .read 32 (regAddr c .c2dEn) 0
  | .c2dEnW ag v => .access ag .write 32 (regAddr c .c2dEn) v
  | .c2dSetW ag v => .access ag .write 32 (regAddr c .c2dSet) v
  | .c2dSetR ag => .access ag .read 32 (regAddr c .c2dSet) 0
  | .c2dClrW ag v => .access ag .write 32 (regAddr c .c2dClr) v
  | .c2dClrR ag => .access ag .read 32 (regAddr c .c2dClr) 0
  | .c2dStatR ag => .access ag .read 32 (regAddr c .c2dStat) 0
  | .c2dStatW ag v => .access ag .write 32 (regAddr c .c2dStat) v
  | .rsvdR ag => .access ag .read 32 (regAddr c .rsvd) 0
  | .rsvdW ag v => .access ag .write 32 (regAddr c .rsvd) v
  | .d2cSetW ag v => .access ag .write 32 (regAddr c .d2cSet) v
  | .d2cSetR ag => .access ag .read 32 (regAddr c .d2cSet) 0
  | .d2cClrW ag v => .access ag .write 32 (regAddr c .d2cClr) v
  | .d2cClrR ag => .access ag .read 32 (regAddr c .d2cClr) 0
  | .d2cEnR ag => .access ag .read 32 (regAddr c .d2cEn) 0
  | .d2cEnW ag v => .access ag .write 32 (regAddr c .d2cEn) v
  | .d2cStatR ag => .access ag .read 32 (regAddr c .d2cStat) 0
  | .d2cStatW ag v => .access ag .write 32 (regAddr c .d2cStat) v
  | .bufR ag i k => .access ag .read 32 (bufWordAddr c i k) 0
  | .bufW ag i k v => .access ag .write 32 (bufWordAddr c i k) v
  | .dmxStart => .event .dmxStart
  | .dmxClear => .event .dmxClear
  | .dmxSpurious => .event .dmxSpurious
  | .dmxTxack => .event .dmxTxack
  | .dmxTxackUnbound => .event .dmxTxackUnbound
  | .dmxRxDispatch => .event .dmxRxDispatch
  | .dmxRxRead => .event .dmxRxRead
  | .dmxRxCommit => .event .dmxRxCommit
  | .dmxRearm => .event .dmxRearm
  | .dmxRxUnbound => .event .dmxRxUnbound
  | .txGrant ch => .event (.txGrant ch)
  | .txWrite => .event .txWrite
  | .txSet => .event .txSet
  | .txTimeout ch => .event (.txTimeout ch)
  | .waitConsume p => .event (.waitConsume p)
  | .waitTimeout p => .event (.waitTimeout p)
  | .sync r => .event (.sync r)
  | .tick => .event .tick
  | .init => .event .init
  | .reset => .event .reset

/-! ## Pseudo-instructions and the assembler syntax -/

/-- Each pseudo-instruction expands to exactly one command (R103). -/
def Pseudo.expand : Pseudo → Instr
  | .receive p ch => .receiveNb p ch
  | .receiveWait p ch => .receiveB p ch 0
  | .sendSeq p ch b => .send p ch (Vector.ofFn fun k : Fin 32 => b + BitVec.ofNat 8 k.val)

/-- The assembler syntax of R102, with the issuing port as its prefix; none where R102 gives no syntax. -/
def assembly : Instr → Option String
  | .bind p ch => some ("p" ++ toString p ++ ": BIND " ++ toString ch)
  | .send p ch m =>
    some ("p" ++ toString p ++ ": SEND " ++ toString ch ++ ", [" ++
      String.intercalate ", " (m.toList.map fun b => toString b.toNat) ++ "]")
  | .receiveNb p ch => some ("p" ++ toString p ++ ": RECEIVE.NB " ++ toString ch)
  | .receiveB p ch t => some ("p" ++ toString p ++ ": RECEIVE.B " ++ toString ch ++ ", " ++ toString t)
  | .pollReady p ch => some ("p" ++ toString p ++ ": POLL_READY " ++ toString ch)
  | .registerListener p ch => some ("p" ++ toString p ++ ": REGISTER_LISTENER " ++ toString ch)
  | .cancel p ch => some ("p" ++ toString p ++ ": CANCEL " ++ toString ch)
  | _ => none

/-! ## The opcode table's words -/

/-- Byte `k` of an instruction whose bits are `w`, every bit from `nbits` on being 0. -/
def tableByte (nbits w k : Nat) : Byte := BitVec.ofNat 8 (w % 2 ^ nbits / 2 ^ (8 * k))

/-- The command word of an instruction given by its table bits. -/
def tableCommand (nbits w : Nat) : Word := BitVec.ofNat 32 (w % 2 ^ nbits)

/-- The payload of an instruction given by its table bits: the bytes after the word. -/
def tablePayload (nbits w : Nat) : Msg := Vector.ofFn fun k : Fin 32 => tableByte nbits w (4 + k.val)

/-- The instruction the decoder reads from the bits of a table row, laid out as the longest command (a word and 32
payload bytes) that port 0 issues. Only the cmd32 rows are told apart by bits: an access row by an offset and a
direction, an event row by no bits at all (log 10). -/
def decodeTableWord (nbits w : Nat) : Option Instr :=
  match decodeBytes 0 ((List.range 36).map (tableByte nbits w)) with
  | .ok (i, _) => some i
  | .error _ => none

end Sys2Proof
end

