-- ==== Sys2Proof/Machine/State.lean ====
section
/-! DEFINITION. The state: everything 10_state.md gives the block and the mailbox it drives (R20 to R45), the parameters,
and the environment's inputs, all plain data. -/

namespace Sys2Proof.Machine

/-- The status codes of R300. -/
inductive StatusCode where
  | ok
  | invalidChannel
  | channelUnbound
  | channelBusy
  | sendTimeout
  | copyFault
  | empty
  | recvTimeout
  | cancelled
  | illegalCommand
  deriving DecidableEq, Repr, Inhabited

/-- The report kinds of R302. -/
inductive ReportKind where
  | spuriousInterrupt
  | illegalTxChannel
  | illegalRxChannel
  | staleAck
  deriving DecidableEq, Repr, Inhabited

/-- One record of the event history (R43). A channel index of a REPORT or NOTIFY is the global one. A RESP holds the
32-bit response word of R96 and the data of a RECEIVE that got OK. -/
inductive Record where
  | mmio (ag : Issuer) (dir : Dir) (addr : Nat) (data : Word)
  | cmd (p : Nat) (w : Word) (payload : Option Msg)
  | resp (p : Nat) (word : Word) (data : Option Msg)
  | report (kind : ReportKind) (idx : Nat)
  | notify (p : Nat) (r : Nat)
  deriving DecidableEq, Repr, Inhabited

/-- `tx_state[c]` (R35). -/
inductive TxState where
  | idle
  | sending
  | waitAck
  deriving DecidableEq, Repr, Inhabited

/-- The five items of a TX channel (R35). -/
structure TxChan where
  state : TxState
  port : Nat
  payload : Msg
  word : Nat
  elapsed : Nat
  deriving DecidableEq, Repr, Inhabited

/-- An RX channel: PendingReceipt (R37), the consumer-domain copy of its flag (R38) and its listeners, one bit per
port (R39). -/
structure RxChan where
  buf : Msg
  ready : Bool
  readySync : Bool
  listeners : List Bool
  deriving DecidableEq, Repr, Inhabited

/-- `dmx_state` (R40). -/
inductive DmxState where
  | idle
  | clearing (n : Fin clearRetryCount)
  | dispatch
  | rxCopy (k : Fin 8)
  | rxCommit
  | rearm
  deriving DecidableEq, Repr, Inhabited

/-- `port_state[p]` (R41); `waiting r t` waits on RX channel `r` with timeout `t`, 0 meaning no bound. -/
inductive PortState where
  | free
  | sendPending (c : TxCh)
  | waiting (r : RxCh) (t : Nat)
  deriving DecidableEq, Repr, Inhabited

/-- The two items of a port (R41). -/
structure Port where
  state : PortState
  elapsed : Nat
  deriving DecidableEq, Repr, Inhabited

/-- The whole state. -/
structure State where
  /-- the OPEN parameters of R5; no step changes them (log 4) -/
  cfg : Config
  /-- R23 -/
  c2dEn : Word
  /-- R26 -/
  c2dStat : Word
  /-- R29 -/
  d2cEn : Word
  /-- R30 -/
  d2cStat : Word
  /-- R33: the buffer bytes written since reset, by address, strictly rising -/
  mem : List Host.Cell
  /-- how many RESET steps were taken, the argument of the draw `buf_reset` (log 3) -/
  resetCount : Nat
  /-- R34 -/
  bound : Vector Bool 16
  /-- R35 -/
  tx : Vector TxChan 8
  /-- R36 -/
  txGrant : Option TxCh
  /-- R37, R38, R39 -/
  rx : Vector RxChan 8
  /-- R40 -/
  dmxState : DmxState
  /-- R40 -/
  dmxValid : Bool
  /-- R40 -/
  dmxIdx : Fin 16
  /-- R40 -/
  dmxMask : Word
  /-- R40 -/
  dmxWords : Vector Word 8
  /-- R41: one entry per port 0 .. NUM_PORTS-1 -/
  ports : List Port
  /-- R42 -/
  initDone : Bool
  /-- R43: in step order, the oldest first -/
  history : List Record
  /-- the peer issued an access that has no step (R142, log 7) -/
  peerStuck : Bool
  /-- the slots the environment has chosen, the next one first (log 1) -/
  agenda : List Slot
  /-- the draws offered to the step being taken (R11, log 2) -/
  draws : Draws
  /-- the steps taken, the argument of the free slot (log 1) -/
  stepCount : Nat
  deriving DecidableEq, Repr

/-- Why an instruction has no step from a state. None of the three changes anything. All are safe: the model stops
where the spec has no step, and `step` passes on to the next slot. -/
inductive Fault where
  /-- raised by an event whose trigger does not hold (R12, R100); safe -/
  | notEnabled
  /-- raised by a command of a port that is not FREE, that does not exist, or before INIT (R97); safe -/
  | cannotIssue
  /-- raised by an access of a peer that is stuck (R142); safe -/
  | peerStuck
  deriving DecidableEq, Repr

/-- Why the model gives no meaning. -/
inductive Refusal where
  /-- raised by `exec` for an instruction whose meaning is not written; safe -/
  | notModelled (mnemonic : String)
  /-- raised by `step` when the parameters break R5 or R6 (R6: a model refuses such a configuration); safe -/
  | badConfiguration
  deriving DecidableEq, Repr

/-- A port after reset (R41). -/
def Port.atReset : Port := { state := .free, elapsed := 0 }

/-- A TX channel after reset (R35). -/
def TxChan.atReset : TxChan := { state := .idle, port := 0, payload := Msg.zero, word := 0, elapsed := 0 }

/-- An RX channel after reset (R37, R38, R39). -/
def RxChan.atReset (numPorts : Nat) : RxChan :=
  { buf := Msg.zero, ready := false, readySync := false, listeners := List.replicate numPorts false }

/-- No draw made. -/
def noDraws : Draws := { xferErr := false, clrTakes := false, spuriousTrigger := false }

/-- The state right after RESET, for given parameters (R340, R45). -/
def State.resetOf (cfg : Config) : State :=
  { cfg := cfg
    c2dEn := 0
    c2dStat := 0
    d2cEn := 0
    d2cStat := 0
    mem := []
    resetCount := 0
    bound := Vector.replicate 16 false
    tx := Vector.replicate 8 TxChan.atReset
    txGrant := none
    rx := Vector.replicate 8 (RxChan.atReset cfg.numPorts)
    dmxState := .idle
    dmxValid := false
    dmxIdx := 0
    dmxMask := 0
    dmxWords := Vector.replicate 8 0
    ports := List.replicate cfg.numPorts Port.atReset
    initDone := false
    history := []
    peerStuck := false
    agenda := []
    draws := noDraws
    stepCount := 0 }

/-- The machine right after reset (R340: RESET is the first step of every run). -/
def State.reset : State := State.resetOf Config.vectors

end Sys2Proof.Machine
end

