-- ==== Sys2Proof/Machine/Flags.lean ====
section
/-! DEFINITION. Status pairs and masks (R10, R31), the interrupt priority encoder (R150), the interrupt lines (R32), and
the numbers of status codes and reports (R96, R300, R302). -/

namespace Sys2Proof.Machine

/-- The 16 status positions in ascending order. -/
def positions : List (Fin 16) := [0, 1, 2, 3, 4, 5, 6, 7, 8, 9, 10, 11, 12, 13, 14, 15]

/-- `pair(s, p) = (s >> (2*p)) & 0x3` (R10). -/
def pair (s : Word) (p : Fin 16) : Word := (s >>> (2 * p.val)) &&& 0x3

/-- `pmask(p) = 0x3 << (2*p)` (R10). -/
def pmask (p : Fin 16) : Word := (0x3 : Word) <<< (2 * p.val)

/-- A pair has fired when its value is not 0b00 (R31). -/
def fired (s : Word) (p : Fin 16) : Bool := pair s p != 0

/-- PRIO_ENC of R150: the lowest fired position; `(false, 0)` when none has fired. -/
def prioEnc (s : Word) : Bool × Fin 16 :=
  match positions.find? (fired s) with
  | some i => (true, i)
  | none => (false, 0)

/-- The word `t` of the single-cycle form of PRIO_ENC (R150). -/
def prioWord (s : Word) : Word := (s ||| (s >>> 1)) &&& 0x55555555

/-- `ctz`: the number of trailing zero bits of a word, 32 for the zero word (R150). -/
def trailingZeros (w : Word) : Nat :=
  match (List.range 32).find? (fun j => w.getLsbD j) with
  | some j => j
  | none => 32

/-- The line into the demultiplexer: `irq_cpu = ((D2C_STAT & D2C_EN) != 0)` (R32). -/
def irqCpu (s : State) : Bool := (s.d2cStat &&& s.d2cEn) != 0

/-- The line to the peer: `irq_dsp = ((C2D_STAT & C2D_EN) != 0)` (R32). -/
def irqDsp (s : State) : Bool := (s.c2dStat &&& s.c2dEn) != 0

/-- The number of a status code (R300). -/
def codeNumber : StatusCode → Nat
  | .ok => 0
  | .invalidChannel => 1
  | .channelUnbound => 2
  | .channelBusy => 3
  | .sendTimeout => 4
  | .copyFault => 5
  | .empty => 6
  | .recvTimeout => 7
  | .cancelled => 8
  | .illegalCommand => 9

/-- The number of a report kind (R302). -/
def reportNumber : ReportKind → Nat
  | .spuriousInterrupt => 1
  | .illegalTxChannel => 2
  | .illegalRxChannel => 3
  | .staleAck => 4

/-- The response word of R96: the code in [3:0], the ready bit in [4], zero above. -/
def respWord (code : StatusCode) (ready : Bool) : Word :=
  BitVec.ofNat 32 (codeNumber code + if ready then 16 else 0)

end Sys2Proof.Machine
end

