-- ==== Sys2Proof/Machine/Operands.lean ====
section
/-! DEFINITION. The operand forms: channel indices and the channel table (R4, R143), the range split of a decoded
position (R152), messages as words (R10), who takes a step (R20), and the constraints on the parameters (R5, R6). -/

namespace Sys2Proof.Machine

/-! ## Channels -/

/-- The TX channel with a global index, if the index is one of 0..7. -/
def txChannel (ch : Nat) : Option TxCh := if h : ch < 8 then some ⟨ch, h⟩ else none

/-- The RX channel with a global index, if the index is one of 8..15. -/
def rxChannel (ch : Nat) : Option RxCh := if h : 8 ≤ ch ∧ ch < 16 then some ⟨ch - 8, by omega⟩ else none

/-- The global index of a TX channel. -/
def chTx (c : TxCh) : Fin 16 := ⟨c.val, by omega⟩

/-- The global index of an RX channel. -/
def chRx (r : RxCh) : Fin 16 := ⟨r.val + 8, by omega⟩

/-- The direction of a channel (R143). -/
inductive ChanDir where
  | tx
  | rx
  deriving DecidableEq, Repr

/-- A register bank (R143). -/
inductive Bank where
  | c2d
  | d2c
  deriving DecidableEq, Repr

/-- The record of a channel (R143). -/
structure ChanRecord where
  index : Fin 16
  dir : ChanDir
  bank : Bank
  buffer : Nat
  notifyPos : Fin 16
  eventPos : Fin 16
  deriving DecidableEq, Repr

/-- `lookup(ch)` of R143; none is its failure InvalidChannel. -/
def lookup (c : Config) (ch : Nat) : Option ChanRecord :=
  if h : ch < 16 then
    some
      { index := ⟨ch, h⟩
        dir := if ch < 8 then .tx else .rx
        bank := if ch < 8 then .c2d else .d2c
        buffer := bufAddr c ⟨ch, h⟩
        notifyPos := ⟨ch, h⟩
        eventPos := if h8 : ch < 8 then ⟨ch + 8, by omega⟩ else ⟨ch - 8, by omega⟩ }
  else none

/-- What a decoded position is about (R152): an arrival on an RX channel or the TX-ack of a TX channel. -/
inductive Target where
  | arrival (r : RxCh)
  | ack (c : TxCh)
  deriving DecidableEq, Repr

/-- The range split of R152: position `d` in 0..7 is RX channel `d + 8`, in 8..15 it is TX channel `d - 8`. -/
def rangeSplit (d : Fin 16) : Target :=
  if h : d.val < 8 then .arrival ⟨d.val, h⟩ else .ack ⟨d.val - 8, by omega⟩

/-! ## Messages as words -/

/-- Word `k` of `words_of(m)` (R10). -/
def wordOf (m : Msg) (k : Fin 8) : Word :=
  le32 m[4 * k.val] m[4 * k.val + 1] m[4 * k.val + 2] m[4 * k.val + 3]

/-- `msg_of(w0..w7)` (R10). -/
def msgOf (ws : Vector Word 8) : Msg :=
  Vector.ofFn fun k : Fin 32 => leByte (ws[k.val / 4]'(by omega)) ⟨k.val % 4, Nat.mod_lt _ (by decide)⟩

/-! ## Agents -/

/-- The agents of R20, and the environment that takes RESET (R340). -/
inductive Agent where
  | demux
  | txeng
  | port (p : Nat)
  | sync
  | timebase
  | peer
  | init
  | environment
  deriving DecidableEq, Repr

/-- An issuer as an agent. -/
def issuerAgent : Issuer → Agent
  | .demux => .demux
  | .txeng => .txeng
  | .init => .init
  | .peer => .peer

/-- The agent that takes a step (R20). -/
def agentOf : Instr → Agent
  | .bind p _ | .send p _ _ | .receiveNb p _ | .receiveB p _ _ | .pollReady p _ | .registerListener p _
  | .cancel p _ | .illegal p _ _ | .waitConsume p | .waitTimeout p => .port p
  | .c2dEnR ag | .c2dEnW ag _ | .c2dSetW ag _ | .c2dSetR ag | .c2dClrW ag _ | .c2dClrR ag | .c2dStatR ag
  | .c2dStatW ag _ | .rsvdR ag | .rsvdW ag _ | .d2cSetW ag _ | .d2cSetR ag | .d2cClrW ag _ | .d2cClrR ag
  | .d2cEnR ag | .d2cEnW ag _ | .d2cStatR ag | .d2cStatW ag _ | .bufR ag _ _ | .bufW ag _ _ _ => issuerAgent ag
  | .dmxStart | .dmxClear | .dmxSpurious | .dmxTxack | .dmxTxackUnbound | .dmxRxDispatch | .dmxRxRead
  | .dmxRxCommit | .dmxRearm | .dmxRxUnbound => .demux
  | .txGrant _ | .txWrite | .txSet | .txTimeout _ => .txeng
  | .sync _ => .sync
  | .tick => .timebase
  | .init => .init
  | .reset => .environment

/-- Whether a decoded proposal is a step of its own. An access is one only for the PEER: the block's accesses are parts
of its sequencer steps (R20, R60). -/
def standsAlone (i : Instr) : Bool :=
  i.isEvent ||
    match agentOf i with
    | .demux | .txeng | .init => false
    | .port _ | .sync | .timebase | .peer | .environment => true

/-! ## Parameters -/

/-- The constraints of R5 and R6. -/
def configLegal (c : Config) : Bool :=
  decide (c.regBase % 4 = 0) && decide (c.bufBase % 4 = 0) && decide (1 ≤ c.tSendTimeout) &&
    decide (1 ≤ c.numPorts) && decide (2 ≤ c.syncStages) &&
    decide (c.regBase + 0x24 ≤ c.bufBase ∨ c.bufBase + 512 ≤ c.regBase) &&
    decide (c.regBase + 0x24 ≤ 2 ^ c.addrBits) && decide (c.bufBase + 512 ≤ 2 ^ c.addrBits)

end Sys2Proof.Machine
end

