-- ==== Sys2Proof/Machine/Ops.lean ====
section
/-! DEFINITION. The shared operations: records and responses (R11, R96, R302), memory (R33, R64), the accesses of the
register file and the buffers with their records (R121 to R141) and the clear reliability (R131), ports (R97), entry to
and return from an invocation (R306, R307), consume (R224), the end of a send (R158, R195), and RESET (R340). -/

namespace Sys2Proof.Machine

/-- What a meaning answers. -/
abbrev Result := Host.Outcome State Fault Refusal

/-! ## Records, ports and responses -/

/-- Append one record to the history (R43). -/
def State.log (s : State) (e : Record) : State := { s with history := s.history ++ [e] }

/-- Write one port's two items (R41). -/
def State.setPort (s : State) (p : Nat) (x : Port) : State := { s with ports := s.ports.set p x }

/-- Write one TX channel's items (R35). -/
def State.setTx (s : State) (c : TxCh) (x : TxChan) : State := { s with tx := s.tx.set c.val x c.isLt }

/-- Write one RX channel's items (R37 to R39). -/
def State.setRx (s : State) (r : RxCh) (x : RxChan) : State := { s with rx := s.rx.set r.val x r.isLt }

/-- `respond` of R96: append the response and free the port. -/
def respond (p : Nat) (code : StatusCode) (ready : Bool) (data : Option Msg) (s : State) : State :=
  (s.setPort p { state := .free, elapsed := 0 }).log (.resp p (respWord code ready) data)

/-- `raise E` of R11: the command ends with the error's code and changes nothing else. -/
def raise (p : Nat) (code : StatusCode) (s : State) : State := respond p code false none s

/-- `report` of R302. -/
def report (kind : ReportKind) (idx : Nat) (s : State) : State := s.log (.report kind idx)

/-- `notify` of R252, with the channel's global index. -/
def notify (q : Nat) (r : RxCh) (s : State) : State := s.log (.notify q (chRx r).val)

/-- Port `p` exists and is FREE (R97). -/
def portFree (s : State) (p : Nat) : Bool :=
  match s.ports[p]? with
  | some x => decide (x.state = .free)
  | none => false

/-- Issue a command (R97): only after INIT and on a FREE port; append CMD, then run the command's rule in the same
step. -/
def issue (p : Nat) (i : Instr) (rule : State → State) (s : State) : Result :=
  if s.initDone && portFree s p then .next (rule (s.log (.cmd p (encodeWord i) (commandPayload i))))
  else .fault .cannotIssue

/-- The binding of a channel (R34). -/
def isBound (s : State) (ch : Fin 16) : Bool := s.bound[ch.val]

/-! ## Memory -/

/-- The canonical form of a memory: addresses strictly rising, so equal memories are equal lists. An unlisted address
holds no stored byte (log 3), so no entry can repeat what an unlisted address holds. -/
abbrev Memory.wf (m : List Host.Cell) : Prop := m.Pairwise fun a b => a.1 < b.1

/-- The stored byte at an address, none where nothing was written since reset. -/
def Memory.find (m : List Host.Cell) (a : Nat) : Option Byte :=
  match m with
  | [] => none
  | x :: rest => if x.1 = a then some x.2 else Memory.find rest a

/-- Write one byte, keeping the canonical form. -/
def Memory.write (m : List Host.Cell) (a : Nat) (v : Byte) : List Host.Cell :=
  match m with
  | [] => [(a, v)]
  | x :: rest =>
    if a < x.1 then (a, v) :: x :: rest
    else if a = x.1 then (a, v) :: rest
    else x :: Memory.write rest a v

/-- Write the four bytes of a word at `a`, little-endian (R64). -/
def Memory.writeWord (m : List Host.Cell) (a : Nat) (v : Word) : List Host.Cell :=
  Memory.write (Memory.write (Memory.write (Memory.write m a (leByte v 0)) (a + 1) (leByte v 1)) (a + 2) (leByte v 2))
    (a + 3) (leByte v 3)

/-- One byte of the buffers: the byte written there, or the draw of the last RESET (R140). -/
def readByte (s : State) (a : Nat) : Byte :=
  match Memory.find s.mem a with
  | some b => b
  | none => Config.bufResetDraw s.resetCount a

/-- One word of the buffers, little-endian (R64, R140). -/
def readWord (s : State) (a : Nat) : Word :=
  le32 (readByte s a) (readByte s (a + 1)) (readByte s (a + 2)) (readByte s (a + 3))

/-- A message buffer as a message: byte `j` of `BUF[i]` (R33). -/
def bufMsg (s : State) (i : Fin 16) : Msg := Vector.ofFn fun j : Fin 32 => readByte s (bufAddr s.cfg i + j.val)

/-- A read of buffer word `k` of buffer `i` by `ag`, recorded (R140). -/
def bufRead (ag : Issuer) (i : Fin 16) (k : Fin 8) (s : State) : Word × State :=
  let v := readWord s (bufWordAddr s.cfg i k)
  (v, s.log (.mmio ag .read (bufWordAddr s.cfg i k) v))

/-- A write of buffer word `k` of buffer `i` by `ag`, recorded (R141). -/
def bufWrite (ag : Issuer) (i : Fin 16) (k : Fin 8) (v : Word) (s : State) : State :=
  ({ s with mem := Memory.writeWord s.mem (bufWordAddr s.cfg i k) v } : State).log
    (.mmio ag .write (bufWordAddr s.cfg i k) v)

/-! ## The register file -/

/-- What a read of a register returns (R121 to R138): the four stored registers, and 0 for the others. -/
def regValue (r : Reg) (s : State) : Word :=
  match r with
  | .c2dEn => s.c2dEn
  | .c2dSet => 0
  | .c2dClr => 0
  | .c2dStat => s.c2dStat
  | .rsvd => 0
  | .d2cSet => 0
  | .d2cClr => 0
  | .d2cEn => s.d2cEn
  | .d2cStat => s.d2cStat

/-- A read of a register by `ag`, recorded. -/
def regRead (ag : Issuer) (r : Reg) (s : State) : Word × State :=
  let v := regValue r s
  (v, s.log (.mmio ag .read (regAddr s.cfg r) v))

/-- Whether a record is an access of the register window by `ag` (R131). -/
def isRegAccess (c : Config) (ag : Issuer) (e : Record) : Bool :=
  match e with
  | .mmio ag' _ addr _ => decide (ag' = ag) && inRegWindow c addr
  | .cmd .. | .resp .. | .report .. | .notify .. => false

/-- The register accesses of `ag` so far, the oldest first. -/
def regAccesses (c : Config) (ag : Issuer) (h : List Record) : List Record := h.filter (isRegAccess c ag)

/-- A write of `v` to clear register `r` by `ag` is the last of a clear run: `ag`'s CLEAR_RETRY_COUNT - 1 register
accesses before it are the same write (R131, log 8). -/
def lastOfClearRun (ag : Issuer) (r : Reg) (v : Word) (s : State) : Bool :=
  (List.replicate (clearRetryCount - 1) (Record.mmio ag .write (regAddr s.cfg r) v)).isSuffixOf
    (regAccesses s.cfg ag s.history)

/-- Whether a clear write takes (R131): always at the end of a clear run, otherwise as the draw `clr_takes` says. -/
def clearTakes (ag : Issuer) (r : Reg) (v : Word) (s : State) : Bool := s.draws.clrTakes || lastOfClearRun ag r v s

/-- The effect of a write of a register (R122, R123, R125, R128 to R130, R135, R137, R139). -/
def regEffect (ag : Issuer) (r : Reg) (v : Word) (s : State) : State :=
  match r with
  | .c2dEn => { s with c2dEn := v }
  | .c2dSet => { s with c2dStat := s.c2dStat ||| v }
  | .c2dClr => if clearTakes ag .c2dClr v s then { s with c2dStat := s.c2dStat &&& ~~~v } else s
  | .c2dStat => s
  | .rsvd => s
  | .d2cSet => { s with d2cStat := s.d2cStat ||| v }
  | .d2cClr => if clearTakes ag .d2cClr v s then { s with d2cStat := s.d2cStat &&& ~~~v } else s
  | .d2cEn => { s with d2cEn := v }
  | .d2cStat => s

/-- A write of a register by `ag`, recorded. -/
def regWrite (ag : Issuer) (r : Reg) (v : Word) (s : State) : State :=
  (regEffect ag r v s).log (.mmio ag .write (regAddr s.cfg r) v)

/-- A stand-alone access. A stuck peer takes no further step (R142). -/
def access (ag : Issuer) (effect : State → State) (s : State) : Result :=
  if decide (ag = .peer) && s.peerStuck then .fault .peerStuck else .next (effect s)

/-- The peer issues an access that has no step: it is stuck, and nothing else changes (R142, log 7). -/
def stallPeer (s : State) : State := { s with peerStuck := true }

/-! ## Invocations -/

/-- Entry to an invocation (R155, R306): decode the status word, save position, validity and mask, go to CLEARING(0). -/
def enterInvocation (w : Word) (s : State) : State :=
  { s with
    dmxValid := (prioEnc w).1
    dmxIdx := (prioEnc w).2
    dmxMask := if (prioEnc w).1 then pmask (prioEnc w).2 else 0
    dmxState := .clearing 0 }

/-- Return from an invocation (R307): `dmx_state <- IDLE`, nothing is restored. -/
def leaveInvocation (s : State) : State := { s with dmxState := .idle }

/-- What a DISPATCH with a fired position is about (R152); none elsewhere. -/
def dispatchTarget (s : State) : Option Target :=
  if decide (s.dmxState = .dispatch) && s.dmxValid then some (rangeSplit s.dmxIdx) else none

/-! ## Sends and receives -/

/-- End the send on channel `c` with a response to its port (R158, R195). -/
def completeSend (c : TxCh) (code : StatusCode) (s : State) : State :=
  (respond s.tx[c].port code false none s).setTx c { s.tx[c] with state := .idle, elapsed := 0 }

/-- `consume(p, r)` of R224. -/
def consume (p : Nat) (r : RxCh) (s : State) : State :=
  if s.draws.xferErr then respond p .copyFault false none s
  else (respond p .ok false (some s.rx[r].buf) s).setRx r { s.rx[r] with ready := false, readySync := false }

/-- Whether port `q` waits on RX channel `r` (R226). -/
def waitsOn (s : State) (r : RxCh) (q : Nat) : Bool :=
  match s.ports[q]? with
  | some { state := .waiting r' _, elapsed := _ } => decide (r' = r)
  | some { state := .free, elapsed := _ } => false
  | some { state := .sendPending _, elapsed := _ } => false
  | none => false

/-- Whether port `q` is a listener of RX channel `r` (R39). -/
def isListener (s : State) (r : RxCh) (q : Nat) : Bool :=
  match s.rx[r].listeners[q]? with
  | some b => b
  | none => false

/-! ## RESET -/

/-- RESET (R340): every item of 10_state.md at its reset value, the buffers drawn anew, the history empty. The parameters
and the environment's own fields stay. -/
def resetMailbox (s : State) : State :=
  { State.resetOf s.cfg with
    resetCount := s.resetCount + 1
    peerStuck := s.peerStuck
    agenda := s.agenda
    draws := s.draws
    stepCount := s.stepCount }

end Sys2Proof.Machine
end

