-- ==== Sys2Proof/Machine/Buffers.lean ====
section
/-! DEFINITION. The accesses of the message buffers (R140, R141). -/

namespace Sys2Proof.Machine

/-- BUF.R (R140): a read of word `k` of buffer `i`; a byte never written since reset reads as its reset draw. -/
def execBufR (ag : Issuer) (i : Fin 16) (k : Fin 8) (s : State) : Result :=
  access ag (fun s => (bufRead ag i k s).2) s

/-- BUF.W (R141): a write of word `k` of buffer `i`; it never signals. -/
def execBufW (ag : Issuer) (i : Fin 16) (k : Fin 8) (v : Word) (s : State) : Result :=
  access ag (bufWrite ag i k v) s

end Sys2Proof.Machine
end

