-- ==== Sys2Proof/Machine/Channel.lean ====
section
/-! DEFINITION. BIND (R145) and the illegal command word (R98). -/

namespace Sys2Proof.Machine

/-- The accept step of BIND (R145): range, then already bound, then bind. -/
def acceptBind (p ch : Nat) (s : State) : State :=
  if h : ch < 16 then
    if isBound s ⟨ch, h⟩ then raise p .channelBusy s
    else respond p .ok false none { s with bound := s.bound.set ch true h }
  else raise p .invalidChannel s

/-- BIND (R145). -/
def execBind (p ch : Nat) (s : State) : Result := issue p (.bind p ch) (acceptBind p ch) s

/-- ILLEGAL (R98): `raise IllegalCommand(w)`, whatever the word. -/
def execIllegal (p : Nat) (w : Word) (payload : Option Msg) (s : State) : Result :=
  issue p (.illegal p w payload) (raise p .illegalCommand) s

end Sys2Proof.Machine
end

