-- ==== Sys2Proof/Machine/Demux.lean ====
section
/-! DEFINITION. The steps of the interrupt demultiplexer (R155 to R164). -/

namespace Sys2Proof.Machine

/-- DMX_START (R155): read the raw D2C_STAT and enter an invocation, on `irq_cpu` or on the draw `spurious_trigger`. -/
def execDmxStart (s : State) : Result :=
  if s.initDone && decide (s.dmxState = .idle) && (irqCpu s || s.draws.spuriousTrigger) then
    .next (enterInvocation (regRead .demux .d2cStat s).1 (regRead .demux .d2cStat s).2)
  else .fault .notEnabled

/-- The state after clear write `n` (R156). -/
def afterClear (n : Fin clearRetryCount) : DmxState :=
  if h : n.val + 1 < clearRetryCount then .clearing ⟨n.val + 1, h⟩ else .dispatch

/-- DMX_CLEAR (R156): one of the CLEAR_RETRY_COUNT writes of the clear mask to D2C_CLR. -/
def execDmxClear (s : State) : Result :=
  match s.dmxState with
  | .clearing n => .next { regWrite .demux .d2cClr s.dmxMask s with dmxState := afterClear n }
  | .idle | .dispatch | .rxCopy _ | .rxCommit | .rearm => .fault .notEnabled

/-- DMX_SPURIOUS (R157): no pair had fired; report it and service no channel. -/
def execDmxSpurious (s : State) : Result :=
  if s.dmxState = .dispatch ∧ s.dmxValid = false then .next (leaveInvocation (report .spuriousInterrupt 0 s))
  else .fault .notEnabled

/-- DMX_TXACK (R158): the ack ends the send that waits for it with OK; with none waiting it is a StaleAck report. -/
def execDmxTxack (s : State) : Result :=
  match dispatchTarget s with
  | some (.ack c) =>
    if isBound s (chTx c) then
      .next (leaveInvocation
        (if s.tx[c].state = .waitAck then completeSend c .ok s else report .staleAck (chTx c).val s))
    else .fault .notEnabled
  | some (.arrival _) => .fault .notEnabled
  | none => .fault .notEnabled

/-- DMX_TXACK_UNBOUND (R159): an ack for an unbound TX channel is reported and dropped. -/
def execDmxTxackUnbound (s : State) : Result :=
  match dispatchTarget s with
  | some (.ack c) =>
    if isBound s (chTx c) then .fault .notEnabled
    else .next (leaveInvocation (report .illegalTxChannel (chTx c).val s))
  | some (.arrival _) => .fault .notEnabled
  | none => .fault .notEnabled

/-- DMX_RX_DISPATCH (R160): an arrival on a bound RX channel is accepted, whatever its ready flag. -/
def execDmxRxDispatch (s : State) : Result :=
  match dispatchTarget s with
  | some (.arrival r) =>
    if isBound s (chRx r) then .next { s with dmxState := .rxCopy 0 } else .fault .notEnabled
  | some (.ack _) => .fault .notEnabled
  | none => .fault .notEnabled

/-- The state after RX read `k` (R161). -/
def afterRead (k : Fin 8) : DmxState := if h : k.val < 7 then .rxCopy ⟨k.val + 1, by omega⟩ else .rxCommit

/-- DMX_RX_READ (R161): read word `k` of buffer `r = dmx_idx + 8` into the staging words. With `dmx_idx` above 7, which
no run reaches here, `r` is no channel and there is no step (log 14). -/
def execDmxRxRead (s : State) : Result :=
  match s.dmxState, rangeSplit s.dmxIdx with
  | .rxCopy k, .arrival r =>
    .next { (bufRead .demux (chRx r) k s).2 with
      dmxWords := s.dmxWords.set k.val (bufRead .demux (chRx r) k s).1 k.isLt
      dmxState := afterRead k }
  | _, _ => .fault .notEnabled

/-- DMX_RX_COMMIT (R162): message and ready flag are written in one step; an unread message is overwritten. -/
def execDmxRxCommit (s : State) : Result :=
  match s.dmxState, rangeSplit s.dmxIdx with
  | .rxCommit, .arrival r =>
    .next { s.setRx r { s.rx[r] with buf := msgOf s.dmxWords, ready := true } with dmxState := .rearm }
  | _, _ => .fault .notEnabled

/-- DMX_REARM (R163): set C2D position `r = dmx_idx + 8`, the flow-control acknowledgment, and return. -/
def execDmxRearm (s : State) : Result :=
  match s.dmxState, rangeSplit s.dmxIdx with
  | .rearm, .arrival r => .next (leaveInvocation (regWrite .demux .c2dSet (pmask (chRx r)) s))
  | _, _ => .fault .notEnabled

/-- DMX_RX_UNBOUND (R164): an arrival for an unbound RX channel is reported and dropped: no copy, no re-arm. -/
def execDmxRxUnbound (s : State) : Result :=
  match dispatchTarget s with
  | some (.arrival r) =>
    if isBound s (chRx r) then .fault .notEnabled
    else .next (leaveInvocation (report .illegalRxChannel (chRx r).val s))
  | some (.ack _) => .fault .notEnabled
  | none => .fault .notEnabled

end Sys2Proof.Machine
end

