-- ==== Sys2Proof/Machine/Notify.lean ====
section
/-! DEFINITION. The synchronizer (R250) and the commands of the notification bridge (R253, R254). -/

namespace Sys2Proof.Machine

/-- One turn of SYNC's loop (R250): notify port `q` if it is a listener of `r`. -/
def notifyOne (r : RxCh) (s : State) (q : Nat) : State := if isListener s r q then notify q r s else s

/-- SYNC (R250): `ready_sync` rises and every listener is notified, in ascending port order. -/
def execSync (r : RxCh) (s : State) : Result :=
  if s.rx[r].readySync ≠ s.rx[r].ready then
    let s1 := s.setRx r { s.rx[r] with readySync := true }
    .next ((List.range s.cfg.numPorts).foldl (notifyOne r) s1)
  else .fault .notEnabled

/-- The accept step of REGISTER_LISTENER (R253). -/
def acceptRegisterListener (p ch : Nat) (s : State) : State :=
  match rxChannel ch with
  | none => raise p .invalidChannel s
  | some r =>
    respond p .ok false none (s.setRx r { s.rx[r] with listeners := s.rx[r].listeners.set p true })

/-- REGISTER_LISTENER (R253). -/
def execRegisterListener (p ch : Nat) (s : State) : Result :=
  issue p (.registerListener p ch) (acceptRegisterListener p ch) s

/-- The bit POLL_READY answers (R254): the consumer-domain copy, 0 for a channel that is not an RX channel. -/
def pollBit (ch : Nat) (s : State) : Bool :=
  match rxChannel ch with
  | none => false
  | some r => s.rx[r].readySync

/-- POLL_READY (R254): never an error. -/
def execPollReady (p ch : Nat) (s : State) : Result :=
  issue p (.pollReady p ch) (fun s => respond p .ok (pollBit ch s) none s) s

end Sys2Proof.Machine
end

