-- ==== Sys2Proof/Machine/Receive.lean ====
section
/-! DEFINITION. The receive side: RECEIVE in its two modes (R220, R221), the steps of a waiting port (R223, R225), and
CANCEL (R226). -/

namespace Sys2Proof.Machine

/-- The accept step of RECEIVE.NB (R220): the block-domain flag `ready` decides, under the lock. -/
def acceptReceiveNb (p ch : Nat) (s : State) : State :=
  match rxChannel ch with
  | none => raise p .invalidChannel s
  | some r =>
    if !isBound s (chRx r) then raise p .channelUnbound s
    else if s.rx[r].ready then consume p r s
    else respond p .empty false none s

/-- RECEIVE.NB (R220). -/
def execReceiveNb (p ch : Nat) (s : State) : Result := issue p (.receiveNb p ch) (acceptReceiveNb p ch) s

/-- The accept step of RECEIVE.B (R221): with no message the port waits, without a response. -/
def acceptReceiveB (p ch t : Nat) (s : State) : State :=
  match rxChannel ch with
  | none => raise p .invalidChannel s
  | some r =>
    if !isBound s (chRx r) then raise p .channelUnbound s
    else if s.rx[r].ready then consume p r s
    else s.setPort p { state := .waiting r t, elapsed := 0 }

/-- RECEIVE.B (R221). -/
def execReceiveB (p ch t : Nat) (s : State) : Result := issue p (.receiveB p ch t) (acceptReceiveB p ch t) s

/-- WAIT_CONSUME (R223): a waiting port takes the message once the synchronizer has shown it. -/
def execWaitConsume (p : Nat) (s : State) : Result :=
  match s.ports[p]? with
  | some { state := .waiting r _, elapsed := _ } =>
    if s.rx[r].readySync then .next (consume p r s) else .fault .notEnabled
  | some { state := .free, elapsed := _ } => .fault .notEnabled
  | some { state := .sendPending _, elapsed := _ } => .fault .notEnabled
  | none => .fault .notEnabled

/-- WAIT_TIMEOUT (R225): a bounded wait (`t ≠ 0`) runs out; the message, if any, is not touched. -/
def execWaitTimeout (p : Nat) (s : State) : Result :=
  match s.ports[p]? with
  | some { state := .waiting _ t, elapsed := e } =>
    if t ≠ 0 ∧ t ≤ e then .next (respond p .recvTimeout false none s) else .fault .notEnabled
  | some { state := .free, elapsed := _ } => .fault .notEnabled
  | some { state := .sendPending _, elapsed := _ } => .fault .notEnabled
  | none => .fault .notEnabled

/-- One turn of CANCEL's loop (R226): if port `q` waits on `r`, its wait ends with Cancelled. -/
def cancelOne (r : RxCh) (s : State) (q : Nat) : State :=
  if waitsOn s r q then respond q .cancelled false none s else s

/-- The accept step of CANCEL (R226): the waits on the channel end in ascending port order, then the issuer gets OK. -/
def acceptCancel (p ch : Nat) (s : State) : State :=
  match rxChannel ch with
  | none => raise p .invalidChannel s
  | some r => respond p .ok false none ((List.range s.cfg.numPorts).foldl (cancelOne r) s)

/-- CANCEL (R226). -/
def execCancel (p ch : Nat) (s : State) : Result := issue p (.cancel p ch) (acceptCancel p ch) s

end Sys2Proof.Machine
end

