-- ==== Sys2Proof/Machine/Registers.lean ====
section
/-! DEFINITION. The accesses of the register window, one meaning per row of format mmio32 (R121 to R139). -/

namespace Sys2Proof.Machine

/-- C2D_EN.R (R121): a read returns the stored register. -/
def execC2dEnR (ag : Issuer) (s : State) : Result := access ag (fun s => (regRead ag .c2dEn s).2) s

/-- C2D_EN.W (R122): the value is stored. -/
def execC2dEnW (ag : Issuer) (v : Word) (s : State) : Result := access ag (regWrite ag .c2dEn v) s

/-- C2D_SET.R (R124): a read returns 0. -/
def execC2dSetR (ag : Issuer) (s : State) : Result := access ag (fun s => (regRead ag .c2dSet s).2) s

/-- C2D_SET.W (R123): the data is ORed into C2D_STAT. -/
def execC2dSetW (ag : Issuer) (v : Word) (s : State) : Result := access ag (regWrite ag .c2dSet v) s

/-- C2D_CLR.R (R126): a read returns 0. -/
def execC2dClrR (ag : Issuer) (s : State) : Result := access ag (fun s => (regRead ag .c2dClr s).2) s

/-- C2D_CLR.W (R125): if the write takes (R131), the data's bits are cleared in C2D_STAT. -/
def execC2dClrW (ag : Issuer) (v : Word) (s : State) : Result := access ag (regWrite ag .c2dClr v) s

/-- C2D_STAT.R (R127): a read returns the raw latch, not cleared. -/
def execC2dStatR (ag : Issuer) (s : State) : Result := access ag (fun s => (regRead ag .c2dStat s).2) s

/-- C2D_STAT.W (R128): no effect but the record. -/
def execC2dStatW (ag : Issuer) (v : Word) (s : State) : Result := access ag (regWrite ag .c2dStat v) s

/-- RSVD.R (R138): a read returns 0. -/
def execRsvdR (ag : Issuer) (s : State) : Result := access ag (fun s => (regRead ag .rsvd s).2) s

/-- RSVD.W (R139): no effect but the record. -/
def execRsvdW (ag : Issuer) (v : Word) (s : State) : Result := access ag (regWrite ag .rsvd v) s

/-- D2C_SET.R (R132): a read returns 0. -/
def execD2cSetR (ag : Issuer) (s : State) : Result := access ag (fun s => (regRead ag .d2cSet s).2) s

/-- D2C_SET.W (R129): the data is ORed into D2C_STAT. -/
def execD2cSetW (ag : Issuer) (v : Word) (s : State) : Result := access ag (regWrite ag .d2cSet v) s

/-- D2C_CLR.R (R133): a read returns 0. -/
def execD2cClrR (ag : Issuer) (s : State) : Result := access ag (fun s => (regRead ag .d2cClr s).2) s

/-- D2C_CLR.W (R130): if the write takes (R131), the data's bits are cleared in D2C_STAT. -/
def execD2cClrW (ag : Issuer) (v : Word) (s : State) : Result := access ag (regWrite ag .d2cClr v) s

/-- D2C_EN.R (R134): a read returns the stored register. -/
def execD2cEnR (ag : Issuer) (s : State) : Result := access ag (fun s => (regRead ag .d2cEn s).2) s

/-- D2C_EN.W (R135): the value is stored. -/
def execD2cEnW (ag : Issuer) (v : Word) (s : State) : Result := access ag (regWrite ag .d2cEn v) s

/-- D2C_STAT.R (R136): a read returns the raw latch, not cleared. -/
def execD2cStatR (ag : Issuer) (s : State) : Result := access ag (fun s => (regRead ag .d2cStat s).2) s

/-- D2C_STAT.W (R137): no effect but the record. -/
def execD2cStatW (ag : Issuer) (v : Word) (s : State) : Result := access ag (regWrite ag .d2cStat v) s

end Sys2Proof.Machine
end

