-- ==== Sys2Proof/Machine/Send.lean ====
section
/-! DEFINITION. The send side of the channel engine: SEND (R190) and the TX sequencer's steps (R192 to R195). -/

namespace Sys2Proof.Machine

/-- The accept step of SEND (R190): InvalidChannel, ChannelUnbound, ChannelBusy, CopyFault, then the send is latched. -/
def acceptSend (p ch : Nat) (m : Msg) (s : State) : State :=
  match txChannel ch with
  | none => raise p .invalidChannel s
  | some c =>
    if !isBound s (chTx c) then raise p .channelUnbound s
    else if s.tx[c].state ≠ .idle then raise p .channelBusy s
    else if s.draws.xferErr then raise p .copyFault s
    else
      let s := s.setTx c { state := .sending, port := p, payload := m, word := 0, elapsed := 0 }
      { s with ports := s.ports.modify p fun x => { x with state := .sendPending c } }

/-- SEND (R190). -/
def execSend (p ch : Nat) (m : Msg) (s : State) : Result := issue p (.send p ch m) (acceptSend p ch m) s

/-- TX_GRANT (R192): the arbiter grants the payload path to channel `c`, the choice `draw(tx_arb)` among the channels
that are SENDING with no word written. -/
def execTxGrant (c : TxCh) (s : State) : Result :=
  if s.txGrant = none ∧ s.tx[c].state = .sending ∧ s.tx[c].word = 0 then .next { s with txGrant := some c }
  else .fault .notEnabled

/-- TX_WRITE (R193): write the next payload word of the granted channel to its buffer. -/
def execTxWrite (s : State) : Result :=
  match s.txGrant with
  | none => .fault .notEnabled
  | some c =>
    if h : s.tx[c].word < 8 then
      let k : Fin 8 := ⟨s.tx[c].word, h⟩
      .next ((bufWrite .txeng (chTx c) k (wordOf s.tx[c].payload k) s).setTx c { s.tx[c] with word := k.val + 1 })
    else .fault .notEnabled

/-- TX_SET (R194): notify the peer through C2D_SET, start the timeout, release the grant. -/
def execTxSet (s : State) : Result :=
  match s.txGrant with
  | none => .fault .notEnabled
  | some c =>
    if s.tx[c].word = 8 then
      let s1 := (regWrite .txeng .c2dSet (pmask (chTx c)) s).setTx c
        { s.tx[c] with state := .waitAck, elapsed := 0, word := 0 }
      .next { s1 with txGrant := none }
    else .fault .notEnabled

/-- TX_TIMEOUT (R195): the TX-ack of channel `c` has not arrived within T_SEND_TIMEOUT ticks. -/
def execTxTimeout (c : TxCh) (s : State) : Result :=
  if s.tx[c].state = .waitAck ∧ s.cfg.tSendTimeout ≤ s.tx[c].elapsed then .next (completeSend c .sendTimeout s)
  else .fault .notEnabled

end Sys2Proof.Machine
end

