-- ==== Sys2Proof/Machine/System.lean ====
section
/-! DEFINITION. The timebase (R320), initialisation (R342) and reset (R340). -/

namespace Sys2Proof.Machine

/-- One tick of a TX channel (R320): its counter runs in WAIT_ACK only, and saturates. -/
def tickTx (bound : Nat) (x : TxChan) : TxChan :=
  if x.state = .waitAck then { x with elapsed := min (x.elapsed + 1) bound } else x

/-- One tick of a port (R320): its counter runs in WAITING only, and saturates. -/
def tickPort (x : Port) : Port :=
  match x.state with
  | .waiting _ _ => { x with elapsed := min (x.elapsed + 1) 65535 }
  | .free | .sendPending _ => x

/-- TICK (R320), always enabled. -/
def execTick (s : State) : Result :=
  .next { s with
    tx := Vector.ofFn fun c : Fin 8 => tickTx s.cfg.tSendTimeout s.tx[c]
    ports := s.ports.map tickPort }

/-- INIT (R342): enable every position of the D2C bank, once. -/
def execInit (s : State) : Result :=
  if s.initDone then .fault .notEnabled
  else .next { regWrite .init .d2cEn 0xFFFFFFFF s with initDone := true }

/-- RESET (R340), always enabled. -/
def execReset (s : State) : Result := .next (resetMailbox s)

end Sys2Proof.Machine
end

