-- ==== Sys2Proof/Machine/Dispatch.lean ====
section
/-! DEFINITION. The dispatch: one arm per constructor of `Instr`. -/

namespace Sys2Proof.Machine

def exec (i : Instr) (s : State) : Host.Outcome State Fault Refusal :=
  match i with
  | .bind p ch => Sys2Proof.Machine.execBind p ch s
  | .send p ch m => Sys2Proof.Machine.execSend p ch m s
  | .receiveNb p ch => Sys2Proof.Machine.execReceiveNb p ch s
  | .receiveB p ch t => Sys2Proof.Machine.execReceiveB p ch t s
  | .pollReady p ch => Sys2Proof.Machine.execPollReady p ch s
  | .registerListener p ch => Sys2Proof.Machine.execRegisterListener p ch s
  | .cancel p ch => Sys2Proof.Machine.execCancel p ch s
  | .illegal p w payload => Sys2Proof.Machine.execIllegal p w payload s
  | .c2dEnR ag => Sys2Proof.Machine.execC2dEnR ag s
  | .c2dEnW ag v => Sys2Proof.Machine.execC2dEnW ag v s
  | .c2dSetW ag v => Sys2Proof.Machine.execC2dSetW ag v s
  | .c2dSetR ag => Sys2Proof.Machine.execC2dSetR ag s
  | .c2dClrW ag v => Sys2Proof.Machine.execC2dClrW ag v s
  | .c2dClrR ag => Sys2Proof.Machine.execC2dClrR ag s
  | .c2dStatR ag => Sys2Proof.Machine.execC2dStatR ag s
  | .c2dStatW ag v => Sys2Proof.Machine.execC2dStatW ag v s
  | .rsvdR ag => Sys2Proof.Machine.execRsvdR ag s
  | .rsvdW ag v => Sys2Proof.Machine.execRsvdW ag v s
  | .d2cSetW ag v => Sys2Proof.Machine.execD2cSetW ag v s
  | .d2cSetR ag => Sys2Proof.Machine.execD2cSetR ag s
  | .d2cClrW ag v => Sys2Proof.Machine.execD2cClrW ag v s
  | .d2cClrR ag => Sys2Proof.Machine.execD2cClrR ag s
  | .d2cEnR ag => Sys2Proof.Machine.execD2cEnR ag s
  | .d2cEnW ag v => Sys2Proof.Machine.execD2cEnW ag v s
  | .d2cStatR ag => Sys2Proof.Machine.execD2cStatR ag s
  | .d2cStatW ag v => Sys2Proof.Machine.execD2cStatW ag v s
  | .bufR ag b k => Sys2Proof.Machine.execBufR ag b k s
  | .bufW ag b k v => Sys2Proof.Machine.execBufW ag b k v s
  | .dmxStart => Sys2Proof.Machine.execDmxStart s
  | .dmxClear => Sys2Proof.Machine.execDmxClear s
  | .dmxSpurious => Sys2Proof.Machine.execDmxSpurious s
  | .dmxTxack => Sys2Proof.Machine.execDmxTxack s
  | .dmxTxackUnbound => Sys2Proof.Machine.execDmxTxackUnbound s
  | .dmxRxDispatch => Sys2Proof.Machine.execDmxRxDispatch s
  | .dmxRxRead => Sys2Proof.Machine.execDmxRxRead s
  | .dmxRxCommit => Sys2Proof.Machine.execDmxRxCommit s
  | .dmxRearm => Sys2Proof.Machine.execDmxRearm s
  | .dmxRxUnbound => Sys2Proof.Machine.execDmxRxUnbound s
  | .txGrant c => Sys2Proof.Machine.execTxGrant c s
  | .txWrite => Sys2Proof.Machine.execTxWrite s
  | .txSet => Sys2Proof.Machine.execTxSet s
  | .txTimeout c => Sys2Proof.Machine.execTxTimeout c s
  | .waitConsume p => Sys2Proof.Machine.execWaitConsume p s
  | .waitTimeout p => Sys2Proof.Machine.execWaitTimeout p s
  | .sync r => Sys2Proof.Machine.execSync r s
  | .tick => Sys2Proof.Machine.execTick s
  | .init => Sys2Proof.Machine.execInit s
  | .reset => Sys2Proof.Machine.execReset s

end Sys2Proof.Machine
end

