-- ==== Sys2Proof/Machine/Fetch.lean ====
section
/-! DEFINITION. How a slot of the schedule is taken (R12, log 1), what is made of a proposal that has no step (R142, log 6,
log 7), and the step that a given slot makes. -/

namespace Sys2Proof.Machine

/-- The slot the schedule offers now: the first of the agenda, or the free slot of this step. -/
def nextSlot (s : State) : Slot :=
  match s.agenda with
  | sl :: _ => sl
  | [] => Config.freeSlot s.stepCount

/-- Take a slot: its draws are the draws of this step (R11). -/
def loadSlot (sl : Slot) (s : State) : State :=
  { s with agenda := s.agenda.tail, draws := sl.draws, stepCount := s.stepCount + 1 }

/-- Take the slot the schedule offers now. -/
def takeSlot (s : State) : State := loadSlot (nextSlot s) s

/-- A proposed step that does not exist in this state is passed over: nothing but the schedule moves (log 6). -/
def passOver (o : Result) (s : State) : Result :=
  match o with
  | .next t => .next t
  | .fault _ => .next s
  | .refused r => .refused r

/-- A proposal that decodes to nothing. An access by the peer that has no step leaves the peer stuck (R142); a stuck
master of any other name is none of this machine. -/
def rejectProposal (pr : Proposal) (s : State) : State :=
  match pr with
  | .access .peer _ _ _ _ => stallPeer s
  | .access .demux _ _ _ _ => s
  | .access .txeng _ _ _ _ => s
  | .access .init _ _ _ _ => s
  | .command _ _ _ => s
  | .event _ => s

/-- The step a slot makes: a configuration that breaks R5 or R6 is refused (log 5); otherwise its proposal is decoded, and the
instruction runs if it is a step of its own. A proposal that has no step is passed over. -/
def stepOn (sl : Slot) (s : State) : Result :=
  if configLegal s.cfg then
    match decode s.cfg sl.proposal with
    | .ok i => if standsAlone i then passOver (exec i (loadSlot sl s)) (loadSlot sl s) else .next (loadSlot sl s)
    | .error _ => .next (rejectProposal sl.proposal (loadSlot sl s))
  else .refused .badConfiguration

end Sys2Proof.Machine
end

