-- ==== Sys2Proof/Machine/Step.lean ====
section
/-! DEFINITION. One step of the machine, and how the host places an instruction as the next one. -/

namespace Sys2Proof.Machine

/-- One step of the machine: the step that the slot the schedule offers now makes. -/
def step (s : State) : Host.Outcome State Fault Refusal := stepOn (nextSlot s) s

/-- Place the command with these table bits as the next slot, issued by port 0, and make port 0 able to issue it (R97):
INIT done and the port FREE (log 9). -/
def State.withFetchWord (s : State) (nbits w : Nat) : State :=
  { s with
    agenda := { proposal := .command 0 (tableCommand nbits w) (tablePayload nbits w), draws := noDraws } :: s.agenda
    initDone := true
    ports := s.ports.set 0 Port.atReset }

end Sys2Proof.Machine
end

