-- ==== Sys2Proof/Machine/Schedule.lean ====
section
/-! DEFINITION. The schedule: which steps are enabled (R12, the triggers of spec/opcode_table.json), which instruction a
slot's step takes, the infinite runs of the machine, and fairness (R13, R192). -/

namespace Sys2Proof.Machine

/-! ## Enabling -/

/-- Port `p` may issue a command (R97). -/
def mayIssue (p : Nat) (s : State) : Prop :=
  s.initDone = true ∧ ∃ x, s.ports[p]? = some x ∧ x.state = .free

/-- The master `ag` may access: every agent of the block, and the peer unless it is stuck (R142). -/
def mayAccess (ag : Issuer) (s : State) : Prop := ag = .peer → s.peerStuck = false

/-- The enabling condition of a step: R97 for a command, R142 for an access, the trigger of the row for an event. The
operand of TX_GRANT is restricted as R192 says. -/
def Enabled (i : Instr) (s : State) : Prop :=
  match i with
  | .bind p _ | .send p _ _ | .receiveNb p _ | .receiveB p _ _ | .pollReady p _ | .registerListener p _
  | .cancel p _ | .illegal p _ _ => mayIssue p s
  | .c2dEnR ag | .c2dEnW ag _ | .c2dSetW ag _ | .c2dSetR ag | .c2dClrW ag _ | .c2dClrR ag | .c2dStatR ag
  | .c2dStatW ag _ | .rsvdR ag | .rsvdW ag _ | .d2cSetW ag _ | .d2cSetR ag | .d2cClrW ag _ | .d2cClrR ag
  | .d2cEnR ag | .d2cEnW ag _ | .d2cStatR ag | .d2cStatW ag _ | .bufR ag _ _ | .bufW ag _ _ _ => mayAccess ag s
  | .dmxStart => s.initDone = true ∧ s.dmxState = .idle ∧ (irqCpu s = true ∨ s.draws.spuriousTrigger = true)
  | .dmxClear => ∃ n, s.dmxState = .clearing n
  | .dmxSpurious => s.dmxState = .dispatch ∧ s.dmxValid = false
  | .dmxTxack => s.dmxState = .dispatch ∧ s.dmxValid = true ∧ ∃ c : TxCh, s.dmxIdx.val = c.val + 8 ∧ s.bound[c.val] = true
  | .dmxTxackUnbound =>
    s.dmxState = .dispatch ∧ s.dmxValid = true ∧ ∃ c : TxCh, s.dmxIdx.val = c.val + 8 ∧ s.bound[c.val] = false
  | .dmxRxDispatch =>
    s.dmxState = .dispatch ∧ s.dmxValid = true ∧ ∃ r : RxCh, s.dmxIdx.val = r.val ∧ s.bound[r.val + 8] = true
  | .dmxRxRead => ∃ k, s.dmxState = .rxCopy k
  | .dmxRxCommit => s.dmxState = .rxCommit
  | .dmxRearm => s.dmxState = .rearm
  | .dmxRxUnbound =>
    s.dmxState = .dispatch ∧ s.dmxValid = true ∧ ∃ r : RxCh, s.dmxIdx.val = r.val ∧ s.bound[r.val + 8] = false
  | .txGrant c => s.txGrant = none ∧ s.tx[c].state = .sending ∧ s.tx[c].word = 0
  | .txWrite => ∃ c : TxCh, s.txGrant = some c ∧ s.tx[c].word < 8
  | .txSet => ∃ c : TxCh, s.txGrant = some c ∧ s.tx[c].word = 8
  | .txTimeout c => s.tx[c].state = .waitAck ∧ s.tx[c].elapsed ≥ s.cfg.tSendTimeout
  | .waitConsume p =>
    ∃ (x : Port) (r : RxCh) (t : Nat), s.ports[p]? = some x ∧ x.state = .waiting r t ∧ s.rx[r].readySync = true
  | .waitTimeout p =>
    ∃ (x : Port) (r : RxCh) (t : Nat), s.ports[p]? = some x ∧ x.state = .waiting r t ∧ t ≠ 0 ∧ x.elapsed ≥ t
  | .sync r => s.rx[r].readySync ≠ s.rx[r].ready
  | .tick => True
  | .init => s.initDone = false
  | .reset => True

/-! ## Runs -/

/-- Whether a result is a step taken. -/
def isNext (o : Result) : Bool :=
  match o with
  | .next _ => true
  | .fault _ => false
  | .refused _ => false

/-- The instruction that a slot's step takes, none where the slot is passed over. -/
def taken (sl : Slot) (s : State) : Option Instr :=
  match decode s.cfg sl.proposal with
  | .ok i => if standsAlone i && isNext (exec i (loadSlot sl s)) then some i else none
  | .error _ => none

/-- An infinite run: `σ n` is the state after `n` slots of the schedule `sched`, which the environment chooses freely (R12).
A run of `step` is one whose schedule is the machine's own. -/
def IsRun (sched : Nat → Slot) (σ : Nat → State) : Prop := ∀ n, stepOn (sched n) (σ n) = .next (σ (n + 1))

/-- Step `n` of the run takes the instruction `i`. -/
def Takes (sched : Nat → Slot) (σ : Nat → State) (n : Nat) (i : Instr) : Prop := taken (sched n) (σ n) = some i

/-- How many of the `k` steps from step `n` on are TICKs (R320): the only measure of time (R13). -/
def ticks (sched : Nat → Slot) (σ : Nat → State) (n k : Nat) : Nat :=
  match k with
  | 0 => 0
  | k + 1 => ticks sched σ n k + if taken (sched (n + k)) (σ (n + k)) = some .tick then 1 else 0

/-! ## Fairness -/

/-- The steps of the block (R13): those of the DEMUX, TXENG, SYNC, TIMEBASE and INIT agents, and WAIT_CONSUME and
WAIT_TIMEOUT of the ports. RESET, accesses and commands are the environment's. -/
def isBlockStep (i : Instr) : Bool :=
  i.isEvent && match agentOf i with
    | .demux | .txeng | .port _ | .sync | .timebase | .init => true
    | .peer | .environment => false

/-- A step of the block is enabled without a draw of the environment: fairness does not apply to a DMX_START taken through
`spurious_trigger` (R13), and no other step of the block is enabled by a draw. -/
def BlockEnabled (i : Instr) (s : State) : Prop := isBlockStep i = true ∧ Enabled i { s with draws := noDraws }

/-- A fair run (log 16). Weak fairness (R13): every step of the block that stays enabled is eventually taken. Strong fairness
(R192): a channel that can be granted again and again is eventually granted. -/
structure FairRun (sched : Nat → Slot) (σ : Nat → State) : Prop where
  run : IsRun sched σ
  weak : ∀ (i : Instr) (n : Nat), (∀ m, n ≤ m → BlockEnabled i (σ m)) → ∃ m, n ≤ m ∧ Takes sched σ m i
  strong : ∀ (c : TxCh) (n : Nat), (∀ m, n ≤ m → ∃ k, m ≤ k ∧ Enabled (.txGrant c) (σ k)) →
    ∃ m, n ≤ m ∧ Takes sched σ m (.txGrant c)

end Sys2Proof.Machine
end

