-- ==== Sys2Proof/Safety.lean ====
section
/-! DEFINITION. The terms claims use: the invariants of R44 and the model's own, the remaining steps of an invocation
(R153), a run of given steps, the records and accesses of each step, and the state after a command's answer. -/

namespace Sys2Proof.Machine

/-! ## Invariants -/

/-- One entry per port, and one listener bit per port and RX channel (R39, R41). -/
def InvShape (s : State) : Prop :=
  s.ports.length = s.cfg.numPorts ∧ ∀ r : RxCh, s.rx[r].listeners.length = s.cfg.numPorts

/-- The memory keeps its canonical form and holds buffer bytes only (R63). -/
def InvMemory (s : State) : Prop := Memory.wf s.mem ∧ ∀ x ∈ s.mem, inBufWindow s.cfg x.1 = true

/-- R44 item 1. -/
def InvReadySync (s : State) : Prop := ∀ r : RxCh, s.rx[r].readySync = true → s.rx[r].ready = true

/-- R44 item 2. -/
def InvGrant (s : State) : Prop := ∀ c : TxCh, s.txGrant = some c → s.tx[c].state = .sending

/-- R44 item 3. -/
def InvWord (s : State) : Prop :=
  ∀ c : TxCh, s.tx[c].state = .sending → s.txGrant ≠ some c → s.tx[c].word = 0

/-- R44 item 4. -/
def InvSendPort (s : State) : Prop :=
  ∀ (p : Nat) (c : TxCh),
    (∃ x, s.ports[p]? = some x ∧ x.state = .sendPending c) ↔ (s.tx[c].state ≠ .idle ∧ s.tx[c].port = p)

/-- R44 item 5. -/
def InvBusyBound (s : State) : Prop := ∀ c : TxCh, s.tx[c].state ≠ .idle → s.bound[c.val] = true

/-- R44 item 6; that the channel is an RX channel is in its type. -/
def InvWaitBound (s : State) : Prop :=
  ∀ (p : Nat) (x : Port) (r : RxCh) (t : Nat),
    s.ports[p]? = some x → x.state = .waiting r t → s.bound[r.val + 8] = true

/-- R44 item 7: before INIT every item of R34 to R41 has its reset value. -/
def InvBeforeInit (s : State) : Prop :=
  s.initDone = false →
    s.bound = Vector.replicate 16 false ∧ s.tx = Vector.replicate 8 TxChan.atReset ∧ s.txGrant = none ∧
      s.rx = Vector.replicate 8 (RxChan.atReset s.cfg.numPorts) ∧ s.dmxState = .idle ∧ s.dmxValid = false ∧
      s.dmxIdx = 0 ∧ s.dmxMask = 0 ∧ s.dmxWords = Vector.replicate 8 0 ∧
      s.ports = List.replicate s.cfg.numPorts Port.atReset

/-- The ranges of R35 and R41. -/
def InvRanges (s : State) : Prop :=
  (∀ c : TxCh, s.tx[c].word ≤ 8 ∧ s.tx[c].elapsed ≤ s.cfg.tSendTimeout) ∧
    ∀ (p : Nat) (x : Port), s.ports[p]? = some x →
      x.elapsed ≤ 65535 ∧ ∀ (r : RxCh) (t : Nat), x.state = .waiting r t → t ≤ 65535

/-- What an invocation has saved (R155): the mask belongs to the decoded position, and a copy is of a bound RX
channel (R160). -/
def InvDemux (s : State) : Prop :=
  (s.dmxState ≠ .idle → s.dmxMask = if s.dmxValid then pmask s.dmxIdx else 0) ∧
    ((∃ k, s.dmxState = .rxCopy k) ∨ s.dmxState = .rxCommit ∨ s.dmxState = .rearm →
      s.dmxValid = true ∧ ∃ r : RxCh, s.dmxIdx.val = r.val ∧ s.bound[r.val + 8] = true)

/-- In CLEARING(n) the last n register accesses of the DEMUX are writes of the clear mask to D2C_CLR (R156). -/
def InvClearRun (s : State) : Prop :=
  ∀ n, s.dmxState = .clearing n →
    List.replicate n.val (Record.mmio .demux .write (s.cfg.regBase + 0x18) s.dmxMask) <:+
      regAccesses s.cfg .demux s.history

/-- The invariants of R44 and the model's own, together. -/
structure Inv (s : State) : Prop where
  shape : InvShape s
  memory : InvMemory s
  readySync : InvReadySync s
  grant : InvGrant s
  word : InvWord s
  sendPort : InvSendPort s
  busyBound : InvBusyBound s
  waitBound : InvWaitBound s
  beforeInit : InvBeforeInit s
  ranges : InvRanges s
  demux : InvDemux s
  clearRun : InvClearRun s

/-! ## Invocations and runs -/

/-- The DEMUX events that may follow DMX_START. -/
def demuxSteps : List Instr :=
  [.dmxClear, .dmxSpurious, .dmxTxack, .dmxTxackUnbound, .dmxRxDispatch, .dmxRxRead, .dmxRxCommit, .dmxRearm,
    .dmxRxUnbound]

/-- A bound on the DEMUX steps an invocation still has to take (R153). -/
def stepsLeft : DmxState → Nat
  | .idle => 0
  | .clearing n => (clearRetryCount - n.val) + 11
  | .dispatch => 11
  | .rxCopy k => (8 - k.val) + 2
  | .rxCommit => 2
  | .rearm => 1

/-- Run the given steps one after another, stopping at the first that has no step. -/
def runSteps : List Instr → State → Result
  | [], s => .next s
  | i :: rest, s =>
    match exec i s with
    | .next t => runSteps rest t
    | .fault f => .fault f
    | .refused r => .refused r

/-- The same with the draws offered to each step (R11). -/
def runWith : List (Instr × Draws) → State → Result
  | [], s => .next s
  | (i, d) :: rest, s =>
    match exec i { s with draws := d } with
    | .next t => runWith rest t
    | .fault f => .fault f
    | .refused r => .refused r

/-! ## Answers -/

/-- The CMD record of a command (R43, R97). -/
def cmdRecord (p : Nat) (i : Instr) : Record := .cmd p (encodeWord i) (commandPayload i)

/-- The RESP record of an answer (R43, R96). -/
def respRecord (p : Nat) (code : StatusCode) (ready : Bool) (data : Option Msg) : Record :=
  .resp p (respWord code ready) data

/-- The state in which a command was answered at once and changed nothing but its port and the history (R96, R97). -/
def answered (p : Nat) (i : Instr) (code : StatusCode) (ready : Bool) (data : Option Msg) (s : State) : State :=
  { s with
    ports := s.ports.set p Port.atReset
    history := s.history ++ [cmdRecord p i, respRecord p code ready data] }

/-- `i` is a command that port `p` issues. -/
def isCommandOf (p : Nat) (i : Instr) : Prop := agentOf i = .port p ∧ i.isEvent = false

/-- The state in which the only effect of a step is the record of a read of the register window (R69). -/
def regReadBy (ag : Issuer) (offset : Nat) (v : Word) (s : State) : State :=
  { s with history := s.history ++ [.mmio ag .read (s.cfg.regBase + offset) v] }

/-- The record of a write of the register window. -/
def regWriteRecord (ag : Issuer) (offset : Nat) (v : Word) (s : State) : Record :=
  .mmio ag .write (s.cfg.regBase + offset) v

/-- The law of R131 for a write of `v` at a clear register's offset: it takes if the draw says so, and always when the
two register accesses of the same agent before it are the same write. -/
def takesByLaw (ag : Issuer) (offset : Nat) (v : Word) (s : State) : Prop :=
  s.draws.clrTakes = true ∨
    [regWriteRecord ag offset v s, regWriteRecord ag offset v s] <:+ regAccesses s.cfg ag s.history

/-- The address of word `k` of the buffer with global channel index `i` (R33, R67). -/
def wordAddr (s : State) (i k : Nat) : Nat := s.cfg.bufBase + 32 * i + 4 * k

/-- A port after CANCEL's loop on RX channel `r` (R226). -/
def endWait (r : RxCh) (x : Port) : Port :=
  match x.state with
  | .waiting r' _ => if r' = r then Port.atReset else x
  | .free => x
  | .sendPending _ => x

/-- Whether a record is a response on port `p` (R43). -/
def isResponseOf (p : Nat) (e : Record) : Bool :=
  match e with
  | .resp q _ _ => decide (q = p)
  | .mmio .. | .cmd .. | .report .. | .notify .. => false

/-! ## Accesses -/

/-- The agent, direction and address of an MMIO record (R43). -/
def accessOf (e : Record) : Option (Issuer × Dir × Nat) :=
  match e with
  | .mmio ag dir addr _ => some (ag, dir, addr)
  | .cmd .. | .resp .. | .report .. | .notify .. => none

/-- The MMIO accesses of a step, as its rule gives them: none of a command, one of an access (R121 to R141), and those of
the block's own steps (R155, R156, R161, R163, R193, R194, R342). -/
def accesses (i : Instr) (s : State) : List (Issuer × Dir × Nat) :=
  match i with
  | .bind .. | .send .. | .receiveNb .. | .receiveB .. | .pollReady .. | .registerListener .. | .cancel .. | .illegal .. => []
  | .c2dEnR ag => [(ag, .read, s.cfg.regBase + 0x00)]
  | .c2dEnW ag _ => [(ag, .write, s.cfg.regBase + 0x00)]
  | .c2dSetR ag => [(ag, .read, s.cfg.regBase + 0x04)]
  | .c2dSetW ag _ => [(ag, .write, s.cfg.regBase + 0x04)]
  | .c2dClrR ag => [(ag, .read, s.cfg.regBase + 0x08)]
  | .c2dClrW ag _ => [(ag, .write, s.cfg.regBase + 0x08)]
  | .c2dStatR ag => [(ag, .read, s.cfg.regBase + 0x0c)]
  | .c2dStatW ag _ => [(ag, .write, s.cfg.regBase + 0x0c)]
  | .rsvdR ag => [(ag, .read, s.cfg.regBase + 0x10)]
  | .rsvdW ag _ => [(ag, .write, s.cfg.regBase + 0x10)]
  | .d2cSetR ag => [(ag, .read, s.cfg.regBase + 0x14)]
  | .d2cSetW ag _ => [(ag, .write, s.cfg.regBase + 0x14)]
  | .d2cClrR ag => [(ag, .read, s.cfg.regBase + 0x18)]
  | .d2cClrW ag _ => [(ag, .write, s.cfg.regBase + 0x18)]
  | .d2cEnR ag => [(ag, .read, s.cfg.regBase + 0x1c)]
  | .d2cEnW ag _ => [(ag, .write, s.cfg.regBase + 0x1c)]
  | .d2cStatR ag => [(ag, .read, s.cfg.regBase + 0x20)]
  | .d2cStatW ag _ => [(ag, .write, s.cfg.regBase + 0x20)]
  | .bufR ag b k => [(ag, .read, wordAddr s b.val k.val)]
  | .bufW ag b k _ => [(ag, .write, wordAddr s b.val k.val)]
  | .dmxStart => [(.demux, .read, s.cfg.regBase + 0x20)]
  | .dmxClear => [(.demux, .write, s.cfg.regBase + 0x18)]
  | .dmxRxRead =>
    match s.dmxState with
    | .rxCopy k => [(.demux, .read, wordAddr s (s.dmxIdx.val + 8) k.val)]
    | .idle | .clearing _ | .dispatch | .rxCommit | .rearm => []
  | .dmxRearm => [(.demux, .write, s.cfg.regBase + 0x04)]
  | .txWrite =>
    match s.txGrant with
    | some c => [(.txeng, .write, wordAddr s c.val s.tx[c].word)]
    | none => []
  | .txSet => [(.txeng, .write, s.cfg.regBase + 0x04)]
  | .init => [(.init, .write, s.cfg.regBase + 0x1c)]
  | .dmxSpurious | .dmxTxack | .dmxTxackUnbound | .dmxRxDispatch | .dmxRxCommit | .dmxRxUnbound | .txGrant _
  | .txTimeout _ | .waitConsume _ | .waitTimeout _ | .sync _ | .tick | .reset => []

/-! ## Acknowledgment -/

/-- No TX-ack of channel `c` is latched, and no invocation in progress is for one (R31, R158). -/
def noAck (c : TxCh) (s : State) : Prop :=
  (s.d2cStat >>> (2 * (c.val + 8))) &&& 0x3 = 0 ∧
    (s.dmxState ≠ .idle → s.dmxValid = true → s.dmxIdx.val ≠ c.val + 8)

end Sys2Proof.Machine
end

