-- ==== Sys2Proof/Certificates/Slice0/Obligations.lean ====
section
/-! DEFINITION. The statements for the provers, from the numbered rules of spec/. OBLIGATIONS.json lists them. -/

open Sys2Proof Sys2Proof.Machine

/-! ## Encoding -/

/-- R94, R99, R100: what the encoder presents decodes to the instruction it came from, for every well-formed instruction
of every format and every legal configuration. -/
def Obligations.DecodeOfEncodeIsTheInstruction : Prop :=
  ∀ (c : Config) (i : Instr), configLegal c = true → i.wf = true → decode c (encode c i) = .ok i

/-- R94 with R93: each word decodes as its fields say, a word is illegal exactly when it breaks a field constraint, and a
decoded word re-encodes to itself. -/
def Obligations.CommandWordsDecodeByTheirFields : Prop :=
  ∀ (p : Nat) (w : Word) (m : Msg),
    (w.extractLsb' 0 4 = 1 → w.extractLsb' 12 20 = 0 → decodeCommand p w m = .bind p (w.extractLsb' 4 8).toNat) ∧
    (w.extractLsb' 0 4 = 2 → w.extractLsb' 12 20 = 0 → decodeCommand p w m = .send p (w.extractLsb' 4 8).toNat m) ∧
    (w.extractLsb' 0 4 = 3 → w.extractLsb' 12 20 = 0 → decodeCommand p w m = .receiveNb p (w.extractLsb' 4 8).toNat) ∧
    (w.extractLsb' 0 4 = 3 → w.extractLsb' 12 4 = 1 →
      decodeCommand p w m = .receiveB p (w.extractLsb' 4 8).toNat (w.extractLsb' 16 16).toNat) ∧
    (w.extractLsb' 0 4 = 4 → w.extractLsb' 12 20 = 0 → decodeCommand p w m = .pollReady p (w.extractLsb' 4 8).toNat) ∧
    (w.extractLsb' 0 4 = 5 → w.extractLsb' 12 20 = 0 →
      decodeCommand p w m = .registerListener p (w.extractLsb' 4 8).toNat) ∧
    (w.extractLsb' 0 4 = 6 → w.extractLsb' 12 20 = 0 → decodeCommand p w m = .cancel p (w.extractLsb' 4 8).toNat) ∧
    (legalWord w = false ↔ ∃ payload, decodeCommand p w m = .illegal p w payload) ∧
    encodeWord (decodeCommand p w m) = w

/-- V4 of 95_test_vectors.md: words written out from R91 and R102 decode to the instructions they stand for. -/
def Obligations.WrittenOutWordsDecode : Prop :=
  ∀ m : Msg,
    decodeCommand 0 0x00000051 m = .bind 0 5 ∧ decodeCommand 0 0x00000FF2 m = .send 0 255 m ∧
    decodeCommand 1 0x000000D3 m = .receiveNb 1 13 ∧ decodeCommand 1 0x006410D3 m = .receiveB 1 13 100 ∧
    decodeCommand 2 0x000000D4 m = .pollReady 2 13 ∧ decodeCommand 2 0x000000D5 m = .registerListener 2 13 ∧
    decodeCommand 3 0x000000D6 m = .cancel 3 13 ∧ decodeCommand 0 0x000020D3 m = .illegal 0 0x000020D3 none ∧
    decodeCommand 0 0x000100D3 m = .illegal 0 0x000100D3 none

/-- R95, R101: the bytes of a command decode to it and leave the bytes after it. That the word comes first in a byte string
is the model's choice (log 11). -/
def Obligations.CommandBytesDecodeToTheCommand : Prop :=
  ∀ (p : Nat) (i : Instr) (rest : List Byte), isCommandOf p i → i.wf = true →
    decodeBytes p (encodeBytes i ++ rest) = .ok (i, rest)

/-- R142, R120: an access is rejected exactly when its width is not 32 bits, its address is not a multiple of 4, or it lies
in neither window. That the decoder rejects it is the model's form of "no step" (log 7). -/
def Obligations.MalformedAccessesHaveNoStep : Prop :=
  ∀ (c : Config) (ag : Issuer) (dir : Dir) (width addr : Nat) (data : Word), configLegal c = true →
    ((∃ e, decodeAccess c ag dir width addr data = .error e) ↔
      (width ≠ 32 ∨ addr % 4 ≠ 0 ∨
        ¬ ((c.regBase ≤ addr ∧ addr < c.regBase + 0x24) ∨ (c.bufBase ≤ addr ∧ addr < c.bufBase + 512))))

/-- R142: a peer whose next access has no step is stuck and changes nothing else, and a stuck peer takes no access. That
the stuck peer is a field of the state is the model's choice (log 7). -/
def Obligations.PeerWithoutAStepIsStuck : Prop :=
  (∀ (s : State) (dir : Dir) (width addr : Nat) (data : Word) (e : Reject), configLegal s.cfg = true →
    (nextSlot s).proposal = .access .peer dir width addr data →
    decodeAccess s.cfg .peer dir width addr data = .error e →
    step s = .next { takeSlot s with peerStuck := true }) ∧
  (∀ (s : State) (i : Instr), agentOf i = .peer → s.peerStuck = true → exec i s = .fault .peerStuck)

/-! ## Channels, masks and lines -/

/-- R143: the record of every channel, and no record from 16 on. -/
def Obligations.ChannelTableRecords : Prop :=
  ∀ (c : Config) (ch : Nat),
    (16 ≤ ch → lookup c ch = none) ∧
    (ch < 16 → ∃ e, lookup c ch = some e ∧ e.index.val = ch ∧ (e.dir = .tx ↔ ch < 8) ∧ (e.bank = .c2d ↔ ch < 8) ∧
      e.buffer = c.bufBase + 32 * ch ∧ e.notifyPos.val = ch ∧ e.eventPos.val = if ch < 8 then ch + 8 else ch - 8)

/-- R144: the 16 buffers and the register window do not overlap. -/
def Obligations.BuffersAreDisjoint : Prop :=
  ∀ (c : Config) (i j : Nat) (e f : ChanRecord) (a : Nat), configLegal c = true →
    lookup c i = some e → lookup c j = some f → e.buffer ≤ a → a < e.buffer + 32 →
    (i ≠ j → ¬ (f.buffer ≤ a ∧ a < f.buffer + 32)) ∧ ¬ (c.regBase ≤ a ∧ a < c.regBase + 0x24)

/-- R150: the lowest fired pair, nothing when no pair has fired, and the single-cycle form. -/
def Obligations.PriorityEncoderReturnsLowestFiredPair : Prop :=
  ∀ s : Word,
    ((prioEnc s).1 = false ↔ ∀ j : Fin 16, (s >>> (2 * j.val)) &&& 0x3 = 0) ∧
    ((prioEnc s).1 = false → (prioEnc s).2 = 0) ∧
    ((prioEnc s).1 = true →
      (s >>> (2 * (prioEnc s).2.val)) &&& 0x3 ≠ 0 ∧
      ∀ j : Fin 16, j < (prioEnc s).2 → (s >>> (2 * j.val)) &&& 0x3 = 0) ∧
    ((prioEnc s).1 = true ↔ prioWord s ≠ 0) ∧
    ((prioEnc s).1 = true → (prioEnc s).2.val = trailingZeros (prioWord s) / 2)

/-- R32: a line is raised exactly when some bit is set both in the status and in the enable register of its bank. -/
def Obligations.InterruptLinesAreEnabledStatus : Prop :=
  ∀ s : State,
    (irqCpu s = true ↔ ∃ b, s.d2cStat.getLsbD b = true ∧ s.d2cEn.getLsbD b = true) ∧
    (irqDsp s = true ↔ ∃ b, s.c2dStat.getLsbD b = true ∧ s.c2dEn.getLsbD b = true)

/-! ## The register file and the buffers -/

/-- R121, R124, R126, R127, R132, R133, R134, R136, R138: what each read returns; a read only leaves its record. -/
def Obligations.RegisterReadsReturnTheirValue : Prop :=
  ∀ (ag : Issuer) (s : State), mayAccess ag s →
    exec (.c2dEnR ag) s = .next (regReadBy ag 0x00 s.c2dEn s) ∧
    exec (.c2dSetR ag) s = .next (regReadBy ag 0x04 0 s) ∧
    exec (.c2dClrR ag) s = .next (regReadBy ag 0x08 0 s) ∧
    exec (.c2dStatR ag) s = .next (regReadBy ag 0x0c s.c2dStat s) ∧
    exec (.rsvdR ag) s = .next (regReadBy ag 0x10 0 s) ∧
    exec (.d2cSetR ag) s = .next (regReadBy ag 0x14 0 s) ∧
    exec (.d2cClrR ag) s = .next (regReadBy ag 0x18 0 s) ∧
    exec (.d2cEnR ag) s = .next (regReadBy ag 0x1c s.d2cEn s) ∧
    exec (.d2cStatR ag) s = .next (regReadBy ag 0x20 s.d2cStat s)

/-- R122, R135, R128, R137, R139: the enable registers store, the status registers and offset 0x10 ignore the data. -/
def Obligations.EnableStatusAndReservedWrites : Prop :=
  ∀ (ag : Issuer) (v : Word) (s : State), mayAccess ag s →
    exec (.c2dEnW ag v) s = .next { s with c2dEn := v, history := s.history ++ [regWriteRecord ag 0x00 v s] } ∧
    exec (.d2cEnW ag v) s = .next { s with d2cEn := v, history := s.history ++ [regWriteRecord ag 0x1c v s] } ∧
    exec (.c2dStatW ag v) s = .next { s with history := s.history ++ [regWriteRecord ag 0x0c v s] } ∧
    exec (.d2cStatW ag v) s = .next { s with history := s.history ++ [regWriteRecord ag 0x20 v s] } ∧
    exec (.rsvdW ag v) s = .next { s with history := s.history ++ [regWriteRecord ag 0x10 v s] }

/-- R123, R129: a set write ORs its data into the status register of its bank. The spec supplies the write-1-to-set reading
"from general knowledge, not in source" (log 18). -/
def Obligations.SetWritesOrIntoStatus : Prop :=
  ∀ (ag : Issuer) (v : Word) (s : State), mayAccess ag s →
    exec (.c2dSetW ag v) s =
      .next { s with c2dStat := s.c2dStat ||| v, history := s.history ++ [regWriteRecord ag 0x04 v s] } ∧
    exec (.d2cSetW ag v) s =
      .next { s with d2cStat := s.d2cStat ||| v, history := s.history ++ [regWriteRecord ag 0x14 v s] }

/-- R125, R130, R131: a clear write that takes clears its data's bits, one that does not take leaves them. The spec supplies
the write-1-to-clear reading "from general knowledge, not in source" (log 18). -/
def Obligations.ClearWritesFollowTheDrawAndTheRun : Prop :=
  ∀ (ag : Issuer) (v : Word) (s : State), mayAccess ag s →
    (takesByLaw ag 0x08 v s → exec (.c2dClrW ag v) s =
      .next { s with c2dStat := s.c2dStat &&& ~~~v, history := s.history ++ [regWriteRecord ag 0x08 v s] }) ∧
    (¬ takesByLaw ag 0x08 v s → exec (.c2dClrW ag v) s =
      .next { s with history := s.history ++ [regWriteRecord ag 0x08 v s] }) ∧
    (takesByLaw ag 0x18 v s → exec (.d2cClrW ag v) s =
      .next { s with d2cStat := s.d2cStat &&& ~~~v, history := s.history ++ [regWriteRecord ag 0x18 v s] }) ∧
    (¬ takesByLaw ag 0x18 v s → exec (.d2cClrW ag v) s =
      .next { s with history := s.history ++ [regWriteRecord ag 0x18 v s] })

/-- R131: three equal clear writes of one agent in a row, each with draws of its own, leave the run's bits clear and every other
bit as before; one or two such writes leave each bit of the run that was set either set or clear, and touch no other bit.
Write-1-to-clear: log 18; that the run is read from the history: log 8. -/
def Obligations.CompleteClearRunDeassertsTheLatch : Prop :=
  ∀ (ag : Issuer) (v : Word) (s : State), mayAccess ag s →
    (∀ d1 d2 d3 : Draws,
      runWith [(.d2cClrW ag v, d1), (.d2cClrW ag v, d2), (.d2cClrW ag v, d3)] s = .next { s with
        d2cStat := s.d2cStat &&& ~~~v
        draws := d3
        history := s.history ++ List.replicate 3 (regWriteRecord ag 0x18 v s) } ∧
      runWith [(.c2dClrW ag v, d1), (.c2dClrW ag v, d2), (.c2dClrW ag v, d3)] s = .next { s with
        c2dStat := s.c2dStat &&& ~~~v
        draws := d3
        history := s.history ++ List.replicate 3 (regWriteRecord ag 0x08 v s) }) ∧
    ∀ (ds : List Draws) (d : Draws), ds.length < 2 →
      (∃ w : Word, runWith ((ds ++ [d]).map fun x => (Instr.d2cClrW ag v, x)) s = .next { s with
          d2cStat := w
          draws := d
          history := s.history ++ List.replicate (ds.length + 1) (regWriteRecord ag 0x18 v s) } ∧
        ∀ b : Nat, (v.getLsbD b = false → w.getLsbD b = s.d2cStat.getLsbD b) ∧
          (w.getLsbD b = true → s.d2cStat.getLsbD b = true)) ∧
      ∃ w : Word, runWith ((ds ++ [d]).map fun x => (Instr.c2dClrW ag v, x)) s = .next { s with
          c2dStat := w
          draws := d
          history := s.history ++ List.replicate (ds.length + 1) (regWriteRecord ag 0x08 v s) } ∧
        ∀ b : Nat, (v.getLsbD b = false → w.getLsbD b = s.c2dStat.getLsbD b) ∧
          (w.getLsbD b = true → s.c2dStat.getLsbD b = true)

/-- R140, R64: a buffer read returns the word whose four bytes, lowest address in the lowest bits, are those of the buffer,
and only leaves its record. The byte order is the spec's "from general knowledge, not in source" (log 18). -/
def Obligations.BufferReadReturnsTheWord : Prop :=
  ∀ (ag : Issuer) (i : Fin 16) (k : Fin 8) (s : State), mayAccess ag s →
    ∃ w : Word, exec (.bufR ag i k) s =
        .next { s with history := s.history ++ [.mmio ag .read (wordAddr s i.val k.val) w] } ∧
      ∀ j : Nat, j < 4 → w.extractLsb' (8 * j) 8 = readByte s (wordAddr s i.val k.val + j)

/-- R141, R64: a buffer write stores the four bytes of its word at its four addresses; every other byte reads as before and
nothing else changes but the history. Byte order: log 18. -/
def Obligations.BufferWriteStoresFourBytes : Prop :=
  ∀ (ag : Issuer) (i : Fin 16) (k : Fin 8) (v : Word) (s : State), mayAccess ag s →
    ∃ t, exec (.bufW ag i k v) s = .next t ∧
      { t with mem := s.mem } = { s with history := s.history ++ [.mmio ag .write (wordAddr s i.val k.val) v] } ∧
      (∀ j : Nat, j < 4 → readByte t (wordAddr s i.val k.val + j) = v.extractLsb' (8 * j) 8) ∧
      ∀ a : Nat, ¬ (wordAddr s i.val k.val ≤ a ∧ a < wordAddr s i.val k.val + 4) → readByte t a = readByte s a

/-! ## Commands -/

/-- R145: the three outcomes of BIND. -/
def Obligations.BindOutcomes : Prop :=
  ∀ (p ch : Nat) (s : State), mayIssue p s →
    (16 ≤ ch → exec (.bind p ch) s = .next (answered p (.bind p ch) .invalidChannel false none s)) ∧
    ∀ h : ch < 16,
      (s.bound[ch] = true → exec (.bind p ch) s = .next (answered p (.bind p ch) .channelBusy false none s)) ∧
      (s.bound[ch] = false → exec (.bind p ch) s =
        .next { answered p (.bind p ch) .ok false none s with bound := s.bound.set ch true h })

/-- R190: the outcomes of SEND in the order of R301. -/
def Obligations.SendOutcomes : Prop :=
  ∀ (p ch : Nat) (m : Msg) (s : State), mayIssue p s →
    (8 ≤ ch → exec (.send p ch m) s = .next (answered p (.send p ch m) .invalidChannel false none s)) ∧
    ∀ c : TxCh, c.val = ch →
      (s.bound[c.val] = false →
        exec (.send p ch m) s = .next (answered p (.send p ch m) .channelUnbound false none s)) ∧
      (s.bound[c.val] = true → s.tx[c].state ≠ .idle →
        exec (.send p ch m) s = .next (answered p (.send p ch m) .channelBusy false none s)) ∧
      (s.bound[c.val] = true → s.tx[c].state = .idle → s.draws.xferErr = true →
        exec (.send p ch m) s = .next (answered p (.send p ch m) .copyFault false none s)) ∧
      (s.bound[c.val] = true → s.tx[c].state = .idle → s.draws.xferErr = false →
        exec (.send p ch m) s = .next { s with
          tx := s.tx.set c.val { state := .sending, port := p, payload := m, word := 0, elapsed := 0 } c.isLt
          ports := s.ports.modify p fun x => { x with state := .sendPending c }
          history := s.history ++ [cmdRecord p (.send p ch m)] })

/-- R220 with R224: the outcomes of RECEIVE.NB. -/
def Obligations.ReceiveNbOutcomes : Prop :=
  ∀ (p ch : Nat) (s : State), mayIssue p s →
    (ch < 8 ∨ 16 ≤ ch → exec (.receiveNb p ch) s = .next (answered p (.receiveNb p ch) .invalidChannel false none s)) ∧
    ∀ r : RxCh, r.val + 8 = ch →
      (s.bound[r.val + 8] = false →
        exec (.receiveNb p ch) s = .next (answered p (.receiveNb p ch) .channelUnbound false none s)) ∧
      (s.bound[r.val + 8] = true → s.rx[r].ready = false →
        exec (.receiveNb p ch) s = .next (answered p (.receiveNb p ch) .empty false none s)) ∧
      (s.bound[r.val + 8] = true → s.rx[r].ready = true → s.draws.xferErr = true →
        exec (.receiveNb p ch) s = .next (answered p (.receiveNb p ch) .copyFault false none s)) ∧
      (s.bound[r.val + 8] = true → s.rx[r].ready = true → s.draws.xferErr = false →
        exec (.receiveNb p ch) s =
          .next { answered p (.receiveNb p ch) .ok false (some s.rx[r].buf) s with
            rx := s.rx.set r.val { s.rx[r] with ready := false, readySync := false } r.isLt })

/-- R221 with R224: the outcomes of RECEIVE.B; with no message the port waits and gets no response. -/
def Obligations.ReceiveBOutcomes : Prop :=
  ∀ (p ch b : Nat) (s : State), mayIssue p s →
    (ch < 8 ∨ 16 ≤ ch →
      exec (.receiveB p ch b) s = .next (answered p (.receiveB p ch b) .invalidChannel false none s)) ∧
    ∀ r : RxCh, r.val + 8 = ch →
      (s.bound[r.val + 8] = false →
        exec (.receiveB p ch b) s = .next (answered p (.receiveB p ch b) .channelUnbound false none s)) ∧
      (s.bound[r.val + 8] = true → s.rx[r].ready = false →
        exec (.receiveB p ch b) s = .next { s with
          ports := s.ports.set p { state := .waiting r b, elapsed := 0 }
          history := s.history ++ [cmdRecord p (.receiveB p ch b)] }) ∧
      (s.bound[r.val + 8] = true → s.rx[r].ready = true → s.draws.xferErr = true →
        exec (.receiveB p ch b) s = .next (answered p (.receiveB p ch b) .copyFault false none s)) ∧
      (s.bound[r.val + 8] = true → s.rx[r].ready = true → s.draws.xferErr = false →
        exec (.receiveB p ch b) s =
          .next { answered p (.receiveB p ch b) .ok false (some s.rx[r].buf) s with
            rx := s.rx.set r.val { s.rx[r] with ready := false, readySync := false } r.isLt })

/-- R226: CANCEL ends every wait on the channel, answering in ascending port order, then answers its issuer. -/
def Obligations.CancelOutcomes : Prop :=
  ∀ (p ch : Nat) (s : State), mayIssue p s → s.ports.length = s.cfg.numPorts →
    (ch < 8 ∨ 16 ≤ ch → exec (.cancel p ch) s = .next (answered p (.cancel p ch) .invalidChannel false none s)) ∧
    ∀ r : RxCh, r.val + 8 = ch →
      exec (.cancel p ch) s = .next { s with
        ports := (s.ports.map (endWait r)).set p Port.atReset
        history := s.history ++ [cmdRecord p (.cancel p ch)] ++
          ((List.range s.cfg.numPorts).filter (waitsOn s r)).map (fun q => respRecord q .cancelled false none) ++
          [respRecord p .ok false none] }

/-- R253: REGISTER_LISTENER adds the issuing port to the listeners of the channel and nothing else. -/
def Obligations.RegisterListenerOutcomes : Prop :=
  ∀ (p ch : Nat) (s : State), mayIssue p s → InvShape s →
    (ch < 8 ∨ 16 ≤ ch →
      exec (.registerListener p ch) s = .next (answered p (.registerListener p ch) .invalidChannel false none s)) ∧
    ∀ r : RxCh, r.val + 8 = ch →
      ∃ t, exec (.registerListener p ch) s = .next t ∧
        { t with rx := s.rx } = answered p (.registerListener p ch) .ok false none s ∧
        (∀ r' : RxCh, { t.rx[r'] with listeners := s.rx[r'].listeners } = s.rx[r']) ∧
        ∀ (r' : RxCh) (q : Nat), isListener t r' q = true ↔ (isListener s r' q = true ∨ (r' = r ∧ q = p))

/-- R254: POLL_READY answers OK with the consumer-domain copy, 0 for an index that is not an RX channel's. -/
def Obligations.PollReadyAnswersTheSynchronizedFlag : Prop :=
  ∀ (p ch : Nat) (s : State), mayIssue p s →
    (ch < 8 ∨ 16 ≤ ch → exec (.pollReady p ch) s = .next (answered p (.pollReady p ch) .ok false none s)) ∧
    ∀ r : RxCh, r.val + 8 = ch →
      exec (.pollReady p ch) s = .next (answered p (.pollReady p ch) .ok s.rx[r].readySync none s)

/-- R98: every illegal word is answered IllegalCommand, with no other effect. -/
def Obligations.IllegalWordsAreAnswered : Prop :=
  ∀ (p : Nat) (w : Word) (payload : Option Msg) (s : State), mayIssue p s →
    exec (.illegal p w payload) s = .next (answered p (.illegal p w payload) .illegalCommand false none s)

/-- R97: a port issues only after INIT and when it is FREE; otherwise the command has no step and the machine only passes
on. That the machine passes on is the model's choice (log 6). -/
def Obligations.CommandsNeedAFreePort : Prop :=
  (∀ (p : Nat) (i : Instr) (s : State), isCommandOf p i → ¬ mayIssue p s → exec i s = .fault .cannotIssue) ∧
  (∀ (p : Nat) (w : Word) (m : Msg) (s : State), configLegal s.cfg = true → (nextSlot s).proposal = .command p w m →
    ¬ mayIssue p s → step s = .next (takeSlot s))

/-! ## The demultiplexer -/

/-- R155: DMX_START reads the raw status word and saves the lowest fired position and its mask. -/
def Obligations.DmxStartSavesTheDecodedPosition : Prop :=
  ∀ s : State, s.initDone = true → s.dmxState = .idle → (irqCpu s = true ∨ s.draws.spuriousTrigger = true) →
    exec .dmxStart s = .next { s with
      dmxValid := (prioEnc s.d2cStat).1
      dmxIdx := (prioEnc s.d2cStat).2
      dmxMask := if (prioEnc s.d2cStat).1 = true then (0x3 : Word) <<< (2 * (prioEnc s.d2cStat).2.val) else 0
      dmxState := .clearing 0
      history := s.history ++ [.mmio .demux .read (s.cfg.regBase + 0x20) s.d2cStat] }

/-- R156 with R130 and R131: each DMX_CLEAR writes the mask to D2C_CLR and counts on. Write-1-to-clear: log 18; that the run is
read from the history: log 8. -/
def Obligations.DmxClearWritesTheMask : Prop :=
  ∀ (s : State) (n : Fin clearRetryCount), s.dmxState = .clearing n →
    ∃ t, exec .dmxClear s = .next t ∧
      { t with dmxState := s.dmxState, d2cStat := s.d2cStat } =
        { s with history := s.history ++ [regWriteRecord .demux 0x18 s.dmxMask s] } ∧
      (n.val = 0 → t.dmxState = .clearing 1) ∧ (n.val = 1 → t.dmxState = .clearing 2) ∧
      (n.val = 2 → t.dmxState = .dispatch) ∧
      (takesByLaw .demux 0x18 s.dmxMask s → t.d2cStat = s.d2cStat &&& ~~~s.dmxMask) ∧
      (¬ takesByLaw .demux 0x18 s.dmxMask s → t.d2cStat = s.d2cStat)

/-- R156: after the third write of an invocation the latch holds no bit of the mask, whatever is drawn and whatever other
agents did meanwhile. InvClearRun is an invariant of the step. Write-1-to-clear: log 18; the run read from the history: log 8. -/
def Obligations.ThirdClearWriteAlwaysTakes : Prop :=
  ∀ s : State, InvClearRun s → s.dmxState = .clearing 2 →
    ∃ t, exec .dmxClear s = .next t ∧ t.dmxState = .dispatch ∧ t.d2cStat = s.d2cStat &&& ~~~s.dmxMask ∧
      t.d2cStat &&& s.dmxMask = 0

/-- R157: an invocation that found no fired pair is reported and ends; no channel changes. -/
def Obligations.SpuriousInvocationIsReported : Prop :=
  ∀ s : State, s.dmxState = .dispatch → s.dmxValid = false →
    exec .dmxSpurious s =
      .next { s with dmxState := .idle, history := s.history ++ [.report .spuriousInterrupt 0] }

/-- R158: an ack ends the send that waits for it with OK; with none waiting it is reported stale. -/
def Obligations.TxAckEndsTheWaitingSend : Prop :=
  ∀ (s : State) (c : TxCh), s.dmxState = .dispatch → s.dmxValid = true → s.dmxIdx.val = c.val + 8 →
    s.bound[c.val] = true →
    (s.tx[c].state = .waitAck → exec .dmxTxack s = .next { s with
      ports := s.ports.set s.tx[c].port Port.atReset
      tx := s.tx.set c.val { s.tx[c] with state := .idle, elapsed := 0 } c.isLt
      dmxState := .idle
      history := s.history ++ [respRecord s.tx[c].port .ok false none] }) ∧
    (s.tx[c].state ≠ .waitAck → exec .dmxTxack s =
      .next { s with dmxState := .idle, history := s.history ++ [.report .staleAck c.val] })

/-- R159, R164: an event of an unbound channel is reported and dropped: no copy, no ready, no re-arm. -/
def Obligations.UnboundEventsAreReportedAndDropped : Prop :=
  ∀ s : State, s.dmxState = .dispatch → s.dmxValid = true →
    (∀ c : TxCh, s.dmxIdx.val = c.val + 8 → s.bound[c.val] = false →
      exec .dmxTxackUnbound s =
        .next { s with dmxState := .idle, history := s.history ++ [.report .illegalTxChannel c.val] }) ∧
    (∀ r : RxCh, s.dmxIdx.val = r.val → s.bound[r.val + 8] = false →
      exec .dmxRxUnbound s =
        .next { s with dmxState := .idle, history := s.history ++ [.report .illegalRxChannel (r.val + 8)] })

/-- R160: an arrival on a bound RX channel is accepted whatever its ready flag. -/
def Obligations.ArrivalOnABoundChannelIsAccepted : Prop :=
  ∀ (s : State) (r : RxCh), s.dmxState = .dispatch → s.dmxValid = true → s.dmxIdx.val = r.val →
    s.bound[r.val + 8] = true → exec .dmxRxDispatch s = .next { s with dmxState := .rxCopy 0 }

/-- R161: DMX_RX_READ stages word k of buffer r and counts on. Byte order: log 18. -/
def Obligations.RxReadStagesTheNextWord : Prop :=
  ∀ (s : State) (r : RxCh) (k : Fin 8), s.dmxState = .rxCopy k → s.dmxIdx.val = r.val →
    ∃ (t : State) (w : Word), exec .dmxRxRead s = .next t ∧
      { t with dmxState := s.dmxState } = { s with
        dmxWords := s.dmxWords.set k.val w k.isLt
        history := s.history ++ [.mmio .demux .read (wordAddr s (r.val + 8) k.val) w] } ∧
      (∀ j : Nat, j < 4 → w.extractLsb' (8 * j) 8 = readByte s (wordAddr s (r.val + 8) k.val + j)) ∧
      (∀ h : k.val < 7, t.dmxState = .rxCopy ⟨k.val + 1, by omega⟩) ∧ (k.val = 7 → t.dmxState = .rxCommit)

/-- R162: the commit writes the message and the ready flag in one step, overwriting an unread message. Byte order: log 18. -/
def Obligations.RxCommitWritesMessageAndFlag : Prop :=
  ∀ (s : State) (r : RxCh), s.dmxState = .rxCommit → s.dmxIdx.val = r.val →
    ∃ m : Msg, exec .dmxRxCommit s = .next { s with
        rx := s.rx.set r.val { s.rx[r] with buf := m, ready := true } r.isLt
        dmxState := .rearm } ∧
      ∀ (k : Fin 8) (j : Nat) (h : j < 4), m[4 * k.val + j] = s.dmxWords[k].extractLsb' (8 * j) 8

/-- R163: the re-arm sets the full pair of C2D position r and ends the invocation. Write-1-to-set: log 18. -/
def Obligations.RearmSetsTheMirroredPosition : Prop :=
  ∀ (s : State) (r : RxCh), s.dmxState = .rearm → s.dmxIdx.val = r.val →
    exec .dmxRearm s = .next { s with
      c2dStat := s.c2dStat ||| (0x3 : Word) <<< (2 * (r.val + 8))
      dmxState := .idle
      history := s.history ++ [regWriteRecord .demux 0x04 ((0x3 : Word) <<< (2 * (r.val + 8))) s] }

/-- R153: outside IDLE exactly one DEMUX step is enabled, it brings the end of the invocation nearer, and DMX_START, which
needs IDLE, leaves at most 14 of the 15; no other step but RESET moves the sequencer. InvDemux is an invariant of the step.
That a step that is not enabled is a fault is the model's form (log 6). -/
def Obligations.InvocationsAreBoundedAndDoNotNest : Prop :=
  ∀ s : State, InvDemux s →
    (s.dmxState ≠ .idle →
      (∃ i ∈ demuxSteps, (∃ t, exec i s = .next t ∧ stepsLeft t.dmxState < stepsLeft s.dmxState) ∧
        ∀ j ∈ demuxSteps, (∃ t, exec j s = .next t) → j = i) ∧
      exec .dmxStart s = .fault .notEnabled) ∧
    (∀ t, exec .dmxStart s = .next t → s.dmxState = .idle ∧ stepsLeft t.dmxState = 14) ∧
    ∀ (i : Instr) (t : State), exec i s = .next t → i ∉ demuxSteps → i ≠ .dmxStart → i ≠ .reset → t.dmxState = s.dmxState

/-- R72, R151, R162, R360: an invocation that finds position r lowest, on a bound RX channel, with no other agent between its
fifteen steps, whatever is drawn at each: it commits the buffer's bytes, sets ready, clears that position only, re-arms, and
leaves the records in the order of R72; nothing else changes but what the invocation saved. Byte order and write-1 semantics:
log 18; the clear run read from the history: log 8. -/
def Obligations.ArrivalInvocationDeliversTheBuffer : Prop :=
  ∀ (s : State) (r : RxCh) (d : Nat → Draws), s.initDone = true → s.dmxState = .idle → irqCpu s = true →
    (s.d2cStat >>> (2 * r.val)) &&& 0x3 ≠ 0 → (∀ j : Nat, j < r.val → (s.d2cStat >>> (2 * j)) &&& 0x3 = 0) →
    s.bound[r.val + 8] = true →
    runWith [(.dmxStart, d 0), (.dmxClear, d 1), (.dmxClear, d 2), (.dmxClear, d 3), (.dmxRxDispatch, d 4),
        (.dmxRxRead, d 5), (.dmxRxRead, d 6), (.dmxRxRead, d 7), (.dmxRxRead, d 8), (.dmxRxRead, d 9),
        (.dmxRxRead, d 10), (.dmxRxRead, d 11), (.dmxRxRead, d 12), (.dmxRxCommit, d 13), (.dmxRearm, d 14)] s =
      .next { s with
        d2cStat := s.d2cStat &&& ~~~((0x3 : Word) <<< (2 * r.val))
        c2dStat := s.c2dStat ||| (0x3 : Word) <<< (2 * (r.val + 8))
        rx := s.rx.set r.val { s.rx[r] with buf := bufMsg s (chRx r), ready := true } r.isLt
        dmxValid := true
        dmxIdx := ⟨r.val, by omega⟩
        dmxMask := (0x3 : Word) <<< (2 * r.val)
        dmxWords := Vector.ofFn fun k : Fin 8 => readWord s (wordAddr s (r.val + 8) k.val)
        draws := d 14
        history := s.history ++ [.mmio .demux .read (s.cfg.regBase + 0x20) s.d2cStat] ++
          List.replicate 3 (regWriteRecord .demux 0x18 ((0x3 : Word) <<< (2 * r.val)) s) ++
          (List.range 8).map (fun k =>
            Record.mmio .demux .read (wordAddr s (r.val + 8) k) (readWord s (wordAddr s (r.val + 8) k))) ++
          [regWriteRecord .demux 0x04 ((0x3 : Word) <<< (2 * (r.val + 8))) s] }

/-! ## The send side -/

/-- R192: the arbiter may grant any channel that is SENDING with no word written, one at a time; a grant changes nothing
else. That `draw(tx_arb)` is the operand of the step is the model's choice (log 1); a step not enabled is a fault (log 6). -/
def Obligations.GrantGoesToOneSendingChannel : Prop :=
  ∀ (s : State) (c : TxCh),
    (s.txGrant = none → s.tx[c].state = .sending → s.tx[c].word = 0 →
      exec (.txGrant c) s = .next { s with txGrant := some c }) ∧
    (s.txGrant ≠ none ∨ s.tx[c].state ≠ .sending → exec (.txGrant c) s = .fault .notEnabled)

/-- R193: TX_WRITE stores the next payload word of the granted channel in its buffer; every other byte reads as before.
Byte order: log 18. -/
def Obligations.TxWriteStoresTheNextPayloadWord : Prop :=
  ∀ (s : State) (c : TxCh) (k : Fin 8), s.txGrant = some c → s.tx[c].word = k.val →
    ∃ (t : State) (w : Word), exec .txWrite s = .next t ∧
      { t with mem := s.mem } = { s with
        tx := s.tx.set c.val { s.tx[c] with word := k.val + 1 } c.isLt
        history := s.history ++ [.mmio .txeng .write (wordAddr s c.val k.val) w] } ∧
      (∀ (j : Nat) (h : j < 4),
        w.extractLsb' (8 * j) 8 = s.tx[c].payload[4 * k.val + j] ∧
        readByte t (wordAddr s c.val k.val + j) = s.tx[c].payload[4 * k.val + j]) ∧
      ∀ a : Nat, ¬ (wordAddr s c.val k.val ≤ a ∧ a < wordAddr s c.val k.val + 4) → readByte t a = readByte s a

/-- R194: TX_SET, enabled only after all eight words, sets the full pair of C2D position c, starts the timeout and releases
the grant. Write-1-to-set: log 18; a step that is not enabled is a fault: log 6. -/
def Obligations.TxSetNotifiesAfterTheWholePayload : Prop :=
  ∀ (s : State) (c : TxCh), s.txGrant = some c →
    (s.tx[c].word = 8 → exec .txSet s = .next { s with
      c2dStat := s.c2dStat ||| (0x3 : Word) <<< (2 * c.val)
      tx := s.tx.set c.val { s.tx[c] with state := .waitAck, elapsed := 0, word := 0 } c.isLt
      txGrant := none
      history := s.history ++ [regWriteRecord .txeng 0x04 ((0x3 : Word) <<< (2 * c.val)) s] }) ∧
    (s.tx[c].word ≠ 8 → exec .txSet s = .fault .notEnabled)

/-- R195: a send that waited T_SEND_TIMEOUT ticks may end with SendTimeout, and none ends so earlier. That a step that is not
enabled is a fault is the model's form (log 6). -/
def Obligations.SendTimeoutAfterTheBoundAndNotEarlier : Prop :=
  ∀ (s : State) (c : TxCh),
    (s.tx[c].state = .waitAck → s.cfg.tSendTimeout ≤ s.tx[c].elapsed →
      exec (.txTimeout c) s = .next { s with
        ports := s.ports.set s.tx[c].port Port.atReset
        tx := s.tx.set c.val { s.tx[c] with state := .idle, elapsed := 0 } c.isLt
        history := s.history ++ [respRecord s.tx[c].port .sendTimeout false none] }) ∧
    (s.tx[c].state ≠ .waitAck ∨ s.tx[c].elapsed < s.cfg.tSendTimeout →
      exec (.txTimeout c) s = .fault .notEnabled)

/-- R71, R193, R194, R196: grant, eight writes and the set write of a latched send, with no other agent between: the buffer
holds the payload byte for byte, every byte outside it reads as before, and the set write is the last record. Byte order and
write-1 semantics: log 18. -/
def Obligations.SendSequenceFillsTheBufferThenNotifies : Prop :=
  ∀ (s : State) (c : TxCh), s.txGrant = none → s.tx[c].state = .sending → s.tx[c].word = 0 →
    ∃ t, runSteps ([.txGrant c] ++ List.replicate 8 .txWrite ++ [.txSet]) s = .next t ∧
      bufMsg t (chTx c) = s.tx[c].payload ∧
      (∀ a : Nat, ¬ (wordAddr s c.val 0 ≤ a ∧ a < wordAddr s c.val 0 + 32) → readByte t a = readByte s a) ∧
      { t with mem := s.mem } = { s with
        c2dStat := s.c2dStat ||| (0x3 : Word) <<< (2 * c.val)
        tx := s.tx.set c.val { s.tx[c] with state := .waitAck, elapsed := 0, word := 0 } c.isLt
        history := s.history ++
          (List.ofFn fun k : Fin 8 => Record.mmio .txeng .write (wordAddr s c.val k.val) (wordOf s.tx[c].payload k)) ++
          [regWriteRecord .txeng 0x04 ((0x3 : Word) <<< (2 * c.val)) s] }

/-! ## Waits, notification, time, initialisation and reset -/

/-- R223 with R224: a waiting port consumes the message the synchronizer has shown, and has no step before. -/
def Obligations.WaitConsumeTakesTheMessage : Prop :=
  ∀ (s : State) (p : Nat) (x : Port) (r : RxCh) (b : Nat), s.ports[p]? = some x → x.state = .waiting r b →
    (s.rx[r].readySync = true → s.draws.xferErr = true → exec (.waitConsume p) s = .next { s with
      ports := s.ports.set p Port.atReset
      history := s.history ++ [respRecord p .copyFault false none] }) ∧
    (s.rx[r].readySync = true → s.draws.xferErr = false → exec (.waitConsume p) s = .next { s with
      ports := s.ports.set p Port.atReset
      rx := s.rx.set r.val { s.rx[r] with ready := false, readySync := false } r.isLt
      history := s.history ++ [respRecord p .ok false (some s.rx[r].buf)] }) ∧
    (s.rx[r].readySync = false → ∀ t, exec (.waitConsume p) s ≠ .next t)

/-- R225: a bounded wait may end with RecvTimeout once its ticks have passed; an unbounded one never does. That a step that is
not enabled is a fault is the model's form (log 6). -/
def Obligations.BoundedWaitRunsOut : Prop :=
  ∀ (s : State) (p : Nat) (x : Port) (r : RxCh) (b : Nat), s.ports[p]? = some x → x.state = .waiting r b →
    (b ≠ 0 → b ≤ x.elapsed → exec (.waitTimeout p) s = .next { s with
      ports := s.ports.set p Port.atReset
      history := s.history ++ [respRecord p .recvTimeout false none] }) ∧
    (b = 0 ∨ x.elapsed < b → exec (.waitTimeout p) s = .fault .notEnabled)

/-- R250: SYNC raises the consumer-domain copy and notifies every listener once, in ascending port order. -/
def Obligations.SyncRaisesTheCopyAndNotifies : Prop :=
  ∀ (s : State) (r : RxCh), s.rx[r].readySync ≠ s.rx[r].ready →
    exec (.sync r) s = .next { s with
      rx := s.rx.set r.val { s.rx[r] with readySync := true } r.isLt
      history := s.history ++
        ((List.range s.cfg.numPorts).filter (isListener s r)).map (fun q => Record.notify q (r.val + 8)) }

/-- R320: TICK advances the counters of the channels in WAIT_ACK and of the waiting ports, saturating, and nothing else. -/
def Obligations.TickAdvancesTheRunningCounters : Prop :=
  ∀ s : State, ∃ t, exec .tick s = .next t ∧ { t with tx := s.tx, ports := s.ports } = s ∧
    (∀ c : TxCh,
      (s.tx[c].state = .waitAck →
        t.tx[c] = { s.tx[c] with elapsed := min (s.tx[c].elapsed + 1) s.cfg.tSendTimeout }) ∧
      (s.tx[c].state ≠ .waitAck → t.tx[c] = s.tx[c])) ∧
    t.ports.length = s.ports.length ∧
    ∀ (p : Nat) (x : Port), s.ports[p]? = some x →
      ((∃ r b, x.state = .waiting r b) → t.ports[p]? = some { x with elapsed := min (x.elapsed + 1) 65535 }) ∧
      ((¬ ∃ r b, x.state = .waiting r b) → t.ports[p]? = some x)

/-- R342: INIT, once, enables every position of the D2C bank. That a step that is not enabled is a fault is the model's form
(log 6). -/
def Obligations.InitEnablesEveryPosition : Prop :=
  ∀ s : State,
    (s.initDone = false → exec .init s = .next { s with
      d2cEn := 0xFFFFFFFF
      initDone := true
      history := s.history ++ [regWriteRecord .init 0x1c 0xFFFFFFFF s] }) ∧
    (s.initDone = true → exec .init s = .fault .notEnabled)

/-- R340: RESET gives every item of 10_state.md its reset value from any state; every buffer byte is a new draw of its own.
How the draw is held (log 3) and that the state carries the parameters (log 4) are the model's choices. -/
def Obligations.ResetRestoresEveryItem : Prop :=
  ∀ s : State, ∃ t, exec .reset s = .next t ∧
    t.c2dEn = 0 ∧ t.c2dStat = 0 ∧ t.d2cEn = 0 ∧ t.d2cStat = 0 ∧
    t.resetCount = s.resetCount + 1 ∧ (∀ a : Nat, readByte t a = Config.bufResetDraw t.resetCount a) ∧
    (∀ ch : Fin 16, t.bound[ch] = false) ∧
    (∀ c : TxCh, t.tx[c].state = .idle ∧ t.tx[c].port = 0 ∧ t.tx[c].word = 0 ∧ t.tx[c].elapsed = 0 ∧
      ∀ k : Fin 32, t.tx[c].payload[k] = 0) ∧
    t.txGrant = none ∧
    (∀ r : RxCh, t.rx[r].ready = false ∧ t.rx[r].readySync = false ∧ (∀ k : Fin 32, t.rx[r].buf[k] = 0) ∧
      ∀ q : Nat, isListener t r q = false) ∧
    t.dmxState = .idle ∧ t.dmxValid = false ∧ t.dmxIdx = 0 ∧ t.dmxMask = 0 ∧ (∀ k : Fin 8, t.dmxWords[k] = 0) ∧
    t.ports.length = s.cfg.numPorts ∧ (∀ (p : Nat) (x : Port), t.ports[p]? = some x → x.state = .free ∧ x.elapsed = 0) ∧
    t.initDone = false ∧ t.history = [] ∧ t.cfg = s.cfg

/-! ## The whole machine -/

/-- R44 with the model's own invariants: every step keeps them, from every state that has them. The model's own are those of
its memory (log 3), its port lists (log 19), the demultiplexer's saved position (log 14) and the clear run (log 8). -/
def Obligations.StepKeepsTheInvariants : Prop :=
  ∀ s t : State, Inv s → step s = .next t → Inv t

/-- R44: the invariants hold at reset, for every legal configuration. -/
def Obligations.ResetHasTheInvariants : Prop :=
  ∀ c : Config, configLegal c = true → Inv (State.resetOf c)

/-- R12, R97, R100: an instruction has a step exactly when its enabling condition holds, and none is refused. InvDemux is an
invariant of the step. The condition of TX_GRANT includes its operand (log 15), that of a peer's access that it is
not stuck (log 7); a step not enabled is a fault (log 6). -/
def Obligations.StepsExistExactlyWhenEnabled : Prop :=
  ∀ (i : Instr) (s : State), InvDemux s →
    ((∃ t, exec i s = .next t) ↔ Enabled i s) ∧ ∀ r, exec i s ≠ .refused r

/-- R37, R38, R227, R228: who writes a message, and who sets and clears a ready flag and its copy; a receive and a wait clear
those of their own channel only. -/
def Obligations.ReadyFlagsHaveTheirOnlyWriters : Prop :=
  ∀ (i : Instr) (s t : State) (r : RxCh), exec i s = .next t →
    (t.rx[r].ready = true → s.rx[r].ready = true ∨ (i = .dmxRxCommit ∧ s.dmxIdx.val = r.val)) ∧
    (t.rx[r].readySync = true → s.rx[r].readySync = true ∨ i = .sync r) ∧
    (t.rx[r].buf ≠ s.rx[r].buf → (i = .dmxRxCommit ∧ s.dmxIdx.val = r.val) ∨ i = .reset) ∧
    ((s.rx[r].ready = true ∧ t.rx[r].ready = false) ∨ (s.rx[r].readySync = true ∧ t.rx[r].readySync = false) →
      (∃ p, i = .receiveNb p (r.val + 8)) ∨ (∃ p b, i = .receiveB p (r.val + 8) b) ∨
        (∃ p x b, i = .waitConsume p ∧ s.ports[p]? = some x ∧ x.state = .waiting r b) ∨ i = .reset)

/-- R23, R29, R34, R39, R42: who writes the enable registers, the bindings, the listeners and the init bit; the parameters
of R5 never change. That a state carries them is the model's choice (log 4). -/
def Obligations.ControlBitsHaveTheirOnlyWriters : Prop :=
  ∀ (i : Instr) (s t : State), exec i s = .next t →
    t.cfg = s.cfg ∧
    (t.c2dEn ≠ s.c2dEn → (∃ ag v, i = .c2dEnW ag v) ∨ i = .reset) ∧
    (t.d2cEn ≠ s.d2cEn → (∃ ag v, i = .d2cEnW ag v) ∨ i = .init ∨ i = .reset) ∧
    (∀ ch : Fin 16, t.bound[ch] ≠ s.bound[ch] → (t.bound[ch] = true ∧ ∃ p, i = .bind p ch.val) ∨ i = .reset) ∧
    (∀ r : RxCh, t.rx[r].listeners ≠ s.rx[r].listeners →
      (∃ p, i = .registerListener p (r.val + 8)) ∨ i = .reset) ∧
    (t.initDone ≠ s.initDone → (t.initDone = true ∧ i = .init) ∨ i = .reset)

/-- R31: who sets and who clears a bit of the status registers. -/
def Obligations.StatusBitsHaveTheirOnlyWriters : Prop :=
  ∀ (i : Instr) (s t : State) (b : Nat), exec i s = .next t →
    (s.d2cStat.getLsbD b = false → t.d2cStat.getLsbD b = true → ∃ ag v, i = .d2cSetW ag v ∧ v.getLsbD b = true) ∧
    (s.d2cStat.getLsbD b = true → t.d2cStat.getLsbD b = false →
      (i = .dmxClear ∧ s.dmxMask.getLsbD b = true) ∨ (∃ ag v, i = .d2cClrW ag v ∧ v.getLsbD b = true) ∨ i = .reset) ∧
    (s.c2dStat.getLsbD b = false → t.c2dStat.getLsbD b = true →
      (∃ ag v, i = .c2dSetW ag v ∧ v.getLsbD b = true) ∨ (i = .txSet ∧ b < 16) ∨ (i = .dmxRearm ∧ 16 ≤ b)) ∧
    (s.c2dStat.getLsbD b = true → t.c2dStat.getLsbD b = false →
      (∃ ag v, i = .c2dClrW ag v ∧ v.getLsbD b = true) ∨ i = .reset)

/-- R33, R141, R193, R340: no step but BUF.W, TX_WRITE and RESET changes what a buffer byte reads as. -/
def Obligations.OtherStepsLeaveEveryBufferByte : Prop :=
  ∀ (i : Instr) (s t : State) (a : Nat), exec i s = .next t →
    (∀ ag b k v, i ≠ .bufW ag b k v) → i ≠ .txWrite → i ≠ .reset → readByte t a = readByte s a

/-- R43, R63: every step but RESET appends to the history. Its MMIO records are exactly the accesses of its rule, in order, and
lie in a window; only a command appends a CMD, its own; and each other kind of record comes only from the steps whose rules
append it. -/
def Obligations.HistoryGrowsByTheStepsOwnRecords : Prop :=
  ∀ (i : Instr) (s t : State), exec i s = .next t → i ≠ .reset →
    ∃ new, t.history = s.history ++ new ∧
      new.filterMap accessOf = accesses i s ∧
      (∀ (ag : Issuer) (dir : Dir) (addr : Nat), (ag, dir, addr) ∈ accesses i s →
        issuerAgent ag = agentOf i ∧ (inRegWindow s.cfg addr = true ∨ inBufWindow s.cfg addr = true)) ∧
      (∀ p w m, Record.cmd p w m ∈ new → isCommandOf p i ∧ Record.cmd p w m = cmdRecord p i) ∧
      (∀ p w d, Record.resp p w d ∈ new → (∃ q, agentOf i = .port q) ∨ i = .dmxTxack ∨ ∃ c, i = .txTimeout c) ∧
      (∀ kind idx, Record.report kind idx ∈ new →
        i = .dmxSpurious ∨ i = .dmxTxack ∨ i = .dmxTxackUnbound ∨ i = .dmxRxUnbound) ∧
      ∀ q r, Record.notify q r ∈ new → ∃ r' : RxCh, i = .sync r' ∧ r = r'.val + 8

/-- R96, R300: a response word holds a code 0..9, a ready bit only for POLL_READY, and zero above; data goes only with OK. -/
def Obligations.ResponsesAreWellFormed : Prop :=
  ∀ (i : Instr) (s t : State) (p : Nat) (w : Word) (d : Option Msg), exec i s = .next t →
    Record.resp p w d ∈ t.history → Record.resp p w d ∉ s.history →
      w.extractLsb' 5 27 = 0 ∧ (w.extractLsb' 0 4).toNat ≤ 9 ∧
      (w.getLsbD 4 = true → ∃ q ch, i = .pollReady q ch) ∧ (d.isSome = true → w = 0)

/-- R12: a step takes the next slot and runs the instruction its proposal decodes to; a proposal without a step only takes
the slot (log 6): one that is not enabled, an access by the block outside its own steps (log 13), or one that decodes to
nothing and is not the peer's (the peer's: PeerWithoutAStepIsStuck). A configuration that breaks R5 or R6 is refused (log 5). -/
def Obligations.StepRunsTheDecodedInstruction : Prop :=
  ∀ (s : State) (i : Instr),
    (configLegal s.cfg = true → decode s.cfg (nextSlot s).proposal = .ok i → standsAlone i = true →
      (∀ t, exec i (takeSlot s) = .next t → step s = .next t) ∧
      (∀ f, exec i (takeSlot s) = .fault f → step s = .next (takeSlot s))) ∧
    (configLegal s.cfg = true → decode s.cfg (nextSlot s).proposal = .ok i → standsAlone i = false →
      step s = .next (takeSlot s)) ∧
    (configLegal s.cfg = true → (∃ e, decode s.cfg (nextSlot s).proposal = .error e) →
      (∀ dir width addr data, (nextSlot s).proposal ≠ .access .peer dir width addr data) →
      step s = .next (takeSlot s)) ∧
    (standsAlone i = false ↔ i.isEvent = false ∧ (agentOf i = .demux ∨ agentOf i = .txeng ∨ agentOf i = .init)) ∧
    (∀ (sl : Slot) (rest : List Slot), s.agenda = sl :: rest → nextSlot s = sl ∧
      takeSlot s = { s with agenda := rest, draws := sl.draws, stepCount := s.stepCount + 1 }) ∧
    (configLegal s.cfg = false → step s = .refused .badConfiguration)

/-- R13, R192, R197: in a fair run a channel that is SENDING is granted and a granted one is notified, unless a RESET comes;
and a send that is never acknowledged gets SendTimeout after finitely many steps, as its only response, with at least
T_SEND_TIMEOUT ticks on its counter. What a run and its fairness are: log 16; Inv has the model's own invariants too (logs 3, 8,
14, 19). -/
def Obligations.FairRunsGrantAndTimeOutEverySend : Prop :=
  ∀ (sched : Nat → Slot) (σ : Nat → State) (c : TxCh) (n : Nat), FairRun sched σ → Inv (σ n) →
    ((σ n).tx[c].state = .sending → ∃ m, n ≤ m ∧ ((σ m).txGrant = some c ∨ Takes sched σ m .reset)) ∧
    ((σ n).txGrant = some c →
      ∃ m, n ≤ m ∧ (((σ m).txGrant = some c ∧ Takes sched σ m .txSet) ∨ Takes sched σ m .reset)) ∧
    ((σ n).tx[c].state = .waitAck → noAck c (σ n) →
      (∀ m, n ≤ m → ¬ Takes sched σ m .reset ∧
        ∀ ag v, Takes sched σ m (.d2cSetW ag v) → (v >>> (2 * (c.val + 8))) &&& 0x3 = 0) →
      ∃ k, Takes sched σ (n + k) (.txTimeout c) ∧
        (σ n).cfg.tSendTimeout ≤ (σ n).tx[c].elapsed + ticks sched σ n k ∧
        ∃ new, (σ (n + k + 1)).history = (σ n).history ++ new ∧
          new.filter (isResponseOf (σ n).tx[c].port) = [respRecord (σ n).tx[c].port .sendTimeout false none])
end

