-- ==== Sys2Proof/Laws/Bits.lean ====
section
/-! SUPPORT. Bytes and words: packing and unpacking are inverse (R10), and a message is its eight words. -/

namespace Sys2Proof

/-- Unpacking a packed word gives its bytes. -/
theorem leByte_le32 (a b c d : Byte) :
    leByte (le32 a b c d) 0 = a ∧ leByte (le32 a b c d) 1 = b ∧ leByte (le32 a b c d) 2 = c ∧
      leByte (le32 a b c d) 3 = d := by
  refine ⟨?_, ?_, ?_, ?_⟩ <;>
  · apply BitVec.eq_of_getLsbD_eq
    intro i hi
    simp only [leByte, le32, BitVec.getLsbD_extractLsb', BitVec.getLsbD_or, BitVec.getLsbD_shiftLeft,
      BitVec.getLsbD_setWidth]
    interval_cases i <;> simp

/-- Packing the bytes of a word gives the word. -/
theorem le32_leByte (w : Word) : le32 (leByte w 0) (leByte w 1) (leByte w 2) (leByte w 3) = w := by
  apply BitVec.eq_of_getLsbD_eq
  intro i hi
  simp only [leByte, le32, BitVec.getLsbD_extractLsb', BitVec.getLsbD_or, BitVec.getLsbD_shiftLeft,
    BitVec.getLsbD_setWidth]
  interval_cases i <;> simp

namespace Machine

/-- Byte `j` of word `k` of a message is byte `4k + j` of the message. -/
theorem leByte_wordOf (m : Msg) (k : Fin 8) (j : Fin 4) : leByte (wordOf m k) j = m[4 * k.val + j.val] := by
  obtain ⟨h0, h1, h2, h3⟩ :=
    leByte_le32 m[4 * k.val] m[4 * k.val + 1] m[4 * k.val + 2] m[4 * k.val + 3]
  match j with
  | 0 => exact h0
  | 1 => exact h1
  | 2 => exact h2
  | 3 => exact h3

/-- `msg_of` undoes `words_of` (R10). -/
theorem msgOf_words (m : Msg) : msgOf (Vector.ofFn (wordOf m)) = m := by
  refine Vector.ext fun k hk => ?_
  simp only [msgOf, Vector.getElem_ofFn, leByte_wordOf]
  congr 1
  omega

/-- Word `k` of `msg_of` is the word it was made of. -/
theorem wordOf_msgOf (ws : Vector Word 8) (k : Fin 8) : wordOf (msgOf ws) k = ws[k] := by
  have e : ∀ j : Nat, (hj : j < 4) → (msgOf ws)[4 * k.val + j] = leByte ws[k] ⟨j, hj⟩ := by
    intro j hj
    simp only [msgOf, Vector.getElem_ofFn]
    congr 1
    · congr 1; omega
    · apply Fin.ext; simp only; omega
  have e0 := e 0 (by omega)
  have e1 := e 1 (by omega)
  have e2 := e 2 (by omega)
  have e3 := e 3 (by omega)
  simp only [Nat.add_zero] at e0
  unfold wordOf
  rw [e0, e1, e2, e3]
  exact le32_leByte _

/-- No bit of pair `j` is set, bit by bit (R30). -/
theorem pair_eq_zero_iff (w : Word) (j : Nat) :
    (w >>> (2 * j)) &&& 0x3 = 0 ↔ w.getLsbD (2 * j) = false ∧ w.getLsbD (2 * j + 1) = false := by
  constructor
  · intro h
    have b (k : Nat) := congrArg (fun v : Word => v.getLsbD k) h
    have b0 := b 0
    have b1 := b 1
    simp only [BitVec.getLsbD_and, BitVec.getLsbD_ushiftRight] at b0 b1
    exact ⟨by simpa using b0, by simpa using b1⟩
  · intro h
    apply BitVec.eq_of_getLsbD_eq
    intro k hk
    simp only [BitVec.getLsbD_and, BitVec.getLsbD_ushiftRight]
    match k with
    | 0 => simp [h.1]
    | 1 => simp [h.2]
    | k + 2 =>
      have h3 : Nat.testBit 3 (k + 2) = false :=
        Nat.testBit_lt_two_pow (Nat.lt_of_lt_of_le (by decide : 3 < 2 ^ 2) (Nat.pow_le_pow_right (by decide) (by omega)))
      have : (0x3 : Word).getLsbD (k + 2) = false := (BitVec.getLsbD_ofNat 32 3 (k + 2)).trans (by rw [h3]; simp)
      rw [this, Bool.and_false]
      simp

end Machine

end Sys2Proof
end

