-- ==== Sys2Proof/Laws/State.lean ====
section
/-! SUPPORT. One lemma per field per named update of the state, each true by `rfl`, so that no proof unfolds a record
update. -/

namespace Sys2Proof.Machine

variable (s : State)

@[simp] theorem State.log_cfg (e : Record) : (s.log e).cfg = s.cfg := rfl
@[simp] theorem State.log_c2dEn (e : Record) : (s.log e).c2dEn = s.c2dEn := rfl
@[simp] theorem State.log_c2dStat (e : Record) : (s.log e).c2dStat = s.c2dStat := rfl
@[simp] theorem State.log_d2cEn (e : Record) : (s.log e).d2cEn = s.d2cEn := rfl
@[simp] theorem State.log_d2cStat (e : Record) : (s.log e).d2cStat = s.d2cStat := rfl
@[simp] theorem State.log_mem (e : Record) : (s.log e).mem = s.mem := rfl
@[simp] theorem State.log_resetCount (e : Record) : (s.log e).resetCount = s.resetCount := rfl
@[simp] theorem State.log_bound (e : Record) : (s.log e).bound = s.bound := rfl
@[simp] theorem State.log_tx (e : Record) : (s.log e).tx = s.tx := rfl
@[simp] theorem State.log_txGrant (e : Record) : (s.log e).txGrant = s.txGrant := rfl
@[simp] theorem State.log_rx (e : Record) : (s.log e).rx = s.rx := rfl
@[simp] theorem State.log_dmxState (e : Record) : (s.log e).dmxState = s.dmxState := rfl
@[simp] theorem State.log_dmxValid (e : Record) : (s.log e).dmxValid = s.dmxValid := rfl
@[simp] theorem State.log_dmxIdx (e : Record) : (s.log e).dmxIdx = s.dmxIdx := rfl
@[simp] theorem State.log_dmxMask (e : Record) : (s.log e).dmxMask = s.dmxMask := rfl
@[simp] theorem State.log_dmxWords (e : Record) : (s.log e).dmxWords = s.dmxWords := rfl
@[simp] theorem State.log_ports (e : Record) : (s.log e).ports = s.ports := rfl
@[simp] theorem State.log_initDone (e : Record) : (s.log e).initDone = s.initDone := rfl
@[simp] theorem State.log_history (e : Record) : (s.log e).history = s.history ++ [e] := rfl
@[simp] theorem State.log_peerStuck (e : Record) : (s.log e).peerStuck = s.peerStuck := rfl
@[simp] theorem State.log_agenda (e : Record) : (s.log e).agenda = s.agenda := rfl
@[simp] theorem State.log_draws (e : Record) : (s.log e).draws = s.draws := rfl
@[simp] theorem State.log_stepCount (e : Record) : (s.log e).stepCount = s.stepCount := rfl

@[simp] theorem State.setPort_cfg (p : Nat) (x : Port) : (s.setPort p x).cfg = s.cfg := rfl
@[simp] theorem State.setPort_c2dEn (p : Nat) (x : Port) : (s.setPort p x).c2dEn = s.c2dEn := rfl
@[simp] theorem State.setPort_c2dStat (p : Nat) (x : Port) : (s.setPort p x).c2dStat = s.c2dStat := rfl
@[simp] theorem State.setPort_d2cEn (p : Nat) (x : Port) : (s.setPort p x).d2cEn = s.d2cEn := rfl
@[simp] theorem State.setPort_d2cStat (p : Nat) (x : Port) : (s.setPort p x).d2cStat = s.d2cStat := rfl
@[simp] theorem State.setPort_mem (p : Nat) (x : Port) : (s.setPort p x).mem = s.mem := rfl
@[simp] theorem State.setPort_resetCount (p : Nat) (x : Port) : (s.setPort p x).resetCount = s.resetCount := rfl
@[simp] theorem State.setPort_bound (p : Nat) (x : Port) : (s.setPort p x).bound = s.bound := rfl
@[simp] theorem State.setPort_tx (p : Nat) (x : Port) : (s.setPort p x).tx = s.tx := rfl
@[simp] theorem State.setPort_txGrant (p : Nat) (x : Port) : (s.setPort p x).txGrant = s.txGrant := rfl
@[simp] theorem State.setPort_rx (p : Nat) (x : Port) : (s.setPort p x).rx = s.rx := rfl
@[simp] theorem State.setPort_dmxState (p : Nat) (x : Port) : (s.setPort p x).dmxState = s.dmxState := rfl
@[simp] theorem State.setPort_dmxValid (p : Nat) (x : Port) : (s.setPort p x).dmxValid = s.dmxValid := rfl
@[simp] theorem State.setPort_dmxIdx (p : Nat) (x : Port) : (s.setPort p x).dmxIdx = s.dmxIdx := rfl
@[simp] theorem State.setPort_dmxMask (p : Nat) (x : Port) : (s.setPort p x).dmxMask = s.dmxMask := rfl
@[simp] theorem State.setPort_dmxWords (p : Nat) (x : Port) : (s.setPort p x).dmxWords = s.dmxWords := rfl
@[simp] theorem State.setPort_ports (p : Nat) (x : Port) : (s.setPort p x).ports = s.ports.set p x := rfl
@[simp] theorem State.setPort_initDone (p : Nat) (x : Port) : (s.setPort p x).initDone = s.initDone := rfl
@[simp] theorem State.setPort_history (p : Nat) (x : Port) : (s.setPort p x).history = s.history := rfl
@[simp] theorem State.setPort_peerStuck (p : Nat) (x : Port) : (s.setPort p x).peerStuck = s.peerStuck := rfl
@[simp] theorem State.setPort_agenda (p : Nat) (x : Port) : (s.setPort p x).agenda = s.agenda := rfl
@[simp] theorem State.setPort_draws (p : Nat) (x : Port) : (s.setPort p x).draws = s.draws := rfl
@[simp] theorem State.setPort_stepCount (p : Nat) (x : Port) : (s.setPort p x).stepCount = s.stepCount := rfl

@[simp] theorem State.setTx_cfg (c : TxCh) (x : TxChan) : (s.setTx c x).cfg = s.cfg := rfl
@[simp] theorem State.setTx_c2dEn (c : TxCh) (x : TxChan) : (s.setTx c x).c2dEn = s.c2dEn := rfl
@[simp] theorem State.setTx_c2dStat (c : TxCh) (x : TxChan) : (s.setTx c x).c2dStat = s.c2dStat := rfl
@[simp] theorem State.setTx_d2cEn (c : TxCh) (x : TxChan) : (s.setTx c x).d2cEn = s.d2cEn := rfl
@[simp] theorem State.setTx_d2cStat (c : TxCh) (x : TxChan) : (s.setTx c x).d2cStat = s.d2cStat := rfl
@[simp] theorem State.setTx_mem (c : TxCh) (x : TxChan) : (s.setTx c x).mem = s.mem := rfl
@[simp] theorem State.setTx_resetCount (c : TxCh) (x : TxChan) : (s.setTx c x).resetCount = s.resetCount := rfl
@[simp] theorem State.setTx_bound (c : TxCh) (x : TxChan) : (s.setTx c x).bound = s.bound := rfl
@[simp] theorem State.setTx_tx (c : TxCh) (x : TxChan) : (s.setTx c x).tx = s.tx.set c.val x c.isLt := rfl
@[simp] theorem State.setTx_txGrant (c : TxCh) (x : TxChan) : (s.setTx c x).txGrant = s.txGrant := rfl
@[simp] theorem State.setTx_rx (c : TxCh) (x : TxChan) : (s.setTx c x).rx = s.rx := rfl
@[simp] theorem State.setTx_dmxState (c : TxCh) (x : TxChan) : (s.setTx c x).dmxState = s.dmxState := rfl
@[simp] theorem State.setTx_dmxValid (c : TxCh) (x : TxChan) : (s.setTx c x).dmxValid = s.dmxValid := rfl
@[simp] theorem State.setTx_dmxIdx (c : TxCh) (x : TxChan) : (s.setTx c x).dmxIdx = s.dmxIdx := rfl
@[simp] theorem State.setTx_dmxMask (c : TxCh) (x : TxChan) : (s.setTx c x).dmxMask = s.dmxMask := rfl
@[simp] theorem State.setTx_dmxWords (c : TxCh) (x : TxChan) : (s.setTx c x).dmxWords = s.dmxWords := rfl
@[simp] theorem State.setTx_ports (c : TxCh) (x : TxChan) : (s.setTx c x).ports = s.ports := rfl
@[simp] theorem State.setTx_initDone (c : TxCh) (x : TxChan) : (s.setTx c x).initDone = s.initDone := rfl
@[simp] theorem State.setTx_history (c : TxCh) (x : TxChan) : (s.setTx c x).history = s.history := rfl
@[simp] theorem State.setTx_peerStuck (c : TxCh) (x : TxChan) : (s.setTx c x).peerStuck = s.peerStuck := rfl
@[simp] theorem State.setTx_agenda (c : TxCh) (x : TxChan) : (s.setTx c x).agenda = s.agenda := rfl
@[simp] theorem State.setTx_draws (c : TxCh) (x : TxChan) : (s.setTx c x).draws = s.draws := rfl
@[simp] theorem State.setTx_stepCount (c : TxCh) (x : TxChan) : (s.setTx c x).stepCount = s.stepCount := rfl

@[simp] theorem State.setRx_cfg (r : RxCh) (x : RxChan) : (s.setRx r x).cfg = s.cfg := rfl
@[simp] theorem State.setRx_c2dEn (r : RxCh) (x : RxChan) : (s.setRx r x).c2dEn = s.c2dEn := rfl
@[simp] theorem State.setRx_c2dStat (r : RxCh) (x : RxChan) : (s.setRx r x).c2dStat = s.c2dStat := rfl
@[simp] theorem State.setRx_d2cEn (r : RxCh) (x : RxChan) : (s.setRx r x).d2cEn = s.d2cEn := rfl
@[simp] theorem State.setRx_d2cStat (r : RxCh) (x : RxChan) : (s.setRx r x).d2cStat = s.d2cStat := rfl
@[simp] theorem State.setRx_mem (r : RxCh) (x : RxChan) : (s.setRx r x).mem = s.mem := rfl
@[simp] theorem State.setRx_resetCount (r : RxCh) (x : RxChan) : (s.setRx r x).resetCount = s.resetCount := rfl
@[simp] theorem State.setRx_bound (r : RxCh) (x : RxChan) : (s.setRx r x).bound = s.bound := rfl
@[simp] theorem State.setRx_tx (r : RxCh) (x : RxChan) : (s.setRx r x).tx = s.tx := rfl
@[simp] theorem State.setRx_txGrant (r : RxCh) (x : RxChan) : (s.setRx r x).txGrant = s.txGrant := rfl
@[simp] theorem State.setRx_rx (r : RxCh) (x : RxChan) : (s.setRx r x).rx = s.rx.set r.val x r.isLt := rfl
@[simp] theorem State.setRx_dmxState (r : RxCh) (x : RxChan) : (s.setRx r x).dmxState = s.dmxState := rfl
@[simp] theorem State.setRx_dmxValid (r : RxCh) (x : RxChan) : (s.setRx r x).dmxValid = s.dmxValid := rfl
@[simp] theorem State.setRx_dmxIdx (r : RxCh) (x : RxChan) : (s.setRx r x).dmxIdx = s.dmxIdx := rfl
@[simp] theorem State.setRx_dmxMask (r : RxCh) (x : RxChan) : (s.setRx r x).dmxMask = s.dmxMask := rfl
@[simp] theorem State.setRx_dmxWords (r : RxCh) (x : RxChan) : (s.setRx r x).dmxWords = s.dmxWords := rfl
@[simp] theorem State.setRx_ports (r : RxCh) (x : RxChan) : (s.setRx r x).ports = s.ports := rfl
@[simp] theorem State.setRx_initDone (r : RxCh) (x : RxChan) : (s.setRx r x).initDone = s.initDone := rfl
@[simp] theorem State.setRx_history (r : RxCh) (x : RxChan) : (s.setRx r x).history = s.history := rfl
@[simp] theorem State.setRx_peerStuck (r : RxCh) (x : RxChan) : (s.setRx r x).peerStuck = s.peerStuck := rfl
@[simp] theorem State.setRx_agenda (r : RxCh) (x : RxChan) : (s.setRx r x).agenda = s.agenda := rfl
@[simp] theorem State.setRx_draws (r : RxCh) (x : RxChan) : (s.setRx r x).draws = s.draws := rfl
@[simp] theorem State.setRx_stepCount (r : RxCh) (x : RxChan) : (s.setRx r x).stepCount = s.stepCount := rfl

@[simp] theorem leaveInvocation_cfg : (leaveInvocation s).cfg = s.cfg := rfl
@[simp] theorem leaveInvocation_c2dEn : (leaveInvocation s).c2dEn = s.c2dEn := rfl
@[simp] theorem leaveInvocation_c2dStat : (leaveInvocation s).c2dStat = s.c2dStat := rfl
@[simp] theorem leaveInvocation_d2cEn : (leaveInvocation s).d2cEn = s.d2cEn := rfl
@[simp] theorem leaveInvocation_d2cStat : (leaveInvocation s).d2cStat = s.d2cStat := rfl
@[simp] theorem leaveInvocation_mem : (leaveInvocation s).mem = s.mem := rfl
@[simp] theorem leaveInvocation_resetCount : (leaveInvocation s).resetCount = s.resetCount := rfl
@[simp] theorem leaveInvocation_bound : (leaveInvocation s).bound = s.bound := rfl
@[simp] theorem leaveInvocation_tx : (leaveInvocation s).tx = s.tx := rfl
@[simp] theorem leaveInvocation_txGrant : (leaveInvocation s).txGrant = s.txGrant := rfl
@[simp] theorem leaveInvocation_rx : (leaveInvocation s).rx = s.rx := rfl
@[simp] theorem leaveInvocation_dmxState : (leaveInvocation s).dmxState = .idle := rfl
@[simp] theorem leaveInvocation_dmxValid : (leaveInvocation s).dmxValid = s.dmxValid := rfl
@[simp] theorem leaveInvocation_dmxIdx : (leaveInvocation s).dmxIdx = s.dmxIdx := rfl
@[simp] theorem leaveInvocation_dmxMask : (leaveInvocation s).dmxMask = s.dmxMask := rfl
@[simp] theorem leaveInvocation_dmxWords : (leaveInvocation s).dmxWords = s.dmxWords := rfl
@[simp] theorem leaveInvocation_ports : (leaveInvocation s).ports = s.ports := rfl
@[simp] theorem leaveInvocation_initDone : (leaveInvocation s).initDone = s.initDone := rfl
@[simp] theorem leaveInvocation_history : (leaveInvocation s).history = s.history := rfl
@[simp] theorem leaveInvocation_peerStuck : (leaveInvocation s).peerStuck = s.peerStuck := rfl
@[simp] theorem leaveInvocation_agenda : (leaveInvocation s).agenda = s.agenda := rfl
@[simp] theorem leaveInvocation_draws : (leaveInvocation s).draws = s.draws := rfl
@[simp] theorem leaveInvocation_stepCount : (leaveInvocation s).stepCount = s.stepCount := rfl

@[simp] theorem stallPeer_cfg : (stallPeer s).cfg = s.cfg := rfl
@[simp] theorem stallPeer_c2dEn : (stallPeer s).c2dEn = s.c2dEn := rfl
@[simp] theorem stallPeer_c2dStat : (stallPeer s).c2dStat = s.c2dStat := rfl
@[simp] theorem stallPeer_d2cEn : (stallPeer s).d2cEn = s.d2cEn := rfl
@[simp] theorem stallPeer_d2cStat : (stallPeer s).d2cStat = s.d2cStat := rfl
@[simp] theorem stallPeer_mem : (stallPeer s).mem = s.mem := rfl
@[simp] theorem stallPeer_resetCount : (stallPeer s).resetCount = s.resetCount := rfl
@[simp] theorem stallPeer_bound : (stallPeer s).bound = s.bound := rfl
@[simp] theorem stallPeer_tx : (stallPeer s).tx = s.tx := rfl
@[simp] theorem stallPeer_txGrant : (stallPeer s).txGrant = s.txGrant := rfl
@[simp] theorem stallPeer_rx : (stallPeer s).rx = s.rx := rfl
@[simp] theorem stallPeer_dmxState : (stallPeer s).dmxState = s.dmxState := rfl
@[simp] theorem stallPeer_dmxValid : (stallPeer s).dmxValid = s.dmxValid := rfl
@[simp] theorem stallPeer_dmxIdx : (stallPeer s).dmxIdx = s.dmxIdx := rfl
@[simp] theorem stallPeer_dmxMask : (stallPeer s).dmxMask = s.dmxMask := rfl
@[simp] theorem stallPeer_dmxWords : (stallPeer s).dmxWords = s.dmxWords := rfl
@[simp] theorem stallPeer_ports : (stallPeer s).ports = s.ports := rfl
@[simp] theorem stallPeer_initDone : (stallPeer s).initDone = s.initDone := rfl
@[simp] theorem stallPeer_history : (stallPeer s).history = s.history := rfl
@[simp] theorem stallPeer_peerStuck : (stallPeer s).peerStuck = true := rfl
@[simp] theorem stallPeer_agenda : (stallPeer s).agenda = s.agenda := rfl
@[simp] theorem stallPeer_draws : (stallPeer s).draws = s.draws := rfl
@[simp] theorem stallPeer_stepCount : (stallPeer s).stepCount = s.stepCount := rfl

@[simp] theorem loadSlot_cfg (sl : Slot) : (loadSlot sl s).cfg = s.cfg := rfl
@[simp] theorem loadSlot_c2dEn (sl : Slot) : (loadSlot sl s).c2dEn = s.c2dEn := rfl
@[simp] theorem loadSlot_c2dStat (sl : Slot) : (loadSlot sl s).c2dStat = s.c2dStat := rfl
@[simp] theorem loadSlot_d2cEn (sl : Slot) : (loadSlot sl s).d2cEn = s.d2cEn := rfl
@[simp] theorem loadSlot_d2cStat (sl : Slot) : (loadSlot sl s).d2cStat = s.d2cStat := rfl
@[simp] theorem loadSlot_mem (sl : Slot) : (loadSlot sl s).mem = s.mem := rfl
@[simp] theorem loadSlot_resetCount (sl : Slot) : (loadSlot sl s).resetCount = s.resetCount := rfl
@[simp] theorem loadSlot_bound (sl : Slot) : (loadSlot sl s).bound = s.bound := rfl
@[simp] theorem loadSlot_tx (sl : Slot) : (loadSlot sl s).tx = s.tx := rfl
@[simp] theorem loadSlot_txGrant (sl : Slot) : (loadSlot sl s).txGrant = s.txGrant := rfl
@[simp] theorem loadSlot_rx (sl : Slot) : (loadSlot sl s).rx = s.rx := rfl
@[simp] theorem loadSlot_dmxState (sl : Slot) : (loadSlot sl s).dmxState = s.dmxState := rfl
@[simp] theorem loadSlot_dmxValid (sl : Slot) : (loadSlot sl s).dmxValid = s.dmxValid := rfl
@[simp] theorem loadSlot_dmxIdx (sl : Slot) : (loadSlot sl s).dmxIdx = s.dmxIdx := rfl
@[simp] theorem loadSlot_dmxMask (sl : Slot) : (loadSlot sl s).dmxMask = s.dmxMask := rfl
@[simp] theorem loadSlot_dmxWords (sl : Slot) : (loadSlot sl s).dmxWords = s.dmxWords := rfl
@[simp] theorem loadSlot_ports (sl : Slot) : (loadSlot sl s).ports = s.ports := rfl
@[simp] theorem loadSlot_initDone (sl : Slot) : (loadSlot sl s).initDone = s.initDone := rfl
@[simp] theorem loadSlot_history (sl : Slot) : (loadSlot sl s).history = s.history := rfl
@[simp] theorem loadSlot_peerStuck (sl : Slot) : (loadSlot sl s).peerStuck = s.peerStuck := rfl
@[simp] theorem loadSlot_agenda (sl : Slot) : (loadSlot sl s).agenda = s.agenda.tail := rfl
@[simp] theorem loadSlot_draws (sl : Slot) : (loadSlot sl s).draws = sl.draws := rfl
@[simp] theorem loadSlot_stepCount (sl : Slot) : (loadSlot sl s).stepCount = s.stepCount + 1 := rfl

@[simp] theorem takeSlot_cfg : (takeSlot s).cfg = s.cfg := rfl
@[simp] theorem takeSlot_c2dEn : (takeSlot s).c2dEn = s.c2dEn := rfl
@[simp] theorem takeSlot_c2dStat : (takeSlot s).c2dStat = s.c2dStat := rfl
@[simp] theorem takeSlot_d2cEn : (takeSlot s).d2cEn = s.d2cEn := rfl
@[simp] theorem takeSlot_d2cStat : (takeSlot s).d2cStat = s.d2cStat := rfl
@[simp] theorem takeSlot_mem : (takeSlot s).mem = s.mem := rfl
@[simp] theorem takeSlot_resetCount : (takeSlot s).resetCount = s.resetCount := rfl
@[simp] theorem takeSlot_bound : (takeSlot s).bound = s.bound := rfl
@[simp] theorem takeSlot_tx : (takeSlot s).tx = s.tx := rfl
@[simp] theorem takeSlot_txGrant : (takeSlot s).txGrant = s.txGrant := rfl
@[simp] theorem takeSlot_rx : (takeSlot s).rx = s.rx := rfl
@[simp] theorem takeSlot_dmxState : (takeSlot s).dmxState = s.dmxState := rfl
@[simp] theorem takeSlot_dmxValid : (takeSlot s).dmxValid = s.dmxValid := rfl
@[simp] theorem takeSlot_dmxIdx : (takeSlot s).dmxIdx = s.dmxIdx := rfl
@[simp] theorem takeSlot_dmxMask : (takeSlot s).dmxMask = s.dmxMask := rfl
@[simp] theorem takeSlot_dmxWords : (takeSlot s).dmxWords = s.dmxWords := rfl
@[simp] theorem takeSlot_ports : (takeSlot s).ports = s.ports := rfl
@[simp] theorem takeSlot_initDone : (takeSlot s).initDone = s.initDone := rfl
@[simp] theorem takeSlot_history : (takeSlot s).history = s.history := rfl
@[simp] theorem takeSlot_peerStuck : (takeSlot s).peerStuck = s.peerStuck := rfl
@[simp] theorem takeSlot_agenda : (takeSlot s).agenda = s.agenda.tail := rfl
@[simp] theorem takeSlot_draws : (takeSlot s).draws = (nextSlot s).draws := rfl
@[simp] theorem takeSlot_stepCount : (takeSlot s).stepCount = s.stepCount + 1 := rfl

end Sys2Proof.Machine
end

