-- ==== Sys2Proof/Laws/Memory.lean ====
section
/-! SUPPORT. The memory laws: a read after a write, and the canonical form is kept. -/

namespace Sys2Proof.Machine

/-- A byte reads back as written, and every other byte as before. -/
theorem Memory.find_write (m : List Host.Cell) (a : Nat) (v : Byte) (b : Nat) :
    Memory.find (Memory.write m a v) b = if b = a then some v else Memory.find m b := by
  induction m with
  | nil =>
    by_cases h : b = a
    · simp [Memory.write, Memory.find, h]
    · simp [Memory.write, Memory.find, h, Ne.symm h]
  | cons x rest ih =>
    simp only [Memory.write]
    split
    · by_cases h : b = a
      · simp [Memory.find, h]
      · simp [Memory.find, h, Ne.symm h]
    · split
      · subst a
        by_cases h : b = x.1
        · simp [Memory.find, h]
        · simp [Memory.find, h, Ne.symm h]
      · simp only [Memory.find, ih]
        by_cases h : b = a
        · have : x.1 ≠ a := fun e => by omega
          simp [h, this]
        · simp [h]

/-- Every address a write lists was listed before or is the one written. -/
theorem Memory.mem_write {m : List Host.Cell} {a : Nat} {v : Byte} {y : Host.Cell} (h : y ∈ Memory.write m a v) :
    y = (a, v) ∨ y ∈ m := by
  induction m with
  | nil => simpa [Memory.write] using h
  | cons x rest ih =>
    simp only [Memory.write] at h
    split at h
    · simpa using h
    · split at h
      · rcases List.mem_cons.1 h with h | h
        · exact .inl h
        · exact .inr (List.mem_cons_of_mem _ h)
      · rcases List.mem_cons.1 h with h | h
        · exact .inr (h ▸ List.mem_cons_self)
        · exact (ih h).imp id (List.mem_cons_of_mem _)

/-- A write keeps the canonical form. -/
theorem Memory.write_wf {m : List Host.Cell} (h : Memory.wf m) (a : Nat) (v : Byte) : Memory.wf (Memory.write m a v) := by
  induction m with
  | nil => simp [Memory.write, Memory.wf]
  | cons x rest ih =>
    obtain ⟨hx, hr⟩ := List.pairwise_cons.1 h
    simp only [Memory.write]
    split
    case isTrue hlt =>
      refine List.pairwise_cons.2 ⟨fun y hy => ?_, h⟩
      rcases List.mem_cons.1 hy with rfl | hy
      · exact hlt
      · exact Nat.lt_trans hlt (hx y hy)
    case isFalse hlt =>
      split
      case isTrue he => exact List.pairwise_cons.2 ⟨fun y hy => he ▸ hx y hy, hr⟩
      case isFalse hne =>
        refine List.pairwise_cons.2 ⟨fun y hy => ?_, ih hr⟩
        rcases Memory.mem_write hy with rfl | hy
        · simp only; omega
        · exact hx y hy

/-- A word write stores its four bytes and leaves every other byte. -/
theorem Memory.find_writeWord (m : List Host.Cell) (a : Nat) (v : Word) (b : Nat) :
    Memory.find (Memory.writeWord m a v) b =
      if b = a then some (leByte v 0) else if b = a + 1 then some (leByte v 1)
      else if b = a + 2 then some (leByte v 2) else if b = a + 3 then some (leByte v 3) else Memory.find m b := by
  simp only [Memory.writeWord, Memory.find_write]
  split_ifs <;> first | rfl | omega

/-- A word write keeps the canonical form. -/
theorem Memory.writeWord_wf {m : List Host.Cell} (h : Memory.wf m) (a : Nat) (v : Word) :
    Memory.wf (Memory.writeWord m a v) :=
  Memory.write_wf (Memory.write_wf (Memory.write_wf (Memory.write_wf h _ _) _ _) _ _) _ _

/-- Every address a word write lists was listed before or is one of the four written. -/
theorem Memory.mem_writeWord {m : List Host.Cell} {a : Nat} {v : Word} {y : Host.Cell}
    (h : y ∈ Memory.writeWord m a v) : (a ≤ y.1 ∧ y.1 < a + 4) ∨ y ∈ m := by
  simp only [Memory.writeWord] at h
  rcases Memory.mem_write h with rfl | h
  · left; simp
  rcases Memory.mem_write h with rfl | h
  · left; simp
  rcases Memory.mem_write h with rfl | h
  · left; simp
  rcases Memory.mem_write h with rfl | h
  · left; simp
  · exact .inr h

/-- The memory of the reset state is in canonical form. -/
theorem Memory.reset_wf : Memory.wf State.reset.mem := List.Pairwise.nil

/-- A read depends on the memory and the reset count only. -/
theorem readByte_congr {s t : State} (hm : t.mem = s.mem) (hc : t.resetCount = s.resetCount) (a : Nat) :
    readByte t a = readByte s a := by simp [readByte, hm, hc]

end Sys2Proof.Machine
end

