-- ==== Sys2Proof/Laws/Ops.lean ====
section
/-! SUPPORT. One lemma per shared operation that says everything it can do; later proofs cite these. -/

namespace Sys2Proof.Machine

/-! ## Issuing and accessing -/

theorem portFree_iff (s : State) (p : Nat) :
    portFree s p = true ↔ ∃ x, s.ports[p]? = some x ∧ x.state = .free := by
  unfold portFree
  cases h : s.ports[p]? with
  | none => simp
  | some x => simp

theorem issue_ok {p : Nat} {i : Instr} {rule : State → State} {s : State} (h : mayIssue p s) :
    issue p i rule s = .next (rule (s.log (cmdRecord p i))) := by
  have := (portFree_iff s p).2 h.2
  simp [issue, h.1, this, cmdRecord]

theorem issue_stop {p : Nat} {i : Instr} {rule : State → State} {s : State} (h : ¬ mayIssue p s) :
    issue p i rule s = .fault .cannotIssue := by
  have : ¬ (s.initDone && portFree s p) = true := by
    intro hc
    rw [Bool.and_eq_true] at hc
    exact h ⟨hc.1, (portFree_iff s p).1 hc.2⟩
  simp only [issue]
  rw [if_neg this]

theorem issue_next {p : Nat} {i : Instr} {rule : State → State} {s t : State} (h : issue p i rule s = .next t) :
    mayIssue p s ∧ t = rule (s.log (cmdRecord p i)) := by
  by_cases hm : mayIssue p s
  · rw [issue_ok hm] at h
    exact ⟨hm, by injection h with h; exact h.symm⟩
  · rw [issue_stop hm] at h
    cases h

theorem access_ok {ag : Issuer} {effect : State → State} {s : State} (h : mayAccess ag s) :
    access ag effect s = .next (effect s) := by
  unfold access
  by_cases hp : ag = .peer
  · simp [h hp]
  · simp [hp]

theorem access_next {ag : Issuer} {effect : State → State} {s t : State} (h : access ag effect s = .next t) :
    mayAccess ag s ∧ t = effect s := by
  unfold access at h
  split at h
  · cases h
  case isFalse hc =>
    refine ⟨fun hp => ?_, by injection h with h; exact h.symm⟩
    simpa [hp] using hc

/-! ## Responses -/

/-- `respond` frees the port and appends the response; nothing else changes (R96). -/
theorem respond_eq (p : Nat) (code : StatusCode) (ready : Bool) (data : Option Msg) (s : State) :
    respond p code ready data s =
      { s with ports := s.ports.set p Port.atReset, history := s.history ++ [respRecord p code ready data] } := rfl

theorem raise_eq (p : Nat) (code : StatusCode) (s : State) :
    raise p code s =
      { s with ports := s.ports.set p Port.atReset, history := s.history ++ [respRecord p code false none] } := rfl

/-- A command whose rule answers at once gives the answered state. -/
theorem respond_log (p : Nat) (i : Instr) (code : StatusCode) (ready : Bool) (data : Option Msg) (s : State) :
    respond p code ready data (s.log (cmdRecord p i)) = answered p i code ready data s := by
  simp [respond_eq, answered, State.log]

/-! ## Register writes -/

theorem regWrite_c2dEn (ag : Issuer) (v : Word) (s : State) :
    regWrite ag .c2dEn v s =
      { s with c2dEn := v, history := s.history ++ [.mmio ag .write (s.cfg.regBase + 0x00) v] } := rfl

theorem regWrite_d2cEn (ag : Issuer) (v : Word) (s : State) :
    regWrite ag .d2cEn v s =
      { s with d2cEn := v, history := s.history ++ [.mmio ag .write (s.cfg.regBase + 0x1c) v] } := rfl

theorem regWrite_c2dSet (ag : Issuer) (v : Word) (s : State) :
    regWrite ag .c2dSet v s =
      { s with c2dStat := s.c2dStat ||| v, history := s.history ++ [.mmio ag .write (s.cfg.regBase + 0x04) v] } := rfl

theorem regWrite_d2cSet (ag : Issuer) (v : Word) (s : State) :
    regWrite ag .d2cSet v s =
      { s with d2cStat := s.d2cStat ||| v, history := s.history ++ [.mmio ag .write (s.cfg.regBase + 0x14) v] } := rfl

theorem regWrite_c2dClr (ag : Issuer) (v : Word) (s : State) :
    regWrite ag .c2dClr v s =
      { s with
        c2dStat := if clearTakes ag .c2dClr v s then s.c2dStat &&& ~~~v else s.c2dStat
        history := s.history ++ [.mmio ag .write (s.cfg.regBase + 0x08) v] } := by
  simp only [regWrite, regEffect, regAddr, Reg.offset, State.log]
  split <;> rfl

theorem regWrite_d2cClr (ag : Issuer) (v : Word) (s : State) :
    regWrite ag .d2cClr v s =
      { s with
        d2cStat := if clearTakes ag .d2cClr v s then s.d2cStat &&& ~~~v else s.d2cStat
        history := s.history ++ [.mmio ag .write (s.cfg.regBase + 0x18) v] } := by
  simp only [regWrite, regEffect, regAddr, Reg.offset, State.log]
  split <;> rfl

/-- A register write changes the register file and the history only. -/
theorem regWrite_frame (ag : Issuer) (r : Reg) (v : Word) (s : State) :
    { regWrite ag r v s with
      c2dEn := s.c2dEn, c2dStat := s.c2dStat, d2cEn := s.d2cEn, d2cStat := s.d2cStat, history := s.history } = s := by
  cases r <;> simp only [regWrite, regEffect, State.log] <;> (try split) <;> rfl

/-! ## Buffer accesses -/

/-- A buffer write stores its four bytes, and every other byte reads as before (R141). -/
theorem readByte_bufWrite (ag : Issuer) (i : Fin 16) (k : Fin 8) (v : Word) (s : State) (b : Nat) :
    readByte (bufWrite ag i k v s) b =
      if b = bufWordAddr s.cfg i k then leByte v 0 else if b = bufWordAddr s.cfg i k + 1 then leByte v 1
      else if b = bufWordAddr s.cfg i k + 2 then leByte v 2 else if b = bufWordAddr s.cfg i k + 3 then leByte v 3
      else readByte s b := by
  simp only [readByte, bufWrite, State.log_mem, State.log_resetCount, Memory.find_writeWord]
  split_ifs <;> rfl

/-- The word read from the buffers holds the bytes at its four addresses (R64). -/
theorem leByte_readWord (s : State) (a : Nat) :
    leByte (readWord s a) 0 = readByte s a ∧ leByte (readWord s a) 1 = readByte s (a + 1) ∧
      leByte (readWord s a) 2 = readByte s (a + 2) ∧ leByte (readWord s a) 3 = readByte s (a + 3) :=
  leByte_le32 _ _ _ _

/-! ## The priority encoder -/

theorem mem_positions (p : Fin 16) : p ∈ positions := by
  fin_cases p <;> simp [positions]

theorem positions_sorted : positions.Pairwise (· < ·) := by decide

/-- PRIO_ENC returns the lowest fired position, or says that none has fired (R150). -/
theorem prioEnc_cases (s : Word) :
    ((prioEnc s).1 = true ∧ fired s (prioEnc s).2 = true ∧ ∀ p, p < (prioEnc s).2 → fired s p = false) ∨
      (prioEnc s = (false, 0) ∧ ∀ p, fired s p = false) := by
  unfold prioEnc
  cases h : positions.find? (fired s) with
  | none =>
    right
    refine ⟨rfl, fun p => ?_⟩
    simpa using List.find?_eq_none.1 h p (mem_positions p)
  | some i =>
    left
    obtain ⟨hi, as, bs, hl, hn⟩ := List.find?_eq_some_iff_append.1 h
    refine ⟨rfl, hi, fun p hp => ?_⟩
    have hm : p ∈ as := by
      have hmem := mem_positions p
      have hs := positions_sorted
      rw [hl] at hmem hs
      rcases List.mem_append.1 hmem with hm | hm
      · exact hm
      · have hb := (List.pairwise_append.1 hs).2.1
        rcases List.mem_cons.1 hm with rfl | hm
        · exact absurd hp (lt_irrefl _)
        · exact absurd hp (lt_asymm ((List.pairwise_cons.1 hb).1 p hm))
    simpa using hn p hm

/-! ## The range split -/

theorem rangeSplit_rx (r : RxCh) (d : Fin 16) (h : d.val = r.val) : rangeSplit d = .arrival r := by
  have : d.val < 8 := by omega
  simp only [rangeSplit, this, dite_true]
  congr 1
  exact Fin.ext h

theorem rangeSplit_tx (c : TxCh) (d : Fin 16) (h : d.val = c.val + 8) : rangeSplit d = .ack c := by
  have : ¬ d.val < 8 := by omega
  simp only [rangeSplit, this, dite_false]
  congr 1
  apply Fin.ext
  simp only
  omega

theorem rangeSplit_cases (d : Fin 16) :
    (∃ r : RxCh, d.val = r.val ∧ rangeSplit d = .arrival r) ∨ ∃ c : TxCh, d.val = c.val + 8 ∧ rangeSplit d = .ack c := by
  by_cases h : d.val < 8
  · exact .inl ⟨⟨d.val, h⟩, rfl, rangeSplit_rx _ _ rfl⟩
  · exact .inr ⟨⟨d.val - 8, by omega⟩, by simp only; omega, rangeSplit_tx _ _ (by simp only; omega)⟩

theorem txChannel_val (c : TxCh) : txChannel c.val = some c := by simp [txChannel]

theorem rxChannel_val (r : RxCh) : rxChannel (r.val + 8) = some r := by
  have : r.val < 8 := r.isLt
  simp [rxChannel, this]

theorem txChannel_none {ch : Nat} (h : 8 ≤ ch) : txChannel ch = none := by
  simp [txChannel, Nat.not_lt.2 h]

theorem rxChannel_none {ch : Nat} (h : ch < 8 ∨ 16 ≤ ch) : rxChannel ch = none := by
  simp only [rxChannel]
  rw [dif_neg (by omega)]

end Sys2Proof.Machine
end

