-- ==== Sys2Proof/Laws/Step.lean ====
section
/-! SUPPORT. What one step can do, said once: every invariant of `step` follows from the same invariant of `exec`. -/

namespace Sys2Proof.Machine

/-- The three ways the step of a slot answers a next state: it passes over the proposal, it leaves the peer stuck, or it runs
a decoded instruction. -/
theorem stepOn_cases {sl : Slot} {s t : State} (h : stepOn sl s = .next t) :
    configLegal s.cfg = true ∧
      (t = loadSlot sl s ∨
        (∃ dir width addr data, sl.proposal = .access .peer dir width addr data ∧
          (∃ e, decodeAccess s.cfg .peer dir width addr data = .error e) ∧ t = stallPeer (loadSlot sl s)) ∨
        ∃ i, decode s.cfg sl.proposal = .ok i ∧ standsAlone i = true ∧ exec i (loadSlot sl s) = .next t) := by
  unfold stepOn at h
  split at h
  case isFalse => cases h
  case isTrue hc =>
    refine ⟨hc, ?_⟩
    cases hd : decode s.cfg sl.proposal with
    | ok i =>
      rw [hd] at h
      simp only at h
      split at h
      case isFalse => exact .inl (by injection h with h; exact h.symm)
      case isTrue hs =>
        cases he : exec i (loadSlot sl s) with
        | next u =>
          rw [he] at h
          exact .inr (.inr ⟨i, rfl, hs, by simp only [passOver] at h; rw [← h]; exact he⟩)
        | fault f =>
          rw [he] at h
          exact .inl (by simp only [passOver] at h; injection h with h; exact h.symm)
        | refused r => rw [he] at h; cases h
    | error e =>
      rw [hd] at h
      have h' : rejectProposal sl.proposal (loadSlot sl s) = t := by simpa using h
      cases hp : sl.proposal with
      | command p w m => rw [hp] at hd; cases hd
      | event i => rw [hp] at h'; exact .inl h'.symm
      | access ag dir width addr data =>
        rw [hp] at h' hd
        cases ag with
        | peer => exact .inr (.inl ⟨dir, width, addr, data, rfl, ⟨e, hd⟩, h'.symm⟩)
        | demux => exact .inl h'.symm
        | txeng => exact .inl h'.symm
        | init => exact .inl h'.symm

/-- The same for the machine's own schedule. -/
theorem step_cases {s t : State} (h : step s = .next t) :
    configLegal s.cfg = true ∧
      (t = takeSlot s ∨
        (∃ dir width addr data, (nextSlot s).proposal = .access .peer dir width addr data ∧
          (∃ e, decodeAccess s.cfg .peer dir width addr data = .error e) ∧ t = stallPeer (takeSlot s)) ∨
        ∃ i, decode s.cfg (nextSlot s).proposal = .ok i ∧ standsAlone i = true ∧ exec i (takeSlot s) = .next t) :=
  stepOn_cases h

/-- The instruction a slot's step takes runs on the state with the slot taken. -/
theorem taken_exec {sl : Slot} {s t : State} {i : Instr} (h : stepOn sl s = .next t) (hi : taken sl s = some i) :
    exec i (loadSlot sl s) = .next t := by
  unfold taken at hi
  cases hd : decode s.cfg sl.proposal with
  | error e => rw [hd] at hi; cases hi
  | ok j =>
    rw [hd] at hi
    simp only at hi
    split at hi
    case isFalse => cases hi
    case isTrue hs =>
      injection hi with hi
      subst hi
      obtain ⟨hs, hn⟩ := Bool.and_eq_true_iff.1 hs
      unfold stepOn at h
      split at h
      case isFalse => cases h
      case isTrue =>
        rw [hd] at h
        simp only [hs, if_true] at h
        cases he : exec j (loadSlot sl s) with
        | next u => rw [he] at h; exact h
        | fault f => rw [he] at hn; cases hn
        | refused r => rw [he] at hn; cases hn

/-- A slot's step runs the instruction it takes, or only takes the slot and may leave the peer stuck. -/
theorem stepOn_taken {sl : Slot} {s t : State} (h : stepOn sl s = .next t) :
    (∃ i, taken sl s = some i ∧ standsAlone i = true ∧ exec i (loadSlot sl s) = .next t) ∨
      t = loadSlot sl s ∨ t = stallPeer (loadSlot sl s) := by
  rcases (stepOn_cases h).2 with rfl | ⟨_, _, _, _, _, _, rfl⟩ | ⟨i, hd, hs, he⟩
  · exact .inr (.inl rfl)
  · exact .inr (.inr rfl)
  · exact .inl ⟨i, by unfold taken; rw [hd]; simp only [hs, he, isNext, Bool.and_self, if_true], hs, he⟩

/-- The step of any slot is the machine's own step, once that slot is the next of the agenda. -/
theorem stepOn_eq_step (sl : Slot) (s : State) : stepOn sl s = step { s with agenda := sl :: s.agenda.tail } := rfl

/-- The instruction that step `n` of a run takes runs on the state with the slot taken. -/
theorem takes_exec {sched : Nat → Slot} {σ : Nat → State} {n : Nat} {i : Instr} (h : IsRun sched σ)
    (hi : Takes sched σ n i) : exec i (loadSlot (sched n) (σ n)) = .next (σ (n + 1)) := taken_exec (h n) hi

end Sys2Proof.Machine
end

