-- ==== Sys2Proof/Laws/Exec.lean ====
section
/-! SUPPORT. `exec` of each command and access as its shared operation, once the step is enabled, and the converse. -/

namespace Sys2Proof.Machine

theorem issuerAgent_ne_port (ag : Issuer) (p : Nat) : issuerAgent ag ≠ .port p := by
  cases ag <;> simp [issuerAgent]

theorem exec_c2dEnR {ag : Issuer} {s : State} (h : mayAccess ag s) :
    exec (.c2dEnR ag) s = .next (regRead ag .c2dEn s).2 := access_ok (effect := fun s => (regRead ag .c2dEn s).2) h

theorem exec_c2dEnW {ag : Issuer} {v : Word} {s : State} (h : mayAccess ag s) :
    exec (.c2dEnW ag v) s = .next (regWrite ag .c2dEn v s) := access_ok h

theorem exec_c2dSetR {ag : Issuer} {s : State} (h : mayAccess ag s) :
    exec (.c2dSetR ag) s = .next (regRead ag .c2dSet s).2 := access_ok (effect := fun s => (regRead ag .c2dSet s).2) h

theorem exec_c2dSetW {ag : Issuer} {v : Word} {s : State} (h : mayAccess ag s) :
    exec (.c2dSetW ag v) s = .next (regWrite ag .c2dSet v s) := access_ok h

theorem exec_c2dClrR {ag : Issuer} {s : State} (h : mayAccess ag s) :
    exec (.c2dClrR ag) s = .next (regRead ag .c2dClr s).2 := access_ok (effect := fun s => (regRead ag .c2dClr s).2) h

theorem exec_c2dClrW {ag : Issuer} {v : Word} {s : State} (h : mayAccess ag s) :
    exec (.c2dClrW ag v) s = .next (regWrite ag .c2dClr v s) := access_ok h

theorem exec_c2dStatR {ag : Issuer} {s : State} (h : mayAccess ag s) :
    exec (.c2dStatR ag) s = .next (regRead ag .c2dStat s).2 := access_ok (effect := fun s => (regRead ag .c2dStat s).2) h

theorem exec_c2dStatW {ag : Issuer} {v : Word} {s : State} (h : mayAccess ag s) :
    exec (.c2dStatW ag v) s = .next (regWrite ag .c2dStat v s) := access_ok h

theorem exec_rsvdR {ag : Issuer} {s : State} (h : mayAccess ag s) :
    exec (.rsvdR ag) s = .next (regRead ag .rsvd s).2 := access_ok (effect := fun s => (regRead ag .rsvd s).2) h

theorem exec_rsvdW {ag : Issuer} {v : Word} {s : State} (h : mayAccess ag s) :
    exec (.rsvdW ag v) s = .next (regWrite ag .rsvd v s) := access_ok h

theorem exec_d2cSetR {ag : Issuer} {s : State} (h : mayAccess ag s) :
    exec (.d2cSetR ag) s = .next (regRead ag .d2cSet s).2 := access_ok (effect := fun s => (regRead ag .d2cSet s).2) h

theorem exec_d2cSetW {ag : Issuer} {v : Word} {s : State} (h : mayAccess ag s) :
    exec (.d2cSetW ag v) s = .next (regWrite ag .d2cSet v s) := access_ok h

theorem exec_d2cClrR {ag : Issuer} {s : State} (h : mayAccess ag s) :
    exec (.d2cClrR ag) s = .next (regRead ag .d2cClr s).2 := access_ok (effect := fun s => (regRead ag .d2cClr s).2) h

theorem exec_d2cClrW {ag : Issuer} {v : Word} {s : State} (h : mayAccess ag s) :
    exec (.d2cClrW ag v) s = .next (regWrite ag .d2cClr v s) := access_ok h

theorem exec_d2cEnR {ag : Issuer} {s : State} (h : mayAccess ag s) :
    exec (.d2cEnR ag) s = .next (regRead ag .d2cEn s).2 := access_ok (effect := fun s => (regRead ag .d2cEn s).2) h

theorem exec_d2cEnW {ag : Issuer} {v : Word} {s : State} (h : mayAccess ag s) :
    exec (.d2cEnW ag v) s = .next (regWrite ag .d2cEn v s) := access_ok h

theorem exec_d2cStatR {ag : Issuer} {s : State} (h : mayAccess ag s) :
    exec (.d2cStatR ag) s = .next (regRead ag .d2cStat s).2 := access_ok (effect := fun s => (regRead ag .d2cStat s).2) h

theorem exec_d2cStatW {ag : Issuer} {v : Word} {s : State} (h : mayAccess ag s) :
    exec (.d2cStatW ag v) s = .next (regWrite ag .d2cStat v s) := access_ok h

theorem exec_bufR {ag : Issuer} {i : Fin 16} {k : Fin 8} {s : State} (h : mayAccess ag s) :
    exec (.bufR ag i k) s = .next (bufRead ag i k s).2 := access_ok (effect := fun s => (bufRead ag i k s).2) h

theorem exec_bufW {ag : Issuer} {i : Fin 16} {k : Fin 8} {v : Word} {s : State} (h : mayAccess ag s) :
    exec (.bufW ag i k v) s = .next (bufWrite ag i k v s) := access_ok h

theorem exec_bind {p ch : Nat} {s : State} (h : mayIssue p s) :
    exec (.bind p ch) s = .next (acceptBind p ch (s.log (cmdRecord p (.bind p ch)))) := issue_ok h

theorem exec_send {p ch : Nat} {m : Msg} {s : State} (h : mayIssue p s) :
    exec (.send p ch m) s = .next (acceptSend p ch m (s.log (cmdRecord p (.send p ch m)))) := issue_ok h

theorem exec_receiveNb {p ch : Nat} {s : State} (h : mayIssue p s) :
    exec (.receiveNb p ch) s = .next (acceptReceiveNb p ch (s.log (cmdRecord p (.receiveNb p ch)))) := issue_ok h

theorem exec_receiveB {p ch b : Nat} {s : State} (h : mayIssue p s) :
    exec (.receiveB p ch b) s = .next (acceptReceiveB p ch b (s.log (cmdRecord p (.receiveB p ch b)))) := issue_ok h

theorem exec_pollReady {p ch : Nat} {s : State} (h : mayIssue p s) :
    exec (.pollReady p ch) s =
      .next (respond p .ok (pollBit ch (s.log (cmdRecord p (.pollReady p ch)))) none
        (s.log (cmdRecord p (.pollReady p ch)))) :=
  issue_ok (rule := fun s => respond p .ok (pollBit ch s) none s) h

theorem exec_registerListener {p ch : Nat} {s : State} (h : mayIssue p s) :
    exec (.registerListener p ch) s =
      .next (acceptRegisterListener p ch (s.log (cmdRecord p (.registerListener p ch)))) := issue_ok h

theorem exec_cancel {p ch : Nat} {s : State} (h : mayIssue p s) :
    exec (.cancel p ch) s = .next (acceptCancel p ch (s.log (cmdRecord p (.cancel p ch)))) := issue_ok h

theorem exec_illegal {p : Nat} {w : Word} {payload : Option Msg} {s : State} (h : mayIssue p s) :
    exec (.illegal p w payload) s =
      .next (raise p .illegalCommand (s.log (cmdRecord p (.illegal p w payload)))) := issue_ok h

/-- The law of R131 as the machine computes it. -/
theorem clearTakes_iff (ag : Issuer) (r : Reg) (v : Word) (s : State) :
    clearTakes ag r v s = true ↔ takesByLaw ag r.offset v s := by
  simp only [clearTakes, takesByLaw, Bool.or_eq_true, lastOfClearRun, List.isSuffixOf_iff_suffix]
  rfl

/-- An address of the register window. -/
theorem inRegWindow_offset (c : Config) {o : Nat} (h : o < 0x24) : inRegWindow c (c.regBase + o) = true := by
  simp [inRegWindow, h]

end Sys2Proof.Machine
end

