-- ==== Sys2Proof/Laws/Next.lean ====
section
/-! SUPPORT. The inversion of each event: when it has a step, what held before and what the next state is. -/

namespace Sys2Proof.Machine

/-- An access that is a step of its own is the peer's (R20). -/
theorem standsAlone_access {i : Instr} {ag : Issuer} (ha : agentOf i = issuerAgent ag) (he : i.isEvent = false)
    (hs : standsAlone i = true) : ag = .peer := by
  cases ag <;> simp [standsAlone, ha, he, issuerAgent] at hs ⊢

/-- An access of the register window that reads leaves its record only. -/
theorem next_regRead {ag : Issuer} {r : Reg} {s t : State}
    (h : access ag (fun s => (regRead ag r s).2) s = .next t) :
    mayAccess ag s ∧ t = s.log (.mmio ag .read (regAddr s.cfg r) (regValue r s)) := access_next h

/-- An access of the buffer window that reads leaves its record only. -/
theorem next_bufRead {ag : Issuer} {i : Fin 16} {k : Fin 8} {s t : State}
    (h : access ag (fun s => (bufRead ag i k s).2) s = .next t) :
    mayAccess ag s ∧ t = s.log (.mmio ag .read (bufWordAddr s.cfg i k) (readWord s (bufWordAddr s.cfg i k))) :=
  access_next h

/-- What `dispatchTarget` says of the state. -/
theorem dispatchTarget_some {s : State} {g : Target} (h : dispatchTarget s = some g) :
    s.dmxState = .dispatch ∧ s.dmxValid = true ∧ rangeSplit s.dmxIdx = g := by
  unfold dispatchTarget at h
  split at h
  case isTrue hc =>
    rw [Bool.and_eq_true, decide_eq_true_eq] at hc
    exact ⟨hc.1, hc.2, by injection h⟩
  case isFalse => cases h

theorem dispatchTarget_eq {s : State} (h1 : s.dmxState = .dispatch) (h2 : s.dmxValid = true) :
    dispatchTarget s = some (rangeSplit s.dmxIdx) := by simp [dispatchTarget, h1, h2]

theorem rangeSplit_arrival {d : Fin 16} {r : RxCh} (h : rangeSplit d = .arrival r) : d.val = r.val := by
  rcases rangeSplit_cases d with ⟨r', hr, e⟩ | ⟨c, hc, e⟩
  · rw [e] at h; injection h with h; rw [← h]; exact hr
  · rw [e] at h; cases h

theorem rangeSplit_ack {d : Fin 16} {c : TxCh} (h : rangeSplit d = .ack c) : d.val = c.val + 8 := by
  rcases rangeSplit_cases d with ⟨r', hr, e⟩ | ⟨c', hc, e⟩
  · rw [e] at h; cases h
  · rw [e] at h; injection h with h; rw [← h]; exact hc

theorem next_inj {s t : State} (h : (Host.Outcome.next s : Result) = .next t) : t = s := by
  injection h with h; exact h.symm

theorem next_dmxStart {s t : State} (h : exec .dmxStart s = .next t) :
    s.initDone = true ∧ s.dmxState = .idle ∧ (irqCpu s = true ∨ s.draws.spuriousTrigger = true) ∧
      t = enterInvocation s.d2cStat (regRead .demux .d2cStat s).2 := by
  simp only [exec, execDmxStart] at h
  split at h
  case isTrue hc =>
    simp only [Bool.and_eq_true, Bool.or_eq_true, decide_eq_true_eq] at hc
    exact ⟨hc.1.1, hc.1.2, hc.2, next_inj h⟩
  case isFalse => cases h

theorem next_dmxClear {s t : State} (h : exec .dmxClear s = .next t) :
    ∃ n, s.dmxState = .clearing n ∧ t = { regWrite .demux .d2cClr s.dmxMask s with dmxState := afterClear n } := by
  simp only [exec, execDmxClear] at h
  split at h
  case h_1 n hn => exact ⟨n, hn, next_inj h⟩
  all_goals cases h

theorem next_dmxSpurious {s t : State} (h : exec .dmxSpurious s = .next t) :
    s.dmxState = .dispatch ∧ s.dmxValid = false ∧ t = leaveInvocation (report .spuriousInterrupt 0 s) := by
  simp only [exec, execDmxSpurious] at h
  split at h
  case isTrue hc => exact ⟨hc.1, hc.2, next_inj h⟩
  case isFalse => cases h

theorem next_dmxTxack {s t : State} (h : exec .dmxTxack s = .next t) :
    s.dmxState = .dispatch ∧ s.dmxValid = true ∧ ∃ c : TxCh, s.dmxIdx.val = c.val + 8 ∧ s.bound[c.val] = true ∧
      t = leaveInvocation (if s.tx[c].state = .waitAck then completeSend c .ok s else report .staleAck c.val s) := by
  simp only [exec, execDmxTxack] at h
  split at h
  case h_1 c hd =>
    obtain ⟨h1, h2, h3⟩ := dispatchTarget_some hd
    split at h
    case isTrue hb => exact ⟨h1, h2, c, rangeSplit_ack h3, hb, next_inj h⟩
    case isFalse => cases h
  all_goals cases h

theorem next_dmxTxackUnbound {s t : State} (h : exec .dmxTxackUnbound s = .next t) :
    s.dmxState = .dispatch ∧ s.dmxValid = true ∧ ∃ c : TxCh, s.dmxIdx.val = c.val + 8 ∧ s.bound[c.val] = false ∧
      t = leaveInvocation (report .illegalTxChannel c.val s) := by
  simp only [exec, execDmxTxackUnbound] at h
  split at h
  case h_1 c hd =>
    obtain ⟨h1, h2, h3⟩ := dispatchTarget_some hd
    split at h
    case isTrue => cases h
    case isFalse hb => exact ⟨h1, h2, c, rangeSplit_ack h3, Bool.eq_false_iff.2 hb, next_inj h⟩
  all_goals cases h

theorem next_dmxRxDispatch {s t : State} (h : exec .dmxRxDispatch s = .next t) :
    s.dmxState = .dispatch ∧ s.dmxValid = true ∧ ∃ r : RxCh, s.dmxIdx.val = r.val ∧ s.bound[r.val + 8] = true ∧
      t = { s with dmxState := .rxCopy 0 } := by
  simp only [exec, execDmxRxDispatch] at h
  split at h
  case h_1 r hd =>
    obtain ⟨h1, h2, h3⟩ := dispatchTarget_some hd
    split at h
    case isTrue hb => exact ⟨h1, h2, r, rangeSplit_arrival h3, hb, next_inj h⟩
    case isFalse => cases h
  all_goals cases h

theorem next_dmxRxUnbound {s t : State} (h : exec .dmxRxUnbound s = .next t) :
    s.dmxState = .dispatch ∧ s.dmxValid = true ∧ ∃ r : RxCh, s.dmxIdx.val = r.val ∧ s.bound[r.val + 8] = false ∧
      t = leaveInvocation (report .illegalRxChannel (r.val + 8) s) := by
  simp only [exec, execDmxRxUnbound] at h
  split at h
  case h_1 r hd =>
    obtain ⟨h1, h2, h3⟩ := dispatchTarget_some hd
    split at h
    case isTrue => cases h
    case isFalse hb => exact ⟨h1, h2, r, rangeSplit_arrival h3, Bool.eq_false_iff.2 hb, next_inj h⟩
  all_goals cases h

theorem next_dmxRxRead {s t : State} (h : exec .dmxRxRead s = .next t) :
    ∃ (k : Fin 8) (r : RxCh), s.dmxState = .rxCopy k ∧ s.dmxIdx.val = r.val ∧
      t = { (bufRead .demux (chRx r) k s).2 with
        dmxWords := s.dmxWords.set k.val (bufRead .demux (chRx r) k s).1 k.isLt
        dmxState := afterRead k } := by
  simp only [exec, execDmxRxRead] at h
  split at h
  case h_1 k r hk hr => exact ⟨k, r, hk, rangeSplit_arrival hr, next_inj h⟩
  all_goals cases h

theorem next_dmxRxCommit {s t : State} (h : exec .dmxRxCommit s = .next t) :
    ∃ r : RxCh, s.dmxState = .rxCommit ∧ s.dmxIdx.val = r.val ∧
      t = { s.setRx r { s.rx[r] with buf := msgOf s.dmxWords, ready := true } with dmxState := .rearm } := by
  simp only [exec, execDmxRxCommit] at h
  split at h
  case h_1 r hk hr => exact ⟨r, hk, rangeSplit_arrival hr, next_inj h⟩
  all_goals cases h

theorem next_dmxRearm {s t : State} (h : exec .dmxRearm s = .next t) :
    ∃ r : RxCh, s.dmxState = .rearm ∧ s.dmxIdx.val = r.val ∧
      t = leaveInvocation (regWrite .demux .c2dSet (pmask (chRx r)) s) := by
  simp only [exec, execDmxRearm] at h
  split at h
  case h_1 r hk hr => exact ⟨r, hk, rangeSplit_arrival hr, next_inj h⟩
  all_goals cases h

theorem next_txGrant {c : TxCh} {s t : State} (h : exec (.txGrant c) s = .next t) :
    s.txGrant = none ∧ s.tx[c].state = .sending ∧ s.tx[c].word = 0 ∧ t = { s with txGrant := some c } := by
  simp only [exec, execTxGrant] at h
  split at h
  case isTrue hc => exact ⟨hc.1, hc.2.1, hc.2.2, next_inj h⟩
  case isFalse => cases h

theorem next_txWrite {s t : State} (h : exec .txWrite s = .next t) :
    ∃ (c : TxCh) (k : Fin 8), s.txGrant = some c ∧ s.tx[c].word = k.val ∧
      t = (bufWrite .txeng (chTx c) k (wordOf s.tx[c].payload k) s).setTx c { s.tx[c] with word := k.val + 1 } := by
  simp only [exec, execTxWrite] at h
  split at h
  case h_1 => cases h
  case h_2 c hg =>
    split at h
    case isTrue hk => exact ⟨c, ⟨s.tx[c].word, hk⟩, hg, rfl, next_inj h⟩
    case isFalse => cases h

theorem next_txSet {s t : State} (h : exec .txSet s = .next t) :
    ∃ c : TxCh, s.txGrant = some c ∧ s.tx[c].word = 8 ∧
      t = { (regWrite .txeng .c2dSet (pmask (chTx c)) s).setTx c { s.tx[c] with state := .waitAck, elapsed := 0, word := 0 }
        with txGrant := none } := by
  simp only [exec, execTxSet] at h
  split at h
  case h_1 => cases h
  case h_2 c hg =>
    split at h
    case isTrue hk => exact ⟨c, hg, hk, next_inj h⟩
    case isFalse => cases h

theorem next_txTimeout {c : TxCh} {s t : State} (h : exec (.txTimeout c) s = .next t) :
    s.tx[c].state = .waitAck ∧ s.cfg.tSendTimeout ≤ s.tx[c].elapsed ∧ t = completeSend c .sendTimeout s := by
  simp only [exec, execTxTimeout] at h
  split at h
  case isTrue hc => exact ⟨hc.1, hc.2, next_inj h⟩
  case isFalse => cases h

theorem next_waitConsume {p : Nat} {s t : State} (h : exec (.waitConsume p) s = .next t) :
    ∃ (r : RxCh) (b e : Nat), s.ports[p]? = some { state := .waiting r b, elapsed := e } ∧ s.rx[r].readySync = true ∧
      t = consume p r s := by
  simp only [exec, execWaitConsume] at h
  split at h
  case h_1 r b e hp =>
    split at h
    case isTrue hr => exact ⟨r, b, e, hp, hr, next_inj h⟩
    case isFalse => cases h
  all_goals cases h

theorem next_waitTimeout {p : Nat} {s t : State} (h : exec (.waitTimeout p) s = .next t) :
    ∃ (r : RxCh) (b e : Nat), s.ports[p]? = some { state := .waiting r b, elapsed := e } ∧ b ≠ 0 ∧ b ≤ e ∧
      t = respond p .recvTimeout false none s := by
  simp only [exec, execWaitTimeout] at h
  split at h
  case h_1 r b e hp =>
    split at h
    case isTrue hr => exact ⟨r, b, e, hp, hr.1, hr.2, next_inj h⟩
    case isFalse => cases h
  all_goals cases h

/-- The loop of SYNC appends one NOTIFY for each listener, in ascending port order (R250). -/
theorem foldl_notifyOne (r : RxCh) (l : List Nat) (s : State) :
    l.foldl (notifyOne r) s =
      { s with history := s.history ++ (l.filter (isListener s r)).map fun q => Record.notify q (r.val + 8) } := by
  induction l generalizing s with
  | nil => simp
  | cons q l ih =>
    have e : isListener (notifyOne r s q) r = isListener s r := by
      funext q'; unfold notifyOne; split <;> rfl
    rw [List.foldl_cons, ih, e]
    unfold notifyOne
    by_cases h : isListener s r q = true
    · simp [h, notify, State.log, chRx]
    · simp [h]

theorem next_sync {r : RxCh} {s t : State} (h : exec (.sync r) s = .next t) :
    s.rx[r].readySync ≠ s.rx[r].ready ∧
      t = { s with
        rx := s.rx.set r.val { s.rx[r] with readySync := true } r.isLt
        history := s.history ++
          ((List.range s.cfg.numPorts).filter (isListener s r)).map fun q => Record.notify q (r.val + 8) } := by
  simp only [exec, execSync] at h
  split at h
  case isTrue hc =>
    refine ⟨hc, ?_⟩
    have e : isListener (s.setRx r { s.rx[r] with readySync := true }) r = isListener s r := by
      funext q; simp [isListener]
    rw [next_inj h, foldl_notifyOne, e]
    rfl
  case isFalse => cases h

theorem next_tick {s t : State} (h : exec .tick s = .next t) :
    t = { s with
      tx := Vector.ofFn fun c : Fin 8 => tickTx s.cfg.tSendTimeout s.tx[c]
      ports := s.ports.map tickPort } := next_inj h

theorem next_init {s t : State} (h : exec .init s = .next t) :
    s.initDone = false ∧ t = { regWrite .init .d2cEn 0xFFFFFFFF s with initDone := true } := by
  simp only [exec, execInit] at h
  split at h
  case isTrue => cases h
  case isFalse hc => exact ⟨by simpa using hc, next_inj h⟩

theorem next_reset {s t : State} (h : exec .reset s = .next t) : t = resetMailbox s := next_inj h

/-- The loop of CANCEL ends the waits of the ports below `n` and appends one response for each (R226). -/
theorem foldl_cancelOne (r : RxCh) (n : Nat) (s : State) :
    (List.range n).foldl (cancelOne r) s =
      { s with
        ports := s.ports.mapIdx fun q x => if q < n then endWait r x else x
        history := s.history ++
          ((List.range n).filter (waitsOn s r)).map fun q => respRecord q .cancelled false none } := by
  induction n with
  | zero =>
    have e : (s.ports.mapIdx fun q x => if q < 0 then endWait r x else x) = s.ports := by
      apply List.ext_getElem?; intro q; simp
    rw [e]; simp
  | succ n ih =>
    rw [List.range_succ, List.foldl_append, ih]
    simp only [List.foldl_cons, List.foldl_nil, List.filter_append, List.map_append, List.filter_cons, List.filter_nil]
    set u : State := { s with
      ports := s.ports.mapIdx fun q x => if q < n then endWait r x else x
      history := s.history ++
        ((List.range n).filter (waitsOn s r)).map fun q => respRecord q .cancelled false none } with hu
    have hw : waitsOn u r n = waitsOn s r n := by
      simp only [waitsOn, hu, List.getElem?_mapIdx]
      cases s.ports[n]? with
      | none => rfl
      | some x => simp
    unfold cancelOne
    rw [hw]
    have ends : ∀ q x, s.ports[q]? = some x → waitsOn s r q = true → endWait r x = Port.atReset := by
      intro q x hq hwq
      obtain ⟨st, el⟩ := x
      cases st <;> simp [waitsOn, hq] at hwq
      simp [endWait, hwq]
    have stays : ∀ q x, s.ports[q]? = some x → waitsOn s r q = false → endWait r x = x := by
      intro q x hq hwq
      obtain ⟨st, el⟩ := x
      cases st <;> simp [waitsOn, hq] at hwq
      all_goals simp [endWait]
      intro h; exact absurd h hwq
    have below : ∀ q, n ≠ q → (q < n + 1 ↔ q < n) := by intro q hq; omega
    by_cases h : waitsOn s r n = true
    · simp only [h, if_true, respond_eq, hu, List.append_assoc, List.map_cons, List.map_nil, State.mk.injEq, true_and,
        and_true]
      apply List.ext_getElem?
      intro q
      simp only [List.getElem?_set, List.getElem?_mapIdx, List.length_mapIdx]
      by_cases hq : n = q
      · subst hq
        cases hx : s.ports[n]? with
        | none => have := List.getElem?_eq_none_iff.1 hx; simp; omega
        | some x => have := (List.getElem?_eq_some_iff.1 hx).1; simp [this, ends n x hx h]
      · cases hx : s.ports[q]? with
        | none => simp [hq]
        | some x => simp [hq, below q hq]
    · have h' : waitsOn s r n = false := by simpa using h
      simp only [h', hu, Bool.false_eq_true, if_false, List.map_nil, List.append_nil, State.mk.injEq, true_and, and_true]
      apply List.ext_getElem?
      intro q
      simp only [List.getElem?_mapIdx]
      by_cases hq : n = q
      · subst hq
        cases hx : s.ports[n]? with
        | none => rfl
        | some x => simp [stays n x hx h']
      · cases hx : s.ports[q]? with
        | none => rfl
        | some x => simp [below q hq]

end Sys2Proof.Machine
end

