-- ==== Sys2Proof/Laws/Runs.lean ====
section
/-! SUPPORT. Runs of given steps, one step of each sequencer in explicit form, and reads of a vector after a write. -/

namespace Sys2Proof.Machine

/-- Reading a vector after writing it. -/
theorem vector_get_set {α : Type} {n : Nat} (v : Vector α n) (i j : Fin n) (x : α) :
    (v.set i.val x i.isLt)[j] = if i = j then x else v[j] := by
  simp only [Fin.getElem_fin, Vector.getElem_set, Fin.ext_iff]

theorem runSteps_cons {i : Instr} {l : List Instr} {s t : State} (h : exec i s = .next t) :
    runSteps (i :: l) s = runSteps l t := by simp only [runSteps, h]

theorem runSteps_append {l l' : List Instr} {s t : State} (h : runSteps l s = .next t) :
    runSteps (l ++ l') s = runSteps l' t := by
  induction l generalizing s with
  | nil => simp only [runSteps] at h; injection h with h; subst h; rfl
  | cons i l ih =>
    simp only [runSteps] at h
    cases he : exec i s with
    | next u => rw [he] at h; rw [List.cons_append, runSteps_cons he]; exact ih h
    | fault f => rw [he] at h; cases h
    | refused f => rw [he] at h; cases h

theorem regAccesses_append (c : Config) (ag : Issuer) (h l : List Record) :
    regAccesses c ag (h ++ l) = regAccesses c ag h ++ regAccesses c ag l := List.filter_append ..

/-- One DMX_CLEAR, in explicit form. -/
theorem exec_dmxClear_eq (s : State) (n : Fin clearRetryCount) (hn : s.dmxState = .clearing n) :
    exec .dmxClear s = .next { s with
      d2cStat := if clearTakes .demux .d2cClr s.dmxMask s then s.d2cStat &&& ~~~s.dmxMask else s.d2cStat
      dmxState := afterClear n
      history := s.history ++ [.mmio .demux .write (s.cfg.regBase + 0x18) s.dmxMask] } := by
  simp only [exec, execDmxClear, hn]
  rw [regWrite_d2cClr]

/-- One DMX_RX_READ, in explicit form. -/
theorem exec_dmxRxRead_eq (s : State) (r : RxCh) (k : Fin 8) (h1 : s.dmxState = .rxCopy k) (h2 : s.dmxIdx.val = r.val) :
    exec .dmxRxRead s = .next { s with
      dmxWords := s.dmxWords.set k.val (readWord s (wordAddr s (r.val + 8) k.val)) k.isLt
      dmxState := afterRead k
      history := s.history ++
        [.mmio .demux .read (wordAddr s (r.val + 8) k.val) (readWord s (wordAddr s (r.val + 8) k.val))] } := by
  simp only [exec, execDmxRxRead, h1, rangeSplit_rx _ _ h2]; rfl

/-- One TX_WRITE, in explicit form. -/
theorem exec_txWrite_eq (s : State) (c : TxCh) (x : TxChan) (k : Fin 8) (h1 : s.txGrant = some c) (hx : s.tx[c] = x)
    (h2 : x.word = k.val) :
    exec .txWrite s = .next { s with
      mem := Memory.writeWord s.mem (wordAddr s c.val k.val) (wordOf x.payload k)
      tx := s.tx.set c.val { x with word := k.val + 1 } c.isLt
      history := s.history ++ [.mmio .txeng .write (wordAddr s c.val k.val) (wordOf x.payload k)] } := by
  subst hx
  have hk : s.tx[c].word < 8 := by omega
  have ek : (⟨s.tx[c].word, hk⟩ : Fin 8) = k := Fin.ext h2
  show execTxWrite s = _
  simp only [execTxWrite, h1, dif_pos hk, ek]
  rw [h2, ← h1]; rfl

/-! ## Runs with draws -/

theorem runWith_cons {i : Instr} {d : Draws} {s t : State} (l : List (Instr × Draws))
    (h : exec i { s with draws := d } = .next t) : runWith ((i, d) :: l) s = runWith l t := by simp only [runWith, h]

theorem runWith_dmxClear {s : State} {n : Fin clearRetryCount} (d : Draws) (l : List (Instr × Draws))
    (hn : s.dmxState = .clearing n) :
    runWith ((.dmxClear, d) :: l) s = runWith l { s with
      draws := d
      d2cStat := if clearTakes .demux .d2cClr s.dmxMask { s with draws := d } then s.d2cStat &&& ~~~s.dmxMask else s.d2cStat
      dmxState := afterClear n
      history := s.history ++ [.mmio .demux .write (s.cfg.regBase + 0x18) s.dmxMask] } :=
  runWith_cons l (exec_dmxClear_eq { s with draws := d } n hn)

theorem runWith_dmxRxRead {s : State} {r : RxCh} {k : Fin 8} (d : Draws) (l : List (Instr × Draws))
    (h1 : s.dmxState = .rxCopy k) (h2 : s.dmxIdx.val = r.val) :
    runWith ((.dmxRxRead, d) :: l) s = runWith l { s with
      draws := d
      dmxWords := s.dmxWords.set k.val (readWord s (wordAddr s (r.val + 8) k.val)) k.isLt
      dmxState := afterRead k
      history := s.history ++
        [.mmio .demux .read (wordAddr s (r.val + 8) k.val) (readWord s (wordAddr s (r.val + 8) k.val))] } :=
  runWith_cons l (exec_dmxRxRead_eq { s with draws := d } r k h1 h2)

/-- A state of a clear run: of `s`, only these four fields move. -/
def clearRunState (s : State) (d : Draws) (st : DmxState) (w : Word) (h : List Record) : State :=
  { s with draws := d, dmxState := st, d2cStat := w, history := h }

/-- One clear write, over the state the run started in. -/
theorem runWith_clearRunState (s : State) (n : Fin clearRetryCount) (d0 d : Draws) (w : Word) (h : List Record)
    (l : List (Instr × Draws)) :
    runWith ((.dmxClear, d) :: l) (clearRunState s d0 (.clearing n) w h) =
      runWith l (clearRunState s d (afterClear n)
        (if clearTakes .demux .d2cClr s.dmxMask (clearRunState s d (.clearing n) w h) then w &&& ~~~s.dmxMask else w)
        (h ++ [.mmio .demux .write (s.cfg.regBase + 0x18) s.dmxMask])) :=
  runWith_dmxClear (s := clearRunState s d0 (.clearing n) w h) d l rfl

/-- The three clear writes of an invocation (R156): the last takes (R131). -/
theorem runWith_clearRun {s : State} (d1 d2 d3 : Draws) (l : List (Instr × Draws)) (hn : s.dmxState = .clearing 0) :
    runWith ((.dmxClear, d1) :: (.dmxClear, d2) :: (.dmxClear, d3) :: l) s =
      runWith l (clearRunState s d3 .dispatch (s.d2cStat &&& ~~~s.dmxMask)
        (s.history ++ List.replicate 3 (.mmio .demux .write (s.cfg.regBase + 0x18) s.dmxMask))) := by
  have e : s = clearRunState s s.draws (.clearing 0) s.d2cStat s.history := by rw [← hn]; rfl
  conv => lhs; rw [e]
  rw [runWith_clearRunState, show afterClear 0 = .clearing 1 from rfl, runWith_clearRunState,
    show afterClear 1 = .clearing 2 from rfl, runWith_clearRunState, show afterClear 2 = .dispatch from rfl]
  have own : regAccesses s.cfg .demux [.mmio .demux .write (s.cfg.regBase + 0x18) s.dmxMask] =
      [.mmio .demux .write (s.cfg.regBase + 0x18) s.dmxMask] := by
    simp [regAccesses, isRegAccess, inRegWindow_offset s.cfg (o := 0x18) (by decide)]
  have last (w : Word) : clearTakes .demux .d2cClr s.dmxMask (clearRunState s d3 (.clearing 2) w
      (s.history ++ [.mmio .demux .write (s.cfg.regBase + 0x18) s.dmxMask] ++
        [.mmio .demux .write (s.cfg.regBase + 0x18) s.dmxMask])) = true := by
    rw [clearTakes_iff]
    refine .inr ?_
    show _ <:+ regAccesses s.cfg _ (_ ++ _ ++ _)
    rw [regAccesses_append, regAccesses_append, own]
    exact ⟨regAccesses s.cfg .demux s.history, by simp [regWriteRecord, Reg.offset, clearRunState]⟩
  have idem (x m : Word) : x &&& ~~~m &&& ~~~m = x &&& ~~~m := by rw [BitVec.and_assoc, BitVec.and_self]
  rw [if_pos (last _)]
  exact congrArg₂ (fun w h => runWith l (clearRunState s d3 .dispatch w h)) (by split <;> split <;> simp only [idem])
    (by simp [List.replicate])

/-- A state of a copy: of `s`, only these four fields move. -/
def copyState (s : State) (d : Draws) (st : DmxState) (w : Vector Word 8) (h : List Record) : State :=
  { s with draws := d, dmxState := st, dmxWords := w, history := h }

/-- The record of the read of word `k` (R161). -/
def copyRecord (s : State) (r : RxCh) (k : Nat) : Record :=
  .mmio .demux .read (wordAddr s (r.val + 8) k) (readWord s (wordAddr s (r.val + 8) k))

/-- One read, over the state the copy started in. -/
theorem runWith_copyState {s : State} {r : RxCh} (h2 : s.dmxIdx.val = r.val) (k : Fin 8) (d0 d : Draws)
    (w : Vector Word 8) (h : List Record) (l : List (Instr × Draws)) :
    runWith ((.dmxRxRead, d) :: l) (copyState s d0 (.rxCopy k) w h) =
      runWith l (copyState s d (afterRead k) (w.set k.val (readWord s (wordAddr s (r.val + 8) k.val)) k.isLt)
        (h ++ [copyRecord s r k.val])) :=
  runWith_dmxRxRead (s := copyState s d0 (.rxCopy k) w h) (r := r) d l rfl h2

/-- The eight reads of a copy (R161). -/
theorem runWith_copy {s : State} {r : RxCh} (d0 d1 d2 d3 d4 d5 d6 d7 : Draws) (l : List (Instr × Draws))
    (h1 : s.dmxState = .rxCopy 0) (h2 : s.dmxIdx.val = r.val) :
    runWith ((.dmxRxRead, d0) :: (.dmxRxRead, d1) :: (.dmxRxRead, d2) :: (.dmxRxRead, d3) :: (.dmxRxRead, d4) ::
        (.dmxRxRead, d5) :: (.dmxRxRead, d6) :: (.dmxRxRead, d7) :: l) s =
      runWith l (copyState s d7 .rxCommit (Vector.ofFn fun k : Fin 8 => readWord s (wordAddr s (r.val + 8) k.val))
        (s.history ++ (List.range 8).map (copyRecord s r))) := by
  have e : s = copyState s s.draws (.rxCopy 0) s.dmxWords s.history := by rw [← h1]; rfl
  have f := runWith_copyState h2
  conv => lhs; rw [e]
  rw [f, show afterRead 0 = .rxCopy 1 from rfl, f, show afterRead 1 = .rxCopy 2 from rfl, f,
    show afterRead 2 = .rxCopy 3 from rfl, f, show afterRead 3 = .rxCopy 4 from rfl, f,
    show afterRead 4 = .rxCopy 5 from rfl, f, show afterRead 5 = .rxCopy 6 from rfl, f,
    show afterRead 6 = .rxCopy 7 from rfl, f, show afterRead 7 = .rxCommit from rfl]
  have words (g : Nat → Word) : ((((((((s.dmxWords.set 0 (g 0)).set 1 (g 1)).set 2 (g 2)).set 3 (g 3)).set 4 (g 4)).set 5
      (g 5)).set 6 (g 6)).set 7 (g 7)) = Vector.ofFn fun k : Fin 8 => g k.val := by
    apply Vector.ext
    intro i hi
    interval_cases i <;> simp
  have records (g : Nat → Record) : s.history ++ [g 0] ++ [g 1] ++ [g 2] ++ [g 3] ++ [g 4] ++ [g 5] ++ [g 6] ++ [g 7] =
      s.history ++ (List.range 8).map g := by simp [List.range, List.range.loop]
  exact congrArg₂ (fun w h => runWith l (copyState s d7 .rxCommit w h))
    (words fun k => readWord s (wordAddr s (r.val + 8) k)) (records (copyRecord s r))

end Sys2Proof.Machine
end

