-- ==== Sys2Proof/Laws/Invariants.lean ====
section
/-! SUPPORT. The shared operations keep the invariants: answers, port and channel writes, consume, the end of a send. -/

namespace Sys2Proof.Machine

/-- records that are not register accesses of the demux -/
def quiet (c : Config) (l : List Record) : Prop := regAccesses c .demux l = []

theorem clearRun_quiet {s t : State} (h : InvClearRun s) (l : List Record) (hl : quiet s.cfg l) (hh : t.history = s.history ++ l)
  (hc : t.cfg = s.cfg) (hd : ∀ n, t.dmxState = .clearing n → s.dmxState = .clearing n) (hm : t.dmxMask = s.dmxMask) : InvClearRun t := by
  intro n hn
  rw [hh, hc, hm, regAccesses_append, hl, List.append_nil]
  exact h n (hd n hn)

theorem clearRun_off {t : State} (h : ∀ n, t.dmxState ≠ .clearing n) : InvClearRun t := fun n hn => absurd hn (h n)

theorem quiet_nil (c) : quiet c [] := rfl
theorem quiet_cons_cmd {c p w m l} (h : quiet c l) : quiet c (.cmd p w m :: l) := by
  simpa [quiet, regAccesses, isRegAccess] using h
theorem quiet_cons_resp {c p w m l} (h : quiet c l) : quiet c (.resp p w m :: l) := by
  simpa [quiet, regAccesses, isRegAccess] using h
theorem quiet_cons_rep {c p w l} (h : quiet c l) : quiet c (.report p w :: l) := by
  simpa [quiet, regAccesses, isRegAccess] using h
theorem quiet_cons_mmio {c ag d a v l} (hag : ag ≠ .demux) (h : quiet c l) : quiet c (.mmio ag d a v :: l) := by
  simp only [quiet, regAccesses] at h
  have : isRegAccess c .demux (.mmio ag d a v) = false := by simp [isRegAccess, hag]
  simp only [quiet, regAccesses, List.filter_cons, this]
  simpa using h
theorem quiet_map_notify {c} (l : List Nat) (r) : quiet c (l.map fun q => Record.notify q r) := by
  induction l with
  | nil => rfl
  | cons q l ih => simp [quiet, regAccesses, isRegAccess]
theorem quiet_map_resp {c} (l : List Nat) (w d) : quiet c (l.map fun q => Record.resp q w d) := by
  induction l with
  | nil => rfl
  | cons q l ih => simp [quiet, regAccesses, isRegAccess]
theorem quiet_append {c l l'} (h : quiet c l) (h' : quiet c l') : quiet c (l ++ l') := by
  simp only [quiet, regAccesses_append] at *; rw [h, h']; rfl

theorem mem_word {c : Config} {m : List Host.Cell} (h : Memory.wf m ∧ ∀ x ∈ m, inBufWindow c x.1 = true) (i : Fin 16) (k : Fin 8) (v : Word) :
   Memory.wf (Memory.writeWord m (bufWordAddr c i k) v) ∧ ∀ x ∈ Memory.writeWord m (bufWordAddr c i k) v, inBufWindow c x.1 = true := by
  refine ⟨Memory.writeWord_wf h.1 _ _, fun x hx => ?_⟩
  rcases Memory.mem_writeWord hx with ⟨h1, h2⟩ | hx
  · have := i.isLt; have := k.isLt
    unfold inBufWindow; unfold bufWordAddr bufAddr at h1 h2; rw [decide_eq_true_iff]; omega
  · exact h.2 x hx

/-- A port after one port was freed. -/
theorem get_set_free {s : State} {p q : Nat} {x : Port} (ha : (s.ports.set p Port.atReset)[q]? = some x) :
   x = Port.atReset ∨ s.ports[q]? = some x := by
  rw [List.getElem?_set] at ha
  split at ha
  · split at ha
    · left; injection ha with ha; exact ha.symm
    · cases ha
  · right; exact ha

theorem inv_answered {p : Nat} {i : Instr} {code ready d} {s : State} (h : Inv s) (hm : mayIssue p s) :
   Inv (answered p i code ready d s) := by
  obtain ⟨hi, x0, hx0, hf0⟩ := hm
  have hq : quiet s.cfg [cmdRecord p i, respRecord p code ready d] := quiet_cons_cmd (quiet_cons_resp (quiet_nil _))
  refine ⟨⟨by simpa [answered] using h.shape.1, h.shape.2⟩, h.memory, h.readySync, h.grant, h.word, ?_, h.busyBound, ?_, ?_, ⟨h.ranges.1, ?_⟩, h.demux, ?_⟩
  · intro q c
    rw [show (answered p i code ready d s).tx = s.tx from rfl, ← h.sendPort q c]
    show (∃ x, (s.ports.set p Port.atReset)[q]? = some x ∧ _) ↔ _
    by_cases hqp : p = q
    · subst hqp
      have hlt := (List.getElem?_eq_some_iff.1 hx0).1
      rw [List.getElem?_set]
      rw [hx0]; simp [hlt, hf0, Port.atReset]
    · rw [List.getElem?_set]; simp [hqp]
  · intro q x r b hx hs
    rcases get_set_free hx with rfl | hx
    · simp [Port.atReset] at hs
    · exact h.waitBound q x r b hx hs
  · intro hc; exact absurd (hi.symm.trans hc) (by simp)
  · intro q x hx
    rcases get_set_free hx with rfl | hx
    · simp [Port.atReset]
    · exact h.ranges.2 q x hx
  · exact clearRun_quiet h.clearRun _ hq rfl rfl (fun n hn => hn) rfl

/-- A change of one RX channel that keeps its number of listener bits. -/
theorem inv_rx {s : State} (h : Inv s) (hi : s.initDone = true) (r : RxCh) (x : RxChan) (hl : x.listeners.length = s.cfg.numPorts) (hr : x.readySync = true → x.ready = true) :
   Inv (s.setRx r x) := by
  refine ⟨⟨h.shape.1, ?_⟩, h.memory, ?_, h.grant, h.word, h.sendPort, h.busyBound, h.waitBound, ?_, h.ranges, h.demux, h.clearRun⟩
  · intro r'
    show ((s.rx.set r.val x r.isLt)[r']).listeners.length = _
    rw [vector_get_set]; split
    · exact hl
    · exact h.shape.2 r'
  · intro r'
    show ((s.rx.set r.val x r.isLt)[r']).readySync = true → ((s.rx.set r.val x r.isLt)[r']).ready = true
    rw [vector_get_set]; split
    · exact hr
    · exact h.readySync r'
  · intro hc; exact absurd (hi.symm.trans hc) (by simp)

theorem inv_log {s : State} (h : Inv s) (e : Record) (hq : quiet s.cfg [e]) : Inv (s.log e) :=
  ⟨h.shape, h.memory, h.readySync, h.grant, h.word, h.sendPort, h.busyBound, h.waitBound, h.beforeInit, h.ranges, h.demux,
   clearRun_quiet h.clearRun [e] hq rfl rfl (fun _ hn => hn) rfl⟩

/-- A write of a port that pends no send before or after. -/
theorem inv_setPort {s : State} (h : Inv s) (hi : s.initDone = true) (p : Nat) (y : Port)
   (hold : ∀ x, s.ports[p]? = some x → ∀ c, x.state ≠ .sendPending c) (hnew : ∀ c, y.state ≠ .sendPending c)
   (hw : ∀ r b, y.state = .waiting r b → s.bound[r.val + 8] = true ∧ b ≤ 65535) (he : y.elapsed ≤ 65535) : Inv (s.setPort p y) := by
  have key : ∀ (q : Nat) (x : Port), (s.ports.set p y)[q]? = some x → x = y ∨ s.ports[q]? = some x := by
    intro q x ha
    rw [List.getElem?_set] at ha
    split at ha
    · split at ha
      · left; injection ha with ha; exact ha.symm
      · cases ha
    · right; exact ha
  refine ⟨⟨?_, h.shape.2⟩, h.memory, h.readySync, h.grant, h.word, ?_, h.busyBound, ?_, ?_, ⟨h.ranges.1, ?_⟩, h.demux, h.clearRun⟩
  · show (s.ports.set p y).length = _; rw [List.length_set]; exact h.shape.1
  · intro q c
    rw [show (s.setPort p y).tx = s.tx from rfl, ← h.sendPort q c]
    show (∃ x, (s.ports.set p y)[q]? = some x ∧ _) ↔ _
    rw [List.getElem?_set]
    by_cases hqp : p = q
    · subst hqp
      constructor
      · rintro ⟨x, hx, hs⟩
        simp only [if_true] at hx
        split at hx
        · injection hx with hx; subst hx; exact absurd hs (hnew c)
        · cases hx
      · rintro ⟨x, hx, hs⟩; exact absurd hs (hold x hx c)
    · simp [hqp]
  · intro q x r b hx hs
    rcases key q x hx with rfl | hx
    · exact (hw r b hs).1
    · exact h.waitBound q x r b hx hs
  · intro hc; exact absurd (hi.symm.trans hc) (by simp)
  · intro q x hx
    rcases key q x hx with rfl | hx
    · exact ⟨he, fun r b hs => (hw r b hs).2⟩
    · exact h.ranges.2 q x hx

theorem inv_respond {p : Nat} {code ready d} {s : State} (h : Inv s) (hi : s.initDone = true) (hold : ∀ x, s.ports[p]? = some x → ∀ c, x.state ≠ .sendPending c) :
   Inv (respond p code ready d s) := by
  apply inv_log
  · exact inv_setPort h hi p _ hold (by simp) (by simp) (by simp)
  · exact quiet_cons_resp (quiet_nil _)

theorem inv_consume {p : Nat} {r : RxCh} {s : State} (h : Inv s) (hi : s.initDone = true) (hold : ∀ x, s.ports[p]? = some x → ∀ c, x.state ≠ .sendPending c) :
   Inv (consume p r s) := by
  unfold consume
  split
  · exact inv_respond h hi hold
  · exact inv_rx (inv_respond h hi hold) hi r _ (h.shape.2 r) (by simp)

theorem inv_completeSend {c : TxCh} {code} {s : State} (h : Inv s) (hi : s.initDone = true) (hs : s.tx[c].state = .waitAck) : Inv (completeSend c code s) := by
  obtain ⟨x0, hx0, hp0⟩ := (h.sendPort s.tx[c].port c).2 ⟨by rw [hs]; simp, rfl⟩
  have htx : ∀ c', (completeSend c code s).tx[c'] = if c = c' then { s.tx[c] with state := .idle, elapsed := 0 } else s.tx[c'] := fun c' => vector_get_set _ _ _ _
  have key : ∀ q x, (s.ports.set s.tx[c].port Port.atReset)[q]? = some x → (x = Port.atReset ∧ q = s.tx[c].port) ∨ (s.ports[q]? = some x ∧ q ≠ s.tx[c].port) := by
    intro q x ha
    rw [List.getElem?_set] at ha
    split at ha
    case isTrue e =>
      split at ha
      · left; injection ha with ha; exact ⟨ha.symm, e.symm⟩
      · cases ha
    case isFalse e => right; exact ⟨ha, fun e' => e e'.symm⟩
  refine ⟨⟨?_, h.shape.2⟩, h.memory, h.readySync, ?_, ?_, ?_, ?_, ?_, ?_, ⟨?_, ?_⟩, h.demux, ?_⟩
  · show (s.ports.set _ _).length = _; rw [List.length_set]; exact h.shape.1
  · intro c' hg
    have := h.grant c' hg
    rw [htx]; split
    · subst c'; rw [hs] at this; cases this
    · exact this
  · intro c' hc hg
    rw [htx] at hc ⊢; split
    · subst c'; simp at hc
    · rename_i hne; rw [if_neg hne] at hc; exact h.word c' hc hg
  · intro q c'
    rw [htx]
    show (∃ x, (s.ports.set s.tx[c].port Port.atReset)[q]? = some x ∧ _) ↔ _
    constructor
    · rintro ⟨x, hx, hxs⟩
      rcases key q x hx with ⟨rfl, rfl⟩ | ⟨hx, hq⟩
      · simp [Port.atReset] at hxs
      · have := (h.sendPort q c').1 ⟨x, hx, hxs⟩
        split
        · subst c'; exact absurd this.2.symm hq
        · exact this
    · split
      · simp
      · rename_i hne
        intro ht
        obtain ⟨x, hx, hxs⟩ := (h.sendPort q c').2 ht
        have hq : ¬ s.tx[c].port = q := by
          intro e; rw [← e, hx0] at hx; injection hx with hx; subst hx
          rw [hp0] at hxs; injection hxs with hxs; exact hne hxs
        refine ⟨x, ?_, hxs⟩
        rw [List.getElem?_set, if_neg hq]; exact hx
  · intro c' hc
    rw [htx] at hc; split at hc
    · simp at hc
    · exact h.busyBound c' hc
  · intro q x r b hx hxs
    rcases key q x hx with ⟨rfl, rfl⟩ | ⟨hx, hq⟩
    · simp [Port.atReset] at hxs
    · exact h.waitBound q x r b hx hxs
  · intro hc; exact absurd (hi.symm.trans hc) (by simp)
  · intro c'; rw [htx]; split
    · exact ⟨(h.ranges.1 c).1, Nat.zero_le _⟩
    · exact h.ranges.1 c'
  · intro q x hx
    rcases key q x hx with ⟨rfl, rfl⟩ | ⟨hx, hq⟩
    · simp [Port.atReset]
    · exact h.ranges.2 q x hx
  · exact clearRun_quiet h.clearRun [respRecord s.tx[c].port code false none] (quiet_cons_resp (quiet_nil _)) rfl rfl (fun _ hn => hn) rfl

end Sys2Proof.Machine
end

