-- ==== Sys2Proof/Laws/PerInstr.lean ====
section
/-! SUPPORT. The statements made per instruction. RowMatch: the encoding of an instruction meets the match and the mask
of its row of spec/opcode_table.json. -/

namespace Sys2Proof.Laws.RowMatch

/-- A command's word meets its row's match under its row's mask; an access goes to REG_BASE plus its row's match, or to an
offset from BUF_BASE that meets the row; an event is presented as itself. -/
def Statement (i : Instr) : Prop :=
  match i with
  | .bind p ch => Instr.wf (.bind p ch) = true → encodeWord (.bind p ch) &&& 0xFFFFF00F = 0x1
  | .send p ch m => Instr.wf (.send p ch m) = true → encodeWord (.send p ch m) &&& 0xFFFFF00F = 0x2
  | .receiveNb p ch => Instr.wf (.receiveNb p ch) = true → encodeWord (.receiveNb p ch) &&& 0xFFFFF00F = 0x3
  | .receiveB p ch t => Instr.wf (.receiveB p ch t) = true → encodeWord (.receiveB p ch t) &&& 0x0000F00F = 0x1003
  | .pollReady p ch => Instr.wf (.pollReady p ch) = true → encodeWord (.pollReady p ch) &&& 0xFFFFF00F = 0x4
  | .registerListener p ch => Instr.wf (.registerListener p ch) = true → encodeWord (.registerListener p ch) &&& 0xFFFFF00F = 0x5
  | .cancel p ch => Instr.wf (.cancel p ch) = true → encodeWord (.cancel p ch) &&& 0xFFFFF00F = 0x6
  | .illegal p w payload => Instr.wf (.illegal p w payload) = true → encodeWord (.illegal p w payload) = w ∧ legalWord w = false
  | .c2dEnR ag => ∀ g : Config, encode g (.c2dEnR ag) = .access ag .read 32 (g.regBase + 0x00) 0
  | .c2dEnW ag v => ∀ g : Config, encode g (.c2dEnW ag v) = .access ag .write 32 (g.regBase + 0x00) v
  | .c2dSetR ag => ∀ g : Config, encode g (.c2dSetR ag) = .access ag .read 32 (g.regBase + 0x04) 0
  | .c2dSetW ag v => ∀ g : Config, encode g (.c2dSetW ag v) = .access ag .write 32 (g.regBase + 0x04) v
  | .c2dClrR ag => ∀ g : Config, encode g (.c2dClrR ag) = .access ag .read 32 (g.regBase + 0x08) 0
  | .c2dClrW ag v => ∀ g : Config, encode g (.c2dClrW ag v) = .access ag .write 32 (g.regBase + 0x08) v
  | .c2dStatR ag => ∀ g : Config, encode g (.c2dStatR ag) = .access ag .read 32 (g.regBase + 0x0c) 0
  | .c2dStatW ag v => ∀ g : Config, encode g (.c2dStatW ag v) = .access ag .write 32 (g.regBase + 0x0c) v
  | .rsvdR ag => ∀ g : Config, encode g (.rsvdR ag) = .access ag .read 32 (g.regBase + 0x10) 0
  | .rsvdW ag v => ∀ g : Config, encode g (.rsvdW ag v) = .access ag .write 32 (g.regBase + 0x10) v
  | .d2cSetR ag => ∀ g : Config, encode g (.d2cSetR ag) = .access ag .read 32 (g.regBase + 0x14) 0
  | .d2cSetW ag v => ∀ g : Config, encode g (.d2cSetW ag v) = .access ag .write 32 (g.regBase + 0x14) v
  | .d2cClrR ag => ∀ g : Config, encode g (.d2cClrR ag) = .access ag .read 32 (g.regBase + 0x18) 0
  | .d2cClrW ag v => ∀ g : Config, encode g (.d2cClrW ag v) = .access ag .write 32 (g.regBase + 0x18) v
  | .d2cEnR ag => ∀ g : Config, encode g (.d2cEnR ag) = .access ag .read 32 (g.regBase + 0x1c) 0
  | .d2cEnW ag v => ∀ g : Config, encode g (.d2cEnW ag v) = .access ag .write 32 (g.regBase + 0x1c) v
  | .d2cStatR ag => ∀ g : Config, encode g (.d2cStatR ag) = .access ag .read 32 (g.regBase + 0x20) 0
  | .d2cStatW ag v => ∀ g : Config, encode g (.d2cStatW ag v) = .access ag .write 32 (g.regBase + 0x20) v
  | .bufR ag b k => ∀ g : Config, ∃ o : Nat,
      encode g (.bufR ag b k) = .access ag .read 32 (g.bufBase + o) 0 ∧ BitVec.ofNat 32 o &&& 0xFFFFFE03 = 0
  | .bufW ag b k v => ∀ g : Config, ∃ o : Nat,
      encode g (.bufW ag b k v) = .access ag .write 32 (g.bufBase + o) v ∧ BitVec.ofNat 32 o &&& 0xFFFFFE03 = 0
  | .dmxStart => ∀ g : Config, encode g .dmxStart = .event .dmxStart
  | .dmxClear => ∀ g : Config, encode g .dmxClear = .event .dmxClear
  | .dmxSpurious => ∀ g : Config, encode g .dmxSpurious = .event .dmxSpurious
  | .dmxTxack => ∀ g : Config, encode g .dmxTxack = .event .dmxTxack
  | .dmxTxackUnbound => ∀ g : Config, encode g .dmxTxackUnbound = .event .dmxTxackUnbound
  | .dmxRxDispatch => ∀ g : Config, encode g .dmxRxDispatch = .event .dmxRxDispatch
  | .dmxRxRead => ∀ g : Config, encode g .dmxRxRead = .event .dmxRxRead
  | .dmxRxCommit => ∀ g : Config, encode g .dmxRxCommit = .event .dmxRxCommit
  | .dmxRearm => ∀ g : Config, encode g .dmxRearm = .event .dmxRearm
  | .dmxRxUnbound => ∀ g : Config, encode g .dmxRxUnbound = .event .dmxRxUnbound
  | .txGrant c => ∀ g : Config, encode g (.txGrant c) = .event (.txGrant c)
  | .txWrite => ∀ g : Config, encode g .txWrite = .event .txWrite
  | .txSet => ∀ g : Config, encode g .txSet = .event .txSet
  | .txTimeout c => ∀ g : Config, encode g (.txTimeout c) = .event (.txTimeout c)
  | .waitConsume p => ∀ g : Config, encode g (.waitConsume p) = .event (.waitConsume p)
  | .waitTimeout p => ∀ g : Config, encode g (.waitTimeout p) = .event (.waitTimeout p)
  | .sync r => ∀ g : Config, encode g (.sync r) = .event (.sync r)
  | .tick => ∀ g : Config, encode g .tick = .event .tick
  | .init => ∀ g : Config, encode g .init = .event .init
  | .reset => ∀ g : Config, encode g .reset = .event .reset

/-- Where a buffer word lies, as an offset that meets the rows of format buf32 (R140). -/
theorem bufOffset_matches (b : Fin 16) (k : Fin 8) :
    BitVec.ofNat 32 (32 * b.val + 4 * k.val) &&& 0xFFFFFE03 = 0 := by revert b k; decide

/-- A word of an opcode and a channel field meets the mask that leaves the channel field out. -/
theorem chanWord_matches : ∀ (op : Fin 8) (ch : Fin 256),
    BitVec.ofNat 32 (ch.val * 2 ^ 4 + op.val) &&& 0xFFFFF00F = BitVec.ofNat 32 op.val := by
  decide +kernel

/-- The same in the low half of a word, with the mode bit set. -/
theorem lowHalf_matches : ∀ ch : Fin 256,
    BitVec.ofNat 16 (0x1000 + ch.val * 2 ^ 4 + 0x3) &&& 0xF00F = 0x1003 := by decide +kernel

/-- RECEIVE.B's mask looks at the low half only. -/
theorem timeoutWord_matches (ch t : Nat) (h : ch < 256) :
    BitVec.ofNat 32 (t * 2 ^ 16 + 0x1000 + ch * 2 ^ 4 + 0x3) &&& 0x0000F00F = 0x1003 := by
  have hl := lowHalf_matches ⟨ch, h⟩
  have hs : (BitVec.ofNat 32 (t * 2 ^ 16 + 0x1000 + ch * 2 ^ 4 + 0x3)).setWidth 16 =
      BitVec.ofNat 16 (0x1000 + ch * 2 ^ 4 + 0x3) := by
    apply BitVec.eq_of_toNat_eq
    simp only [BitVec.toNat_setWidth, BitVec.toNat_ofNat]
    omega
  have hm : ∀ v : Word, v &&& 0x0000F00F = (v.setWidth 16 &&& 0xF00F).setWidth 32 := by
    intro v
    apply BitVec.eq_of_getLsbD_eq
    intro i hi
    simp only [BitVec.getLsbD_and, BitVec.getLsbD_setWidth]
    interval_cases i <;> simp
  rw [hm, hs, hl]
  rfl

/-- The channel field of a well-formed command. -/
theorem chan_lt {ch : Nat} (h : chanFits ch = true) : ch < 256 := of_decide_eq_true h

theorem bind (p : Nat) (ch : Nat) : Statement (.bind p ch) :=
  fun h => chanWord_matches 1 ⟨ch, chan_lt h⟩

theorem send (p : Nat) (ch : Nat) (m : Msg) : Statement (.send p ch m) :=
  fun h => chanWord_matches 2 ⟨ch, chan_lt h⟩

theorem receiveNb (p : Nat) (ch : Nat) : Statement (.receiveNb p ch) :=
  fun h => chanWord_matches 3 ⟨ch, chan_lt h⟩

theorem pollReady (p : Nat) (ch : Nat) : Statement (.pollReady p ch) :=
  fun h => chanWord_matches 4 ⟨ch, chan_lt h⟩

theorem registerListener (p : Nat) (ch : Nat) : Statement (.registerListener p ch) :=
  fun h => chanWord_matches 5 ⟨ch, chan_lt h⟩

theorem cancel (p : Nat) (ch : Nat) : Statement (.cancel p ch) :=
  fun h => chanWord_matches 6 ⟨ch, chan_lt h⟩

theorem receiveB (p : Nat) (ch : Nat) (t : Nat) : Statement (.receiveB p ch t) :=
  fun h => timeoutWord_matches ch t (chan_lt (Bool.and_eq_true_iff.mp h).1)

theorem illegal (p : Nat) (w : Word) (payload : Option Msg) : Statement (.illegal p w payload) := by
  intro h
  have h1 := (Bool.and_eq_true_iff.mp h).1
  exact ⟨rfl, by simpa using h1⟩

theorem c2dEnR (ag : Issuer) : Statement (.c2dEnR ag) := fun _ => rfl

theorem c2dEnW (ag : Issuer) (v : Word) : Statement (.c2dEnW ag v) := fun _ => rfl

theorem c2dSetR (ag : Issuer) : Statement (.c2dSetR ag) := fun _ => rfl

theorem c2dSetW (ag : Issuer) (v : Word) : Statement (.c2dSetW ag v) := fun _ => rfl

theorem c2dClrR (ag : Issuer) : Statement (.c2dClrR ag) := fun _ => rfl

theorem c2dClrW (ag : Issuer) (v : Word) : Statement (.c2dClrW ag v) := fun _ => rfl

theorem c2dStatR (ag : Issuer) : Statement (.c2dStatR ag) := fun _ => rfl

theorem c2dStatW (ag : Issuer) (v : Word) : Statement (.c2dStatW ag v) := fun _ => rfl

theorem rsvdR (ag : Issuer) : Statement (.rsvdR ag) := fun _ => rfl

theorem rsvdW (ag : Issuer) (v : Word) : Statement (.rsvdW ag v) := fun _ => rfl

theorem d2cSetR (ag : Issuer) : Statement (.d2cSetR ag) := fun _ => rfl

theorem d2cSetW (ag : Issuer) (v : Word) : Statement (.d2cSetW ag v) := fun _ => rfl

theorem d2cClrR (ag : Issuer) : Statement (.d2cClrR ag) := fun _ => rfl

theorem d2cClrW (ag : Issuer) (v : Word) : Statement (.d2cClrW ag v) := fun _ => rfl

theorem d2cEnR (ag : Issuer) : Statement (.d2cEnR ag) := fun _ => rfl

theorem d2cEnW (ag : Issuer) (v : Word) : Statement (.d2cEnW ag v) := fun _ => rfl

theorem d2cStatR (ag : Issuer) : Statement (.d2cStatR ag) := fun _ => rfl

theorem d2cStatW (ag : Issuer) (v : Word) : Statement (.d2cStatW ag v) := fun _ => rfl

theorem bufR (ag : Issuer) (b : Fin 16) (k : Fin 8) : Statement (.bufR ag b k) :=
  fun _ => ⟨_, by simp only [encode, bufWordAddr, bufAddr, Nat.add_assoc], bufOffset_matches b k⟩

theorem bufW (ag : Issuer) (b : Fin 16) (k : Fin 8) (v : Word) : Statement (.bufW ag b k v) :=
  fun _ => ⟨_, by simp only [encode, bufWordAddr, bufAddr, Nat.add_assoc], bufOffset_matches b k⟩

theorem dmxStart : Statement .dmxStart := fun _ => rfl

theorem dmxClear : Statement .dmxClear := fun _ => rfl

theorem dmxSpurious : Statement .dmxSpurious := fun _ => rfl

theorem dmxTxack : Statement .dmxTxack := fun _ => rfl

theorem dmxTxackUnbound : Statement .dmxTxackUnbound := fun _ => rfl

theorem dmxRxDispatch : Statement .dmxRxDispatch := fun _ => rfl

theorem dmxRxRead : Statement .dmxRxRead := fun _ => rfl

theorem dmxRxCommit : Statement .dmxRxCommit := fun _ => rfl

theorem dmxRearm : Statement .dmxRearm := fun _ => rfl

theorem dmxRxUnbound : Statement .dmxRxUnbound := fun _ => rfl

theorem txGrant (c : TxCh) : Statement (.txGrant c) := fun _ => rfl

theorem txWrite : Statement .txWrite := fun _ => rfl

theorem txSet : Statement .txSet := fun _ => rfl

theorem txTimeout (c : TxCh) : Statement (.txTimeout c) := fun _ => rfl

theorem waitConsume (p : Nat) : Statement (.waitConsume p) := fun _ => rfl

theorem waitTimeout (p : Nat) : Statement (.waitTimeout p) := fun _ => rfl

theorem sync (r : RxCh) : Statement (.sync r) := fun _ => rfl

theorem tick : Statement .tick := fun _ => rfl

theorem init : Statement .init := fun _ => rfl

theorem reset : Statement .reset := fun _ => rfl

end Sys2Proof.Laws.RowMatch
end

