-- ==== Sys2Proof/Laws/SendSide.lean ====
section
/-! SUPPORT. What one step can do to the send side, said once: to a TX channel, to the grant, to the responses of a port that
pends a send, and to `noAck`. -/

namespace Sys2Proof.Machine

/-- A register write leaves the send side. -/
theorem regWrite_tx (ag : Issuer) (r : Reg) (v : Word) (s : State) : (regWrite ag r v s).tx = s.tx := by
  have h := congrArg State.tx (regWrite_frame ag r v s)
  exact h

theorem regWrite_txGrant (ag : Issuer) (r : Reg) (v : Word) (s : State) : (regWrite ag r v s).txGrant = s.txGrant := by
  have h := congrArg State.txGrant (regWrite_frame ag r v s)
  exact h

theorem consume_tx (p : Nat) (r : RxCh) (s : State) : (consume p r s).tx = s.tx ∧ (consume p r s).txGrant = s.txGrant := by
  unfold consume; split <;> exact ⟨rfl, rfl⟩

theorem txChannel_some {ch : Nat} {c : TxCh} (h : txChannel ch = some c) : ch = c.val := by
  unfold txChannel at h
  split at h
  · injection h with h; subst h; rfl
  · cases h

/-- What a step can do to the grant (R192, R194). -/
theorem txGrant_next {i : Instr} {s t : State} (h : exec i s = .next t) :
    t.txGrant = s.txGrant ∨ (∃ c, i = .txGrant c ∧ s.txGrant = none ∧ t.txGrant = some c) ∨
      (i = .txSet ∧ t.txGrant = none) ∨ i = .reset := by
  cases i with
  | bind p ch => obtain ⟨_, rfl⟩ := issue_next h; left; unfold acceptBind; (repeat' split) <;> rfl
  | send p ch m => obtain ⟨_, rfl⟩ := issue_next h; left; unfold acceptSend; (repeat' split) <;> rfl
  | receiveNb p ch =>
    obtain ⟨_, rfl⟩ := issue_next h; left; unfold acceptReceiveNb; (repeat' split) <;> first | rfl | exact (consume_tx ..).2
  | receiveB p ch b =>
    obtain ⟨_, rfl⟩ := issue_next h; left; unfold acceptReceiveB; (repeat' split) <;> first | rfl | exact (consume_tx ..).2
  | pollReady p ch => obtain ⟨_, rfl⟩ := issue_next h; exact .inl rfl
  | registerListener p ch =>
    obtain ⟨_, rfl⟩ := issue_next h; left; unfold acceptRegisterListener; (repeat' split) <;> rfl
  | cancel p ch =>
    obtain ⟨_, rfl⟩ := issue_next h
    left
    unfold acceptCancel
    split
    · rfl
    · rw [foldl_cancelOne]; rfl
  | illegal p w pl => obtain ⟨_, rfl⟩ := issue_next h; exact .inl rfl
  | c2dEnR ag | c2dSetR ag | c2dClrR ag | c2dStatR ag | rsvdR ag | d2cSetR ag | d2cClrR ag | d2cEnR ag | d2cStatR ag =>
    obtain ⟨-, rfl⟩ := next_regRead h; exact .inl rfl
  | bufR ag b k => obtain ⟨-, rfl⟩ := next_bufRead h; exact .inl rfl
  | c2dEnW ag v | c2dSetW ag v | c2dClrW ag v | c2dStatW ag v | rsvdW ag v | d2cSetW ag v | d2cClrW ag v | d2cEnW ag v
  | d2cStatW ag v => obtain ⟨-, rfl⟩ := access_next h; exact .inl (regWrite_txGrant ..)
  | bufW ag b k v => obtain ⟨-, rfl⟩ := access_next h; exact .inl rfl
  | dmxStart => obtain ⟨_, _, _, rfl⟩ := next_dmxStart h; exact .inl rfl
  | dmxClear => obtain ⟨_, _, rfl⟩ := next_dmxClear h; exact .inl (regWrite_txGrant ..)
  | dmxSpurious => obtain ⟨_, _, rfl⟩ := next_dmxSpurious h; exact .inl rfl
  | dmxTxack => obtain ⟨_, _, _, _, _, rfl⟩ := next_dmxTxack h; left; split <;> rfl
  | dmxTxackUnbound => obtain ⟨_, _, _, _, _, rfl⟩ := next_dmxTxackUnbound h; exact .inl rfl
  | dmxRxDispatch => obtain ⟨_, _, _, _, _, rfl⟩ := next_dmxRxDispatch h; exact .inl rfl
  | dmxRxUnbound => obtain ⟨_, _, _, _, _, rfl⟩ := next_dmxRxUnbound h; exact .inl rfl
  | dmxRxRead => obtain ⟨_, _, _, _, rfl⟩ := next_dmxRxRead h; exact .inl rfl
  | dmxRxCommit => obtain ⟨_, _, _, rfl⟩ := next_dmxRxCommit h; exact .inl rfl
  | dmxRearm => obtain ⟨_, _, _, rfl⟩ := next_dmxRearm h; exact .inl (regWrite_txGrant ..)
  | txGrant c => obtain ⟨h1, _, _, rfl⟩ := next_txGrant h; exact .inr (.inl ⟨c, rfl, h1, rfl⟩)
  | txWrite => obtain ⟨_, _, _, _, rfl⟩ := next_txWrite h; exact .inl rfl
  | txSet => obtain ⟨_, _, _, rfl⟩ := next_txSet h; exact .inr (.inr (.inl ⟨rfl, rfl⟩))
  | txTimeout c => obtain ⟨_, _, rfl⟩ := next_txTimeout h; exact .inl rfl
  | waitConsume p => obtain ⟨_, _, _, _, _, rfl⟩ := next_waitConsume h; exact .inl (consume_tx ..).2
  | waitTimeout p => obtain ⟨_, _, _, _, _, _, rfl⟩ := next_waitTimeout h; exact .inl rfl
  | sync r => obtain ⟨_, rfl⟩ := next_sync h; exact .inl rfl
  | tick => obtain rfl := next_tick h; exact .inl rfl
  | init => obtain ⟨_, rfl⟩ := next_init h; exact .inl rfl
  | reset => exact .inr (.inr (.inr rfl))

/-- What a step can do to a TX channel (R158, R190, R193 to R195, R320). -/
theorem tx_next {i : Instr} {s t : State} (c : TxCh) (h : exec i s = .next t) :
    t.tx[c] = s.tx[c] ∨
      (∃ p m, i = .send p c.val m ∧ s.tx[c].state = .idle ∧
        t.tx[c] = { state := .sending, port := p, payload := m, word := 0, elapsed := 0 }) ∨
      (i = .txWrite ∧ s.txGrant = some c ∧ s.tx[c].word < 8 ∧ t.tx[c] = { s.tx[c] with word := s.tx[c].word + 1 }) ∨
      (i = .txSet ∧ s.txGrant = some c ∧ s.tx[c].word = 8 ∧
        t.tx[c] = { s.tx[c] with state := .waitAck, elapsed := 0, word := 0 }) ∨
      (i = .txTimeout c ∧ s.tx[c].state = .waitAck ∧ s.cfg.tSendTimeout ≤ s.tx[c].elapsed ∧
        t.tx[c] = { s.tx[c] with state := .idle, elapsed := 0 }) ∨
      (i = .dmxTxack ∧ s.dmxState = .dispatch ∧ s.dmxValid = true ∧ s.dmxIdx.val = c.val + 8 ∧ s.tx[c].state = .waitAck ∧
        t.tx[c] = { s.tx[c] with state := .idle, elapsed := 0 }) ∨
      (i = .tick ∧ s.tx[c].state = .waitAck ∧
        t.tx[c] = { s.tx[c] with elapsed := min (s.tx[c].elapsed + 1) s.cfg.tSendTimeout }) ∨
      i = .reset := by
  have same {u : State} (e : u.tx = s.tx) : u.tx[c] = s.tx[c] := by rw [e]
  have setTx (u : State) (d : TxCh) (x : TxChan) : (u.setTx d x).tx[c] = if d = c then x else u.tx[c] :=
    vector_get_set u.tx d c x
  cases i with
  | bind p ch => obtain ⟨_, rfl⟩ := issue_next h; left; apply same; unfold acceptBind; (repeat' split) <;> rfl
  | send p ch m =>
    obtain ⟨_, rfl⟩ := issue_next h
    unfold acceptSend
    split
    · exact .inl rfl
    case h_2 d hd =>
      obtain rfl := txChannel_some hd
      split
      · exact .inl rfl
      split
      · exact .inl rfl
      case isFalse hidle =>
        split
        · exact .inl rfl
        · by_cases e : d = c
          · subst e
            exact .inr (.inl ⟨p, m, rfl, by simpa using hidle, (setTx _ d _).trans (if_pos rfl)⟩)
          · exact .inl ((setTx _ d _).trans (if_neg e))
  | receiveNb p ch =>
    obtain ⟨_, rfl⟩ := issue_next h
    left; apply same; unfold acceptReceiveNb; (repeat' split) <;> first | rfl | exact (consume_tx ..).1
  | receiveB p ch b =>
    obtain ⟨_, rfl⟩ := issue_next h
    left; apply same; unfold acceptReceiveB; (repeat' split) <;> first | rfl | exact (consume_tx ..).1
  | pollReady p ch => obtain ⟨_, rfl⟩ := issue_next h; exact .inl rfl
  | registerListener p ch =>
    obtain ⟨_, rfl⟩ := issue_next h; left; apply same; unfold acceptRegisterListener; (repeat' split) <;> rfl
  | cancel p ch =>
    obtain ⟨_, rfl⟩ := issue_next h
    left
    apply same
    unfold acceptCancel
    split
    · rfl
    · rw [foldl_cancelOne]; rfl
  | illegal p w pl => obtain ⟨_, rfl⟩ := issue_next h; exact .inl rfl
  | c2dEnR ag | c2dSetR ag | c2dClrR ag | c2dStatR ag | rsvdR ag | d2cSetR ag | d2cClrR ag | d2cEnR ag | d2cStatR ag =>
    obtain ⟨-, rfl⟩ := next_regRead h; exact .inl rfl
  | bufR ag b k => obtain ⟨-, rfl⟩ := next_bufRead h; exact .inl rfl
  | c2dEnW ag v | c2dSetW ag v | c2dClrW ag v | c2dStatW ag v | rsvdW ag v | d2cSetW ag v | d2cClrW ag v | d2cEnW ag v
  | d2cStatW ag v => obtain ⟨-, rfl⟩ := access_next h; exact .inl (same (regWrite_tx ..))
  | bufW ag b k v => obtain ⟨-, rfl⟩ := access_next h; exact .inl rfl
  | dmxStart => obtain ⟨_, _, _, rfl⟩ := next_dmxStart h; exact .inl rfl
  | dmxClear => obtain ⟨_, _, rfl⟩ := next_dmxClear h; exact .inl (same (regWrite_tx ..))
  | dmxSpurious => obtain ⟨_, _, rfl⟩ := next_dmxSpurious h; exact .inl rfl
  | dmxTxack =>
    obtain ⟨h1, h2, d, h3, _, rfl⟩ := next_dmxTxack h
    split
    case isTrue hw =>
      by_cases e : d = c
      · subst e
        exact .inr (.inr (.inr (.inr (.inr (.inl ⟨rfl, h1, h2, h3, hw, (setTx _ d _).trans (if_pos rfl)⟩)))))
      · exact .inl ((setTx _ d _).trans (if_neg e))
    case isFalse => exact .inl rfl
  | dmxTxackUnbound => obtain ⟨_, _, _, _, _, rfl⟩ := next_dmxTxackUnbound h; exact .inl rfl
  | dmxRxDispatch => obtain ⟨_, _, _, _, _, rfl⟩ := next_dmxRxDispatch h; exact .inl rfl
  | dmxRxUnbound => obtain ⟨_, _, _, _, _, rfl⟩ := next_dmxRxUnbound h; exact .inl rfl
  | dmxRxRead => obtain ⟨_, _, _, _, rfl⟩ := next_dmxRxRead h; exact .inl rfl
  | dmxRxCommit => obtain ⟨_, _, _, rfl⟩ := next_dmxRxCommit h; exact .inl rfl
  | dmxRearm => obtain ⟨_, _, _, rfl⟩ := next_dmxRearm h; exact .inl (same (regWrite_tx ..))
  | txGrant c => obtain ⟨h1, _, _, rfl⟩ := next_txGrant h; exact .inl rfl
  | txWrite =>
    obtain ⟨d, k, hg, hk, rfl⟩ := next_txWrite h
    by_cases e : d = c
    · subst e
      exact .inr (.inr (.inl ⟨rfl, hg, by omega, (setTx _ d _).trans ((if_pos rfl).trans (by rw [hk]))⟩))
    · exact .inl ((setTx _ d _).trans (if_neg e))
  | txSet =>
    obtain ⟨d, hg, hk, rfl⟩ := next_txSet h
    by_cases e : d = c
    · subst e
      exact .inr (.inr (.inr (.inl ⟨rfl, hg, hk, (setTx _ d _).trans (if_pos rfl)⟩)))
    · exact .inl ((setTx _ d _).trans (if_neg e))
  | txTimeout d =>
    obtain ⟨h1, h2, rfl⟩ := next_txTimeout h
    by_cases e : d = c
    · subst e
      exact .inr (.inr (.inr (.inr (.inl ⟨rfl, h1, h2, (setTx _ d _).trans (if_pos rfl)⟩))))
    · exact .inl ((setTx _ d _).trans (if_neg e))
  | waitConsume p => obtain ⟨_, _, _, _, _, rfl⟩ := next_waitConsume h; exact .inl (same (consume_tx ..).1)
  | waitTimeout p => obtain ⟨_, _, _, _, _, _, rfl⟩ := next_waitTimeout h; exact .inl rfl
  | sync r => obtain ⟨_, rfl⟩ := next_sync h; exact .inl rfl
  | tick =>
    obtain rfl := next_tick h
    have e : (Vector.ofFn fun c : Fin 8 => tickTx s.cfg.tSendTimeout s.tx[c])[c] = tickTx s.cfg.tSendTimeout s.tx[c] := by
      rw [Fin.getElem_fin, Vector.getElem_ofFn]
    by_cases hw : s.tx[c].state = .waitAck
    · exact .inr (.inr (.inr (.inr (.inr (.inr (.inl ⟨rfl, hw, e.trans (if_pos hw)⟩))))))
    · exact .inl (e.trans (if_neg hw))
  | init => obtain ⟨_, rfl⟩ := next_init h; exact .inl rfl
  | reset => exact .inr (.inr (.inr (.inr (.inr (.inr (.inr rfl))))))

/-- What a step appends holds no response of port `p`. -/
def NoResponse (p : Nat) (s t : State) : Prop := ∃ new, t.history = s.history ++ new ∧ new.filter (isResponseOf p) = []

theorem noResponse_of_eq {p : Nat} {s t : State} (h : t.history = s.history) : NoResponse p s t :=
  ⟨[], by rw [h, List.append_nil], rfl⟩

theorem noResponse_mmio {p : Nat} {s t : State} {ag : Issuer} {dir : Dir} {a : Nat} {v : Word}
    (h : t.history = s.history ++ [.mmio ag dir a v]) : NoResponse p s t := ⟨_, h, rfl⟩

theorem noResponse_resp {p q : Nat} {s t : State} {w : Word} {d : Option Msg} (hq : q ≠ p)
    (h : t.history = s.history ++ [.resp q w d]) : NoResponse p s t := ⟨_, h, by simp [isResponseOf, hq]⟩

theorem noResponse_cmd {p q : Nat} {i : Instr} {s t : State} {w : Word} {d : Option Msg} (hq : q ≠ p)
    (h : t.history = s.history ++ [cmdRecord q i, .resp q w d]) : NoResponse p s t :=
  ⟨_, h, by simp [isResponseOf, cmdRecord, hq]⟩

theorem respond_history (p : Nat) (code : StatusCode) (ready : Bool) (data : Option Msg) (s : State) :
    (respond p code ready data s).history = s.history ++ [respRecord p code ready data] := rfl

theorem consume_history (p : Nat) (r : RxCh) (s : State) :
    ∃ w d, (consume p r s).history = s.history ++ [.resp p w d] := by
  unfold consume; split <;> exact ⟨_, _, rfl⟩

theorem regWrite_history (ag : Issuer) (r : Reg) (v : Word) (s : State) :
    (regWrite ag r v s).history = s.history ++ [.mmio ag .write (regAddr s.cfg r) v] := by
  cases r <;> simp only [regWrite, regEffect, State.log] <;> (try split) <;> rfl

/-- While a port pends a send, a step other than RESET appends no response of it, but for TX_TIMEOUT and DMX_TXACK of a
channel that awaits the ack for that port (R158, R195). -/
theorem responses_next {i : Instr} {s t : State} {p : Nat} (h : exec i s = .next t) (hi : i ≠ .reset)
    (hp : ∃ x c, s.ports[p]? = some x ∧ x.state = .sendPending c) :
    NoResponse p s t ∨ ∃ (d : TxCh) (code : StatusCode), s.tx[d].state = .waitAck ∧ s.tx[d].port = p ∧
      ((i = .txTimeout d ∧ code = .sendTimeout) ∨ (i = .dmxTxack ∧ s.dmxIdx.val = d.val + 8)) ∧
      t.history = s.history ++ [respRecord p code false none] := by
  obtain ⟨x, c, hx, hs⟩ := hp
  have other {q : Nat} (hm : mayIssue q s) : q ≠ p := by
    rintro rfl
    obtain ⟨-, y, hy, hf⟩ := hm
    rw [hx] at hy; injection hy with hy; subst hy
    rw [hs] at hf; cases hf
  have cmd {q : Nat} {j : Instr} {code : StatusCode} {b : Bool} {d : Option Msg} {u v : State} (hq : q ≠ p)
      (hu : u.history = s.history ++ [cmdRecord q j]) (hv : v.history = (respond q code b d u).history) :
      NoResponse p s v :=
    noResponse_cmd hq (i := j) (by rw [hv, respond_history, hu, List.append_assoc]; rfl)
  have con {q : Nat} {j : Instr} {r : RxCh} (hq : q ≠ p) : NoResponse p s (consume q r (s.log (cmdRecord q j))) := by
    obtain ⟨w, d, e⟩ := consume_history q r (s.log (cmdRecord q j))
    exact noResponse_cmd hq (i := j) (by rw [e, State.log_history, List.append_assoc]; rfl)
  cases i with
  | bind q ch =>
    obtain ⟨hm, rfl⟩ := issue_next h
    left; unfold acceptBind; (repeat' split) <;> exact cmd (other hm) rfl rfl
  | send q ch m =>
    obtain ⟨hm, rfl⟩ := issue_next h
    left; unfold acceptSend
    repeat' split
    any_goals exact cmd (other hm) rfl rfl
    exact ⟨[_], rfl, rfl⟩
  | receiveNb q ch =>
    obtain ⟨hm, rfl⟩ := issue_next h
    left; unfold acceptReceiveNb; (repeat' split) <;> first | exact con (other hm) | exact cmd (other hm) rfl rfl
  | receiveB q ch b =>
    obtain ⟨hm, rfl⟩ := issue_next h
    left; unfold acceptReceiveB
    (repeat' split) <;> first | exact con (other hm) | exact cmd (other hm) rfl rfl | exact ⟨[_], rfl, rfl⟩
  | pollReady q ch => obtain ⟨hm, rfl⟩ := issue_next h; exact .inl (cmd (other hm) rfl rfl)
  | registerListener q ch =>
    obtain ⟨hm, rfl⟩ := issue_next h
    left; unfold acceptRegisterListener; (repeat' split) <;> exact cmd (other hm) rfl rfl
  | cancel q ch =>
    obtain ⟨hm, rfl⟩ := issue_next h
    left
    unfold acceptCancel
    split
    · exact cmd (other hm) rfl rfl
    case h_2 r hr =>
      rw [foldl_cancelOne]
      refine ⟨[cmdRecord q (.cancel q ch)] ++ ((List.range s.cfg.numPorts).filter
        (waitsOn (s.log (cmdRecord q (.cancel q ch))) r)).map (fun q' => respRecord q' .cancelled false none) ++
        [respRecord q .ok false none], by simp [respond_history, List.append_assoc], ?_⟩
      have hw : waitsOn (s.log (cmdRecord q (.cancel q ch))) r p = false := by
        simp only [waitsOn, State.log_ports, hx]
        obtain ⟨st, el⟩ := x
        cases hs
        rfl
      rw [List.filter_eq_nil_iff]
      intro e he hr
      simp only [List.mem_append, List.mem_singleton, List.mem_map, List.mem_filter] at he
      rcases he with (rfl | ⟨q', ⟨-, hq'⟩, rfl⟩) | rfl
      · cases hr
      · simp only [isResponseOf, respRecord, decide_eq_true_eq] at hr
        subst hr
        rw [hw] at hq'; cases hq'
      · simp only [isResponseOf, respRecord, decide_eq_true_eq] at hr
        exact other hm hr
  | illegal q w pl => obtain ⟨hm, rfl⟩ := issue_next h; exact .inl (cmd (other hm) rfl rfl)
  | c2dEnR ag | c2dSetR ag | c2dClrR ag | c2dStatR ag | rsvdR ag | d2cSetR ag | d2cClrR ag | d2cEnR ag | d2cStatR ag =>
    obtain ⟨-, rfl⟩ := next_regRead h; exact .inl (noResponse_mmio rfl)
  | bufR ag b k => obtain ⟨-, rfl⟩ := next_bufRead h; exact .inl (noResponse_mmio rfl)
  | c2dEnW ag v | c2dSetW ag v | c2dClrW ag v | c2dStatW ag v | rsvdW ag v | d2cSetW ag v | d2cClrW ag v | d2cEnW ag v
  | d2cStatW ag v => obtain ⟨-, rfl⟩ := access_next h; exact .inl (noResponse_mmio (regWrite_history ..))
  | bufW ag b k v => obtain ⟨-, rfl⟩ := access_next h; exact .inl (noResponse_mmio rfl)
  | dmxStart => obtain ⟨_, _, _, rfl⟩ := next_dmxStart h; exact .inl (noResponse_mmio rfl)
  | dmxClear => obtain ⟨_, _, rfl⟩ := next_dmxClear h; exact .inl (noResponse_mmio (regWrite_history ..))
  | dmxSpurious => obtain ⟨_, _, rfl⟩ := next_dmxSpurious h; exact .inl ⟨_, rfl, rfl⟩
  | dmxTxack =>
    obtain ⟨_, _, d, hd, _, rfl⟩ := next_dmxTxack h
    split
    case isTrue hw =>
      by_cases e : s.tx[d].port = p
      · exact .inr ⟨d, .ok, hw, e, .inr ⟨rfl, hd⟩, by subst e; rfl⟩
      · exact .inl (noResponse_resp e rfl)
    case isFalse => exact .inl ⟨_, rfl, rfl⟩
  | dmxTxackUnbound => obtain ⟨_, _, _, _, _, rfl⟩ := next_dmxTxackUnbound h; exact .inl ⟨_, rfl, rfl⟩
  | dmxRxDispatch => obtain ⟨_, _, _, _, _, rfl⟩ := next_dmxRxDispatch h; exact .inl (noResponse_of_eq rfl)
  | dmxRxUnbound => obtain ⟨_, _, _, _, _, rfl⟩ := next_dmxRxUnbound h; exact .inl ⟨_, rfl, rfl⟩
  | dmxRxRead => obtain ⟨_, _, _, _, rfl⟩ := next_dmxRxRead h; exact .inl (noResponse_mmio rfl)
  | dmxRxCommit => obtain ⟨_, _, _, rfl⟩ := next_dmxRxCommit h; exact .inl (noResponse_of_eq rfl)
  | dmxRearm => obtain ⟨_, _, _, rfl⟩ := next_dmxRearm h; exact .inl (noResponse_mmio (regWrite_history ..))
  | txGrant c => obtain ⟨_, _, _, rfl⟩ := next_txGrant h; exact .inl (noResponse_of_eq rfl)
  | txWrite => obtain ⟨_, _, _, _, rfl⟩ := next_txWrite h; exact .inl (noResponse_mmio rfl)
  | txSet => obtain ⟨_, _, _, rfl⟩ := next_txSet h; exact .inl (noResponse_mmio rfl)
  | txTimeout d =>
    obtain ⟨hw, _, rfl⟩ := next_txTimeout h
    by_cases e : s.tx[d].port = p
    · exact .inr ⟨d, .sendTimeout, hw, e, .inl ⟨rfl, rfl⟩, by subst e; rfl⟩
    · exact .inl (noResponse_resp e rfl)
  | waitConsume q =>
    obtain ⟨r, b, e, hq, _, rfl⟩ := next_waitConsume h
    obtain ⟨w, d, eh⟩ := consume_history q r s
    refine .inl (noResponse_resp ?_ eh)
    rintro rfl
    rw [hx] at hq; injection hq with hq; subst hq; cases hs
  | waitTimeout q =>
    obtain ⟨r, b, e, hq, _, _, rfl⟩ := next_waitTimeout h
    refine .inl (noResponse_resp (q := q) ?_ rfl)
    rintro rfl
    rw [hx] at hq; injection hq with hq; subst hq; cases hs
  | sync r =>
    obtain ⟨_, rfl⟩ := next_sync h
    refine .inl ⟨_, rfl, List.filter_eq_nil_iff.2 ?_⟩
    intro e he hr
    obtain ⟨q, -, rfl⟩ := List.mem_map.1 he
    cases hr
  | tick => obtain rfl := next_tick h; exact .inl (noResponse_of_eq rfl)
  | init => obtain ⟨_, rfl⟩ := next_init h; exact .inl (noResponse_mmio (regWrite_history ..))
  | reset => exact absurd rfl hi

/-- What a step can do to the D2C status word (R31). -/
theorem d2cStat_next {i : Instr} {s t : State} (h : exec i s = .next t) :
    t.d2cStat = s.d2cStat ∨ (∃ v, t.d2cStat = s.d2cStat &&& ~~~v) ∨
      (∃ ag v, i = .d2cSetW ag v ∧ t.d2cStat = s.d2cStat ||| v) ∨ i = .reset := by
  have con (p : Nat) (r : RxCh) (u : State) : (consume p r u).d2cStat = u.d2cStat := by unfold consume; split <;> rfl
  have clr (ag : Issuer) (v : Word) (u : State) : (regWrite ag .d2cClr v u).d2cStat = u.d2cStat ∨
      (regWrite ag .d2cClr v u).d2cStat = u.d2cStat &&& ~~~v := by
    rw [regWrite_d2cClr]; dsimp only; split
    · exact .inr rfl
    · exact .inl rfl
  cases i with
  | bind p ch => obtain ⟨_, rfl⟩ := issue_next h; left; unfold acceptBind; (repeat' split) <;> rfl
  | send p ch m => obtain ⟨_, rfl⟩ := issue_next h; left; unfold acceptSend; (repeat' split) <;> rfl
  | receiveNb p ch =>
    obtain ⟨_, rfl⟩ := issue_next h; left; unfold acceptReceiveNb; (repeat' split) <;> first | rfl | exact con ..
  | receiveB p ch b =>
    obtain ⟨_, rfl⟩ := issue_next h; left; unfold acceptReceiveB; (repeat' split) <;> first | rfl | exact con ..
  | pollReady p ch => obtain ⟨_, rfl⟩ := issue_next h; exact .inl rfl
  | registerListener p ch =>
    obtain ⟨_, rfl⟩ := issue_next h; left; unfold acceptRegisterListener; (repeat' split) <;> rfl
  | cancel p ch =>
    obtain ⟨_, rfl⟩ := issue_next h
    left
    unfold acceptCancel
    split
    · rfl
    · rw [foldl_cancelOne]; rfl
  | illegal p w pl => obtain ⟨_, rfl⟩ := issue_next h; exact .inl rfl
  | c2dEnR ag | c2dSetR ag | c2dClrR ag | c2dStatR ag | rsvdR ag | d2cSetR ag | d2cClrR ag | d2cEnR ag | d2cStatR ag =>
    obtain ⟨-, rfl⟩ := next_regRead h; exact .inl rfl
  | bufR ag b k => obtain ⟨-, rfl⟩ := next_bufRead h; exact .inl rfl
  | c2dEnW ag v | c2dSetW ag v | c2dStatW ag v | rsvdW ag v | d2cEnW ag v | d2cStatW ag v =>
    obtain ⟨-, rfl⟩ := access_next h; exact .inl rfl
  | c2dClrW ag v => obtain ⟨-, rfl⟩ := access_next h; rw [regWrite_c2dClr]; exact .inl rfl
  | d2cSetW ag v => obtain ⟨-, rfl⟩ := access_next h; exact .inr (.inr (.inl ⟨ag, v, rfl, rfl⟩))
  | d2cClrW ag v => obtain ⟨-, rfl⟩ := access_next h; exact (clr ag v s).imp id fun e => .inl ⟨v, e⟩
  | bufW ag b k v => obtain ⟨-, rfl⟩ := access_next h; exact .inl rfl
  | dmxStart => obtain ⟨_, _, _, rfl⟩ := next_dmxStart h; exact .inl rfl
  | dmxClear => obtain ⟨_, _, rfl⟩ := next_dmxClear h; exact (clr .demux s.dmxMask s).imp id fun e => .inl ⟨_, e⟩
  | dmxSpurious => obtain ⟨_, _, rfl⟩ := next_dmxSpurious h; exact .inl rfl
  | dmxTxack => obtain ⟨_, _, _, _, _, rfl⟩ := next_dmxTxack h; left; split <;> rfl
  | dmxTxackUnbound => obtain ⟨_, _, _, _, _, rfl⟩ := next_dmxTxackUnbound h; exact .inl rfl
  | dmxRxDispatch => obtain ⟨_, _, _, _, _, rfl⟩ := next_dmxRxDispatch h; exact .inl rfl
  | dmxRxUnbound => obtain ⟨_, _, _, _, _, rfl⟩ := next_dmxRxUnbound h; exact .inl rfl
  | dmxRxRead => obtain ⟨_, _, _, _, rfl⟩ := next_dmxRxRead h; exact .inl rfl
  | dmxRxCommit => obtain ⟨_, _, _, rfl⟩ := next_dmxRxCommit h; exact .inl rfl
  | dmxRearm => obtain ⟨_, _, _, rfl⟩ := next_dmxRearm h; exact .inl rfl
  | txGrant c => obtain ⟨_, _, _, rfl⟩ := next_txGrant h; exact .inl rfl
  | txWrite => obtain ⟨_, _, _, _, rfl⟩ := next_txWrite h; exact .inl rfl
  | txSet => obtain ⟨_, _, _, rfl⟩ := next_txSet h; exact .inl rfl
  | txTimeout c => obtain ⟨_, _, rfl⟩ := next_txTimeout h; exact .inl rfl
  | waitConsume p => obtain ⟨_, _, _, _, _, rfl⟩ := next_waitConsume h; exact .inl (con ..)
  | waitTimeout p => obtain ⟨_, _, _, _, _, _, rfl⟩ := next_waitTimeout h; exact .inl rfl
  | sync r => obtain ⟨_, rfl⟩ := next_sync h; exact .inl rfl
  | tick => obtain rfl := next_tick h; exact .inl rfl
  | init => obtain ⟨_, rfl⟩ := next_init h; exact .inl rfl
  | reset => exact .inr (.inr (.inr rfl))

/-- What a step can do to the saved position of an invocation (R155). -/
theorem dmx_next {i : Instr} {s t : State} (h : exec i s = .next t) :
    (t.dmxValid = s.dmxValid ∧ t.dmxIdx = s.dmxIdx ∧ (s.dmxState = .idle → t.dmxState = .idle)) ∨
      (i = .dmxStart ∧ t.dmxValid = (prioEnc s.d2cStat).1 ∧ t.dmxIdx = (prioEnc s.d2cStat).2) ∨ i = .reset := by
  have con (p : Nat) (r : RxCh) (u : State) : (consume p r u).dmxValid = u.dmxValid ∧ (consume p r u).dmxIdx = u.dmxIdx ∧
      (u.dmxState = .idle → (consume p r u).dmxState = .idle) := by unfold consume; split <;> exact ⟨rfl, rfl, id⟩
  have wr (ag : Issuer) (r : Reg) (v : Word) (u : State) : (regWrite ag r v u).dmxValid = u.dmxValid ∧
      (regWrite ag r v u).dmxIdx = u.dmxIdx ∧ (u.dmxState = .idle → (regWrite ag r v u).dmxState = .idle) := by
    have e1 := congrArg State.dmxValid (regWrite_frame ag r v u)
    have e2 := congrArg State.dmxIdx (regWrite_frame ag r v u)
    have e3 := congrArg State.dmxState (regWrite_frame ag r v u)
    exact ⟨e1, e2, fun h => Eq.trans e3 h⟩
  have out {st : DmxState} {P : Prop} (h1 : s.dmxState = st) (h2 : st ≠ .idle) : s.dmxState = .idle → P :=
    fun h3 => absurd (h1.symm.trans h3) h2
  cases i with
  | bind p ch => obtain ⟨_, rfl⟩ := issue_next h; left; unfold acceptBind; (repeat' split) <;> exact ⟨rfl, rfl, id⟩
  | send p ch m => obtain ⟨_, rfl⟩ := issue_next h; left; unfold acceptSend; (repeat' split) <;> exact ⟨rfl, rfl, id⟩
  | receiveNb p ch =>
    obtain ⟨_, rfl⟩ := issue_next h; left; unfold acceptReceiveNb
    (repeat' split) <;> first | exact ⟨rfl, rfl, id⟩ | exact con ..
  | receiveB p ch b =>
    obtain ⟨_, rfl⟩ := issue_next h; left; unfold acceptReceiveB
    (repeat' split) <;> first | exact ⟨rfl, rfl, id⟩ | exact con ..
  | pollReady p ch => obtain ⟨_, rfl⟩ := issue_next h; exact .inl ⟨rfl, rfl, id⟩
  | registerListener p ch =>
    obtain ⟨_, rfl⟩ := issue_next h; left; unfold acceptRegisterListener; (repeat' split) <;> exact ⟨rfl, rfl, id⟩
  | cancel p ch =>
    obtain ⟨_, rfl⟩ := issue_next h
    left
    unfold acceptCancel
    split
    · exact ⟨rfl, rfl, id⟩
    · rw [foldl_cancelOne]; exact ⟨rfl, rfl, id⟩
  | illegal p w pl => obtain ⟨_, rfl⟩ := issue_next h; exact .inl ⟨rfl, rfl, id⟩
  | c2dEnR ag | c2dSetR ag | c2dClrR ag | c2dStatR ag | rsvdR ag | d2cSetR ag | d2cClrR ag | d2cEnR ag | d2cStatR ag =>
    obtain ⟨-, rfl⟩ := next_regRead h; exact .inl ⟨rfl, rfl, id⟩
  | bufR ag b k => obtain ⟨-, rfl⟩ := next_bufRead h; exact .inl ⟨rfl, rfl, id⟩
  | c2dEnW ag v | c2dSetW ag v | c2dClrW ag v | c2dStatW ag v | rsvdW ag v | d2cSetW ag v | d2cClrW ag v | d2cEnW ag v
  | d2cStatW ag v => obtain ⟨-, rfl⟩ := access_next h; exact .inl (wr ..)
  | bufW ag b k v => obtain ⟨-, rfl⟩ := access_next h; exact .inl ⟨rfl, rfl, id⟩
  | dmxStart => obtain ⟨_, _, _, rfl⟩ := next_dmxStart h; exact .inr (.inl ⟨rfl, rfl, rfl⟩)
  | dmxClear => obtain ⟨n, hn, rfl⟩ := next_dmxClear h; exact .inl ⟨(wr ..).1, (wr ..).2.1, out hn (by simp)⟩
  | dmxSpurious => obtain ⟨_, _, rfl⟩ := next_dmxSpurious h; exact .inl ⟨rfl, rfl, fun _ => rfl⟩
  | dmxTxack => obtain ⟨_, _, _, _, _, rfl⟩ := next_dmxTxack h; left; split <;> exact ⟨rfl, rfl, fun _ => rfl⟩
  | dmxTxackUnbound => obtain ⟨_, _, _, _, _, rfl⟩ := next_dmxTxackUnbound h; exact .inl ⟨rfl, rfl, fun _ => rfl⟩
  | dmxRxDispatch => obtain ⟨hd, _, _, _, _, rfl⟩ := next_dmxRxDispatch h; exact .inl ⟨rfl, rfl, out hd (by simp)⟩
  | dmxRxUnbound => obtain ⟨_, _, _, _, _, rfl⟩ := next_dmxRxUnbound h; exact .inl ⟨rfl, rfl, fun _ => rfl⟩
  | dmxRxRead => obtain ⟨_, _, hd, _, rfl⟩ := next_dmxRxRead h; exact .inl ⟨rfl, rfl, out hd (by simp)⟩
  | dmxRxCommit => obtain ⟨_, hd, _, rfl⟩ := next_dmxRxCommit h; exact .inl ⟨rfl, rfl, out hd (by simp)⟩
  | dmxRearm => obtain ⟨_, _, _, rfl⟩ := next_dmxRearm h; exact .inl ⟨rfl, rfl, fun _ => rfl⟩
  | txGrant c => obtain ⟨_, _, _, rfl⟩ := next_txGrant h; exact .inl ⟨rfl, rfl, id⟩
  | txWrite => obtain ⟨_, _, _, _, rfl⟩ := next_txWrite h; exact .inl ⟨rfl, rfl, id⟩
  | txSet => obtain ⟨_, _, _, rfl⟩ := next_txSet h; exact .inl ⟨rfl, rfl, id⟩
  | txTimeout c => obtain ⟨_, _, rfl⟩ := next_txTimeout h; exact .inl ⟨rfl, rfl, id⟩
  | waitConsume p => obtain ⟨_, _, _, _, _, rfl⟩ := next_waitConsume h; exact .inl (con ..)
  | waitTimeout p => obtain ⟨_, _, _, _, _, _, rfl⟩ := next_waitTimeout h; exact .inl ⟨rfl, rfl, id⟩
  | sync r => obtain ⟨_, rfl⟩ := next_sync h; exact .inl ⟨rfl, rfl, id⟩
  | tick => obtain rfl := next_tick h; exact .inl ⟨rfl, rfl, id⟩
  | init => obtain ⟨_, rfl⟩ := next_init h; exact .inl ⟨rfl, rfl, id⟩
  | reset => exact .inr (.inr rfl)

/-- A channel without a TX-ack gets none but by a write of D2C_SET (R31, R155). -/
theorem noAck_next {i : Instr} {s t : State} {c : TxCh} (h : exec i s = .next t) (hn : noAck c s)
    (hw : ∀ ag v, i = .d2cSetW ag v → (v >>> (2 * (c.val + 8))) &&& 0x3 = 0) : noAck c t := by
  obtain ⟨h1, h2⟩ := hn
  have hc : c.val + 8 < 16 := by omega
  constructor
  · rw [pair_eq_zero_iff _ _] at h1 ⊢
    rcases d2cStat_next h with e | ⟨v, e⟩ | ⟨ag, v, hi, e⟩ | rfl
    · rw [e]; exact h1
    · rw [e]; simp [BitVec.getLsbD_and, h1.1, h1.2]
    · have := (pair_eq_zero_iff _ _).1 (hw ag v hi)
      rw [e]; simp [BitVec.getLsbD_or, h1.1, h1.2, this.1, this.2]
    · obtain rfl := next_reset h
      simp [resetMailbox, State.resetOf]
  · rcases dmx_next h with ⟨e1, e2, e3⟩ | ⟨rfl, e1, e2⟩ | rfl
    · intro a b
      rw [e1] at b
      rw [e2]
      exact h2 (fun h => a (e3 h)) b
    · intro _ b hx
      rw [e1] at b
      rw [e2] at hx
      rcases prioEnc_cases s.d2cStat with ⟨-, hf, -⟩ | ⟨hf, -⟩
      · simp only [fired, pair, hx, h1] at hf
        simp at hf
      · rw [hf] at b; cases b
    · obtain rfl := next_reset h
      intro a; exact absurd rfl a

/-! ## Along a run -/

variable {sched : Nat → Slot} {σ : Nat → State}

/-- What step `n` of a run can do to the grant. -/
theorem run_txGrant (h : IsRun sched σ) (n : Nat) :
    (σ (n + 1)).txGrant = (σ n).txGrant ∨
      (∃ c, Takes sched σ n (.txGrant c) ∧ (σ n).txGrant = none ∧ (σ (n + 1)).txGrant = some c) ∨
      (Takes sched σ n .txSet ∧ (σ (n + 1)).txGrant = none) ∨ Takes sched σ n .reset := by
  rcases stepOn_taken (h n) with ⟨i, ht, -, he⟩ | e | e
  · rcases txGrant_next he with h1 | ⟨c, rfl, h1, h2⟩ | ⟨rfl, h1⟩ | rfl
    · exact .inl h1
    · exact .inr (.inl ⟨c, ht, h1, h2⟩)
    · exact .inr (.inr (.inl ⟨ht, h1⟩))
    · exact .inr (.inr (.inr ht))
  · rw [e]; exact .inl rfl
  · rw [e]; exact .inl rfl

/-- What step `n` of a run can do to a TX channel. -/
theorem run_tx (h : IsRun sched σ) (c : TxCh) (n : Nat) :
    (σ (n + 1)).tx[c] = (σ n).tx[c] ∨
      (∃ p m, Takes sched σ n (.send p c.val m) ∧ (σ n).tx[c].state = .idle) ∨
      (Takes sched σ n .txWrite ∧ (σ n).txGrant = some c ∧
        (σ (n + 1)).tx[c] = { (σ n).tx[c] with word := (σ n).tx[c].word + 1 }) ∨
      (Takes sched σ n .txSet ∧ (σ n).txGrant = some c) ∨
      (Takes sched σ n (.txTimeout c) ∧ (σ n).tx[c].state = .waitAck ∧
        (σ n).cfg.tSendTimeout ≤ (σ n).tx[c].elapsed) ∨
      (Takes sched σ n .dmxTxack ∧ (σ n).dmxState = .dispatch ∧ (σ n).dmxValid = true ∧
        (σ n).dmxIdx.val = c.val + 8 ∧ (σ n).tx[c].state = .waitAck) ∨
      (Takes sched σ n .tick ∧ (σ n).tx[c].state = .waitAck ∧
        (σ (n + 1)).tx[c] = { (σ n).tx[c] with elapsed := min ((σ n).tx[c].elapsed + 1) (σ n).cfg.tSendTimeout }) ∨
      Takes sched σ n .reset := by
  rcases stepOn_taken (h n) with ⟨i, ht, -, he⟩ | e | e
  · rcases tx_next c he with h1 | ⟨p, m, rfl, h1, -⟩ | ⟨rfl, h1, -, h3⟩ | ⟨rfl, h1, -⟩ | ⟨rfl, h1, h2, -⟩ |
      ⟨rfl, h1, h2, h3, h4, -⟩ | ⟨rfl, h1, h2⟩ | rfl
    · exact .inl h1
    · exact .inr (.inl ⟨p, m, ht, h1⟩)
    · exact .inr (.inr (.inl ⟨ht, h1, h3⟩))
    · exact .inr (.inr (.inr (.inl ⟨ht, h1⟩)))
    · exact .inr (.inr (.inr (.inr (.inl ⟨ht, h1, h2⟩))))
    · exact .inr (.inr (.inr (.inr (.inr (.inl ⟨ht, h1, h2, h3, h4⟩)))))
    · exact .inr (.inr (.inr (.inr (.inr (.inr (.inl ⟨ht, h1, h2⟩))))))
    · exact .inr (.inr (.inr (.inr (.inr (.inr (.inr ht))))))
  · rw [e]; exact .inl rfl
  · rw [e]; exact .inl rfl

/-- Along a run, a channel without a TX-ack gets none but by a write of D2C_SET. -/
theorem run_noAck (h : IsRun sched σ) (c : TxCh) (n : Nat) (hn : noAck c (σ n))
    (hw : ∀ ag v, Takes sched σ n (.d2cSetW ag v) → (v >>> (2 * (c.val + 8))) &&& 0x3 = 0) : noAck c (σ (n + 1)) := by
  rcases stepOn_taken (h n) with ⟨i, ht, -, he⟩ | e | e
  · exact noAck_next he hn fun ag v hi => hw ag v (hi ▸ ht)
  · rw [e]; exact hn
  · rw [e]; exact hn

end Sys2Proof.Machine
end

