-- ==== Sys2Proof/Tests/Slice0.lean ====
section
/-! SUPPORT. The model's own tests: the WellFormed smoke, one written-out encoding per row, single steps from the vectors of
95_test_vectors.md, and for each obligation with hypotheses a state and operands that meet them. -/

namespace Sys2Proof.Machine.Tests

/-! ## States -/

/-- The message M of 95_test_vectors.md. -/
def msgM : Msg := Vector.ofFn fun k : Fin 32 => BitVec.ofNat 8 (k.val + 1)

/-- After INIT, with only 5 and 13 bound (the start of V6). -/
def s0 : State :=
  { State.reset with
    d2cEn := 0xFFFFFFFF
    initDone := true
    bound := ((Vector.replicate 16 false).set 5 true).set 13 true }

/-- TX channel 5 in the given state. -/
def txS (st : TxState) (port word elapsed : Nat) : State :=
  s0.setTx 5 { state := st, port := port, payload := msgM, word := word, elapsed := elapsed }

/-- The payload path granted to channel 5, `word` words written. -/
def grantS (word : Nat) : State := { txS .sending 0 word 0 with txGrant := some 5 }

/-- RX channel 13 with message M, its flag and the flag's copy; ports 1 and 3 listen. -/
def rxS (ready sync : Bool) : State :=
  s0.setRx 5 { buf := msgM, ready := ready, readySync := sync, listeners := [false, true, false, true] }

/-- Port 1 waits on RX channel 13. -/
def waitS (b elapsed : Nat) (sync : Bool) : State :=
  (rxS sync sync).setPort 1 { state := .waiting 5 b, elapsed := elapsed }

/-- An invocation for a position, in a state of the demultiplexer. -/
def dmxS (st : DmxState) (idx : Fin 16) : State :=
  { s0 with dmxState := st, dmxValid := true, dmxIdx := idx, dmxMask := pmask idx }

/-- The next slot proposes `pr`. -/
def slotS (pr : Proposal) (s : State) : State := { s with agenda := [{ proposal := pr, draws := noDraws }] }

/-- The draws of this step. -/
def withXferErr (s : State) : State := { s with draws := { s.draws with xferErr := true } }

/-- The state a result goes on to. -/
def next? (r : Result) : Option State :=
  match r with
  | .next t => some t
  | .fault _ => none
  | .refused _ => none

/-- The records of a result. -/
def recs (r : Result) : Option (List Record) := (next? r).map State.history

/-- The instruction a proposal decodes to. -/
def dec (pr : Proposal) : Option Instr := (decode Config.vectors pr).toOption

/-! ## WellFormed smoke: one ill-formed term per check -/

theorem test_wf_bind : (Instr.bind 0 255).wf = true ∧ (Instr.bind 0 256).wf = false := by decide
theorem test_wf_send : (Instr.send 0 255 msgM).wf = true ∧ (Instr.send 0 256 msgM).wf = false := by decide
theorem test_wf_receiveNb : (Instr.receiveNb 0 255).wf = true ∧ (Instr.receiveNb 0 256).wf = false := by decide
theorem test_wf_receiveB_channel : (Instr.receiveB 0 256 0).wf = false := by decide
theorem test_wf_receiveB_timeout :
    (Instr.receiveB 0 255 65535).wf = true ∧ (Instr.receiveB 0 255 65536).wf = false := by decide
theorem test_wf_pollReady : (Instr.pollReady 0 256).wf = false := by decide
theorem test_wf_registerListener : (Instr.registerListener 0 256).wf = false := by decide
theorem test_wf_cancel : (Instr.cancel 0 256).wf = false := by decide
theorem test_wf_illegal_of_a_legal_word : (Instr.illegal 0 0x00000051 none).wf = false := by decide
theorem test_wf_illegal_send_without_payload : (Instr.illegal 0 0x00001052 none).wf = false := by decide
theorem test_wf_illegal_payload_without_send :
    (Instr.illegal 0 0x00000007 none).wf = true ∧ (Instr.illegal 0 0x00000007 (some msgM)).wf = false := by decide

/-! ## Decoding: V4, R92, R120, R140, R100 -/

theorem test_decode_bind : dec (.command 0 0x00000051 msgM) = some (.bind 0 5) := by decide
theorem test_decode_send : dec (.command 0 0x00000FF2 msgM) = some (.send 0 255 msgM) := by decide
theorem test_decode_receiveNb : dec (.command 0 0x000000D3 msgM) = some (.receiveNb 0 13) := by decide
theorem test_decode_receiveB :
    dec (.command 0 0x000010D3 msgM) = some (.receiveB 0 13 0) ∧
    dec (.command 0 0xFFFF10D3 msgM) = some (.receiveB 0 13 65535) := by decide
theorem test_decode_pollReady : dec (.command 0 0x000000D4 msgM) = some (.pollReady 0 13) := by decide
theorem test_decode_registerListener : dec (.command 0 0x000000D5 msgM) = some (.registerListener 0 13) := by decide
theorem test_decode_cancel : dec (.command 0 0x000000D6 msgM) = some (.cancel 0 13) := by decide
theorem test_decode_illegal :
    dec (.command 0 0x00000000 msgM) = some (.illegal 0 0x00000000 none) ∧
    dec (.command 0 0x00000007 msgM) = some (.illegal 0 0x00000007 none) ∧
    dec (.command 0 0x000000DF msgM) = some (.illegal 0 0x000000DF none) ∧
    dec (.command 0 0x000100D3 msgM) = some (.illegal 0 0x000100D3 none) ∧
    dec (.command 0 0x000020D3 msgM) = some (.illegal 0 0x000020D3 none) ∧
    dec (.command 0 0x00001052 msgM) = some (.illegal 0 0x00001052 (some msgM)) ∧
    dec (.command 0 0x00010051 msgM) = some (.illegal 0 0x00010051 none) := by decide

theorem test_decode_register_reads :
    dec (.access .peer .read 32 0x10000000 0) = some (.c2dEnR .peer) ∧
    dec (.access .peer .read 32 0x10000004 0) = some (.c2dSetR .peer) ∧
    dec (.access .peer .read 32 0x10000008 0) = some (.c2dClrR .peer) ∧
    dec (.access .peer .read 32 0x1000000c 0) = some (.c2dStatR .peer) ∧
    dec (.access .peer .read 32 0x10000010 0) = some (.rsvdR .peer) ∧
    dec (.access .peer .read 32 0x10000014 0) = some (.d2cSetR .peer) ∧
    dec (.access .peer .read 32 0x10000018 0) = some (.d2cClrR .peer) ∧
    dec (.access .peer .read 32 0x1000001c 0) = some (.d2cEnR .peer) ∧
    dec (.access .peer .read 32 0x10000020 0) = some (.d2cStatR .peer) := by decide

theorem test_decode_register_writes :
    dec (.access .peer .write 32 0x10000000 7) = some (.c2dEnW .peer 7) ∧
    dec (.access .peer .write 32 0x10000004 7) = some (.c2dSetW .peer 7) ∧
    dec (.access .peer .write 32 0x10000008 7) = some (.c2dClrW .peer 7) ∧
    dec (.access .peer .write 32 0x1000000c 7) = some (.c2dStatW .peer 7) ∧
    dec (.access .peer .write 32 0x10000010 7) = some (.rsvdW .peer 7) ∧
    dec (.access .peer .write 32 0x10000014 7) = some (.d2cSetW .peer 7) ∧
    dec (.access .peer .write 32 0x10000018 7) = some (.d2cClrW .peer 7) ∧
    dec (.access .peer .write 32 0x1000001c 7) = some (.d2cEnW .peer 7) ∧
    dec (.access .peer .write 32 0x10000020 7) = some (.d2cStatW .peer 7) := by decide

/-- V3: buffer 5 starts at 0x1000_01A0, buffer 13 ends with the word at 0x1000_02BC. -/
theorem test_decode_buffers :
    dec (.access .peer .read 32 0x100001A0 0) = some (.bufR .peer 5 0) ∧
    dec (.access .peer .write 32 0x100002BC 7) = some (.bufW .peer 13 7 7) := by decide

theorem test_decode_demux_events :
    [Instr.dmxStart, .dmxClear, .dmxSpurious, .dmxTxack, .dmxTxackUnbound, .dmxRxDispatch, .dmxRxRead, .dmxRxCommit,
      .dmxRearm, .dmxRxUnbound].all (fun i => dec (.event i) == some i) = true := by decide

theorem test_decode_other_events :
    [Instr.txGrant 7, .txWrite, .txSet, .txTimeout 7, .waitConsume 3, .waitTimeout 3, .sync 7, .tick, .init, .reset].all
      (fun i => dec (.event i) == some i) = true := by decide

/-- R142, by name. -/
theorem test_decode_rejects :
    decodeAccess Config.vectors .peer .read 16 0x10000000 0 = .error .badWidth ∧
    decodeAccess Config.vectors .peer .read 32 0x10000002 0 = .error .misaligned ∧
    decodeAccess Config.vectors .peer .read 32 0x10000024 0 = .error .outsideWindows ∧
    decodeAccess Config.vectors .peer .read 32 0x10000300 0 = .error .outsideWindows := by
  exact ⟨rfl, rfl, rfl, rfl⟩

theorem test_decode_rejects_a_command_as_event : dec (.event (.bind 0 5)) = none := by decide

/-- R95, R101: SEND 5 with 32 payload bytes, and one byte short of it. -/
theorem test_decode_bytes :
    (decodeBytes 0 ([0x52, 0, 0, 0] ++ msgM.toList)).toOption = some (.send 0 5 msgM, []) ∧
    (decodeBytes 0 ([0x52, 0, 0, 0] ++ msgM.toList.tail)).toOption = none ∧
    (decodeBytes 0 [0x51, 0, 0]).toOption = none := by decide

/-! ## R10, R32, R143, R150 -/

theorem test_priority_encoder :
    prioEnc 0x00000000 = (false, 0) ∧ prioEnc 0x00000001 = (true, 0) ∧ prioEnc 0x00000002 = (true, 0) ∧
    prioEnc 0x00000004 = (true, 1) ∧ prioEnc 0x00000008 = (true, 1) ∧ prioEnc 0x0C000C00 = (true, 5) ∧
    prioEnc 0x0C000000 = (true, 13) ∧ prioEnc 0x40000000 = (true, 15) ∧ prioEnc 0x80000000 = (true, 15) ∧
    prioEnc 0xAAAAAAA8 = (true, 1) ∧ trailingZeros (prioWord 0xAAAAAAA8) = 2 := by decide

theorem test_masks :
    pmask 0 = 0x00000003 ∧ pmask 2 = 0x00000030 ∧ pmask 5 = 0x00000C00 ∧ pmask 13 = 0x0C000000 ∧
    pmask 15 = 0xC0000000 := by decide

theorem test_lookup :
    (lookup Config.vectors 13).map ChanRecord.buffer = some 0x100002A0 ∧
    (lookup Config.vectors 15).map ChanRecord.buffer = some 0x100002E0 ∧ lookup Config.vectors 16 = none := by decide

/-- V5: an enable pair 0b01 against a status pair 0b11. -/
theorem test_irq_cpu :
    irqCpu { s0 with d2cStat := 0x00000C00, d2cEn := 0 } = false ∧
    irqCpu { s0 with d2cStat := 0x00000C00, d2cEn := 0x00000400 } = true := by decide

/-- D2, R10: the words of M. -/
theorem test_words_of_M : wordOf msgM 0 = 0x04030201 ∧ wordOf msgM 7 = 0x201F1E1D := by decide

/-! ## The register file: V5 -/

theorem test_c2dSetW :
    (next? (exec (.c2dSetW .peer 0x00000C00) { s0 with c2dStat := 0x00000003 })).map State.c2dStat =
      some 0x00000C03 := by decide

theorem test_c2dClrW_takes :
    (next? (exec (.c2dClrW .peer 0x00000003)
      { s0 with c2dStat := 0x00000C03, draws := { noDraws with clrTakes := true } })).map State.c2dStat =
      some 0x00000C00 := by decide

theorem test_c2dClrW_does_not_take :
    (next? (exec (.c2dClrW .peer 0x00000003) { s0 with c2dStat := 0x00000C03 })).map State.c2dStat =
      some 0x00000C03 := by decide

/-- V5: the third write of a run takes without a draw. -/
theorem test_d2cClrW_run :
    (next? (runSteps [.d2cClrW .peer 0x00000C00, .d2cClrW .peer 0x00000C00, .d2cClrW .peer 0x00000C00]
      { s0 with d2cStat := 0x0C000C00 })).map State.d2cStat = some 0x0C000000 := by decide

/-- R131: a register access between two writes of a run breaks it. -/
theorem test_d2cClrW_broken_run :
    (next? (runSteps [.d2cClrW .peer 0x00000C00, .d2cClrW .peer 0x00000C00, .c2dEnR .peer, .d2cClrW .peer 0x00000C00]
      { s0 with d2cStat := 0x0C000C00 })).map State.d2cStat = some 0x0C000C00 := by decide

theorem test_read_of_set_register :
    recs (exec (.c2dSetR .peer) { s0 with c2dStat := 0x00000C00 }) =
      some [.mmio .peer .read 0x10000004 0x00000000] := by decide

theorem test_read_of_status_register :
    recs (exec (.c2dStatR .peer) { s0 with c2dStat := 0x00000C00 }) =
      some [.mmio .peer .read 0x1000000c 0x00000C00] := by decide

theorem test_write_of_status_register :
    (next? (exec (.c2dStatW .peer 0xFFFFFFFF) { s0 with c2dStat := 0x00000C00 })).map State.c2dStat =
      some 0x00000C00 := by decide

theorem test_d2cEnW : (next? (exec (.d2cEnW .peer 0xFFFFFFFF) State.reset)).map State.d2cEn = some 0xFFFFFFFF := by decide

theorem test_d2cEnR :
    recs (exec (.d2cEnR .peer) { s0 with d2cEn := 0x000000F0 }) = some [.mmio .peer .read 0x1000001c 0x000000F0] := by
  decide

theorem test_rsvd :
    recs (exec (.rsvdR .peer) s0) = some [.mmio .peer .read 0x10000010 0] ∧
    (next? (exec (.rsvdW .peer 0x12345678) s0)).map (fun t => { t with history := [] }) = some s0 := by decide

/-! ## The buffers -/

/-- R64: the least significant byte at the lowest address. -/
theorem test_bufW_little_endian :
    (next? (exec (.bufW .peer 13 7 0x201F1E1D) s0)).map State.mem =
      some [(0x100002BC, 0x1D), (0x100002BD, 0x1E), (0x100002BE, 0x1F), (0x100002BF, 0x20)] := by decide

theorem test_bufR_after_bufW :
    recs (runSteps [.bufW .peer 5 0 0x04030201, .bufR .peer 5 0] s0) =
      some [.mmio .peer .write 0x100001A0 0x04030201, .mmio .peer .read 0x100001A0 0x04030201] := by decide

/-! ## Commands: V6 -/

theorem test_illegal : recs (exec (.illegal 0 7 none) s0) = some [.cmd 0 7 none, .resp 0 9 none] := by decide
theorem test_send_on_rx_channel :
    recs (exec (.send 0 13 msgM) s0) = some [.cmd 0 0xD2 (some msgM), .resp 0 1 none] := by decide
theorem test_send_unbound : recs (exec (.send 0 2 msgM) s0) = some [.cmd 0 0x22 (some msgM), .resp 0 2 none] := by decide
theorem test_send_busy :
    recs (exec (.send 0 5 msgM) (txS .waitAck 2 0 0)) = some [.cmd 0 0x52 (some msgM), .resp 0 3 none] := by decide
theorem test_send_accepted :
    (next? (exec (.send 0 5 msgM) s0)).map (fun t => (t.ports[0]?, t.tx[5].state, t.tx[5].payload)) =
      some (some { state := .sendPending 5, elapsed := 0 }, .sending, msgM) := by decide
theorem test_receiveNb_on_tx_channel :
    recs (exec (.receiveNb 0 5) s0) = some [.cmd 0 0x53 none, .resp 0 1 none] := by decide
theorem test_receiveNb_empty : recs (exec (.receiveNb 0 13) s0) = some [.cmd 0 0xD3 none, .resp 0 6 none] := by decide
theorem test_receiveNb_copy_fault :
    (next? (exec (.receiveNb 0 13) (withXferErr (rxS true true)))).map (fun t => (t.history, t.rx[5].ready)) =
      some ([.cmd 0 0xD3 none, .resp 0 5 none], true) := by decide
/-- V11. -/
theorem test_receiveNb_consumes :
    (next? (exec (.receiveNb 0 13) (rxS true true))).map (fun t => (t.history, t.rx[5].ready, t.rx[5].readySync)) =
      some ([.cmd 0 0xD3 none, .resp 0 0 (some msgM)], false, false) := by decide
theorem test_receiveB_waits :
    (next? (exec (.receiveB 0 13 100) s0)).map (fun t => (t.history, t.ports[0]?)) =
      some ([.cmd 0 0x006410D3 none], some { state := .waiting 5 100, elapsed := 0 }) := by decide
theorem test_bind_out_of_range : recs (exec (.bind 0 16) s0) = some [.cmd 0 0x101 none, .resp 0 1 none] := by decide
theorem test_bind_ok :
    (next? (exec (.bind 0 2) s0)).map (fun t => (t.history, t.bound[2], t.bound[3])) =
      some ([.cmd 0 0x21 none, .resp 0 0 none], true, false) := by decide
theorem test_registerListener :
    (next? (exec (.registerListener 2 13) (rxS true true))).map (fun t => t.rx[5].listeners) =
      some [false, true, true, true] := by decide
theorem test_cancel :
    (next? (exec (.cancel 0 13) (waitS 0 7 false))).map (fun t => (t.history, t.ports[1]?)) =
      some ([.cmd 0 0xD6 none, .resp 1 8 none, .resp 0 0 none], some Port.atReset) := by decide
theorem test_pollReady_lag :
    recs (exec (.pollReady 0 13) (rxS true true)) = some [.cmd 0 0xD4 none, .resp 0 0x10 none] ∧
    recs (exec (.pollReady 0 13) (rxS true false)) = some [.cmd 0 0xD4 none, .resp 0 0 none] := by decide
theorem test_pollReady_out_of_range :
    recs (exec (.pollReady 0 200) s0) = some [.cmd 0 0xC84 none, .resp 0 0 none] := by decide
/-- R97: no command before INIT. -/
theorem test_no_command_before_init : exec (.bind 0 2) State.reset = .fault .cannotIssue := rfl

/-! ## The demultiplexer: V8 -/

theorem test_dmxStart :
    (next? (exec .dmxStart { s0 with d2cStat := 0x0C000C00 })).map
        (fun t => (t.dmxState, t.dmxValid, t.dmxIdx, t.dmxMask, t.history)) =
      some (.clearing 0, true, 5, 0x00000C00, [.mmio .demux .read 0x10000020 0x0C000C00]) := by decide
theorem test_dmxStart_spurious :
    (next? (exec .dmxStart { s0 with draws := { noDraws with spuriousTrigger := true } })).map
        (fun t => (t.dmxState, t.dmxValid, t.dmxIdx, t.dmxMask)) = some (.clearing 0, false, 0, 0) := by decide
theorem test_dmxClear :
    (next? (exec .dmxClear (dmxS (.clearing 2) 5))).map (fun t => (t.dmxState, t.history)) =
      some (.dispatch, [.mmio .demux .write 0x10000018 0x00000C00]) := by decide
theorem test_dmxSpurious :
    (next? (exec .dmxSpurious { s0 with dmxState := .dispatch })).map (fun t => (t.dmxState, t.history)) =
      some (.idle, [.report .spuriousInterrupt 0]) := by decide
theorem test_dmxTxack :
    (next? (exec .dmxTxack { dmxS .dispatch 13 with tx := (txS .waitAck 2 0 1).tx })).map
        (fun t => (t.dmxState, t.history, t.tx[5].state)) = some (.idle, [.resp 2 0 none], .idle) := by decide
theorem test_dmxTxack_stale :
    (next? (exec .dmxTxack { dmxS .dispatch 13 with tx := (txS .sending 2 0 0).tx })).map
        (fun t => (t.history, t.tx[5].state)) = some ([.report .staleAck 5], .sending) := by decide
theorem test_dmxTxackUnbound :
    recs (exec .dmxTxackUnbound (dmxS .dispatch 8)) = some [.report .illegalTxChannel 0] := by decide
theorem test_dmxRxDispatch :
    (next? (exec .dmxRxDispatch (dmxS .dispatch 5))).map State.dmxState = some (.rxCopy 0) := by decide
theorem test_dmxRxRead :
    (next? (exec .dmxRxRead { dmxS (.rxCopy 7) 5 with
        mem := [(0x100002BC, 0x1D), (0x100002BD, 0x1E), (0x100002BE, 0x1F), (0x100002BF, 0x20)] })).map
      (fun t => (t.dmxState, t.dmxWords[7], t.history)) =
      some (.rxCommit, 0x201F1E1D, [.mmio .demux .read 0x100002BC 0x201F1E1D]) := by decide
theorem test_dmxRxCommit :
    (next? (exec .dmxRxCommit { dmxS .rxCommit 5 with dmxWords := Vector.ofFn (wordOf msgM) })).map
      (fun t => (t.dmxState, t.rx[5].buf, t.rx[5].ready, t.rx[5].readySync, t.rx[4].ready)) =
      some (.rearm, msgM, true, false, false) := by decide
theorem test_dmxRearm :
    (next? (exec .dmxRearm (dmxS .rearm 5))).map (fun t => (t.dmxState, t.c2dStat, t.history)) =
      some (.idle, 0x0C000000, [.mmio .demux .write 0x10000004 0x0C000000]) := by decide
theorem test_dmxRxUnbound :
    recs (exec .dmxRxUnbound (dmxS .dispatch 2)) = some [.report .illegalRxChannel 10] := by decide

/-! ## The send side and the waits: V7, V9, V10, V12 -/

theorem test_txGrant :
    (next? (exec (.txGrant 5) (txS .sending 0 0 0))).map (fun t => (t.txGrant, t.history)) = some (some 5, []) := by decide
theorem test_txWrite :
    (next? (exec .txWrite (grantS 7))).map (fun t => (t.tx[5].word, t.history)) =
      some (8, [.mmio .txeng .write 0x100001BC 0x201F1E1D]) := by decide
theorem test_txSet :
    (next? (exec .txSet (grantS 8))).map (fun t => (t.tx[5].state, t.txGrant, t.c2dStat, t.history)) =
      some (.waitAck, none, 0x00000C00, [.mmio .txeng .write 0x10000004 0x00000C00]) := by decide
theorem test_txTimeout :
    (next? (exec (.txTimeout 5) (txS .waitAck 0 0 3))).map (fun t => (t.tx[5].state, t.history)) =
      some (.idle, [.resp 0 4 none]) := by decide
theorem test_txTimeout_not_earlier : exec (.txTimeout 5) (txS .waitAck 0 0 2) = .fault .notEnabled := rfl
theorem test_waitConsume :
    (next? (exec (.waitConsume 1) (waitS 0 9 true))).map (fun t => (t.history, t.rx[5].ready, t.ports[1]?)) =
      some ([.resp 1 0 (some msgM)], false, some Port.atReset) := by decide
theorem test_waitTimeout :
    recs (exec (.waitTimeout 1) (waitS 2 2 false)) = some [.resp 1 7 none] := by decide
theorem test_waitTimeout_never_unbounded : exec (.waitTimeout 1) (waitS 0 65535 false) = .fault .notEnabled := rfl
theorem test_sync :
    (next? (exec (.sync 5) (rxS true false))).map (fun t => (t.rx[5].readySync, t.history)) =
      some (true, [.notify 1 13, .notify 3 13]) := by decide
theorem test_sync_not_enabled : exec (.sync 5) (rxS true true) = .fault .notEnabled := rfl
theorem test_tick_counts :
    (next? (exec .tick { waitS 2 1 false with tx := (txS .waitAck 0 0 2).tx })).map
      (fun t => (t.tx[5].elapsed, (t.ports[1]?).map Port.elapsed)) = some (3, some 2) := by decide
theorem test_tick_saturates :
    (next? (exec .tick { waitS 0 65535 false with tx := (txS .waitAck 0 0 3).tx })).map
      (fun t => (t.tx[5].elapsed, (t.ports[1]?).map Port.elapsed)) = some (3, some 65535) := by decide
theorem test_init :
    (next? (exec .init State.reset)).map (fun t => (t.d2cEn, t.initDone, t.history)) =
      some (0xFFFFFFFF, true, [.mmio .init .write 0x1000001c 0xFFFFFFFF]) := by decide
theorem test_reset :
    (next? (exec .reset { grantS 8 with d2cStat := 3, history := [.notify 0 8] })).map
      (fun t => (t.d2cStat, t.d2cEn, t.txGrant, t.initDone, t.history)) = some (0, 0, none, false, []) := by decide
theorem test_reset_channels :
    (next? (exec .reset (grantS 8))).map (fun t => (t.bound[5], t.tx[5].state, t.tx[5].word)) =
      some (false, .idle, 0) := by decide

/-! ## One step -/

theorem test_step_runs_a_command :
    recs (step (slotS (.command 0 0x00000021 Msg.zero) s0)) = some [.cmd 0 0x21 none, .resp 0 0 none] := by decide
theorem test_step_passes_over_a_disabled_event :
    (next? (step (slotS (.event .dmxClear) s0))).map (fun t => (t.history, t.stepCount)) = some ([], 1) := by decide
theorem test_step_stalls_the_peer :
    (next? (step (slotS (.access .peer .read 32 0x10000002 0) s0))).map State.peerStuck = some true := by decide
theorem test_step_refuses_a_bad_configuration :
    step { s0 with cfg := { Config.vectors with bufBase := 0x10000020 } } = .refused .badConfiguration := rfl
theorem test_withFetchWord :
    recs (step (State.reset.withFetchWord 32 0x00000051)) = some [.cmd 0 0x51 none, .resp 0 0 none] ∧
    decodeTableWord 32 0x00000051 = some (.bind 0 5) := by decide

/-! ## Witnesses: for each obligation with hypotheses, a state and operands that meet them, clause by clause

Where an obligation has clauses over a range, the witness takes the range's ends. -/

theorem witness_DecodeOfEncodeIsTheInstruction :
    configLegal Config.vectors = true ∧ (Instr.bind 0 0).wf = true ∧ (Instr.receiveB 3 255 65535).wf = true ∧
    (Instr.illegal 0 0x00001052 (some msgM)).wf = true ∧ (Instr.bufW .peer 15 7 1).wf = true := by decide

/-- Each clause at both ends of its channel field, and an illegal word. -/
theorem witness_CommandWordsDecodeByTheirFields :
    ([1, 2, 3, 4, 5, 6].all fun op => [0, 255].all fun ch =>
      ((BitVec.ofNat 32 (16 * ch + op)).extractLsb' 0 4 == BitVec.ofNat 4 op) &&
        ((BitVec.ofNat 32 (16 * ch + op)).extractLsb' 12 20 == 0)) = true ∧
    ((0xFFFF1FF3 : Word).extractLsb' 0 4 = 3 ∧ (0xFFFF1FF3 : Word).extractLsb' 12 4 = 1) ∧
    ((0x00001003 : Word).extractLsb' 0 4 = 3 ∧ (0x00001003 : Word).extractLsb' 12 4 = 1) ∧
    legalWord 0x00000FF1 = true ∧ legalWord 0x00001FF1 = false := by decide

theorem witness_CommandBytesDecodeToTheCommand :
    isCommandOf 3 (.send 3 255 msgM) ∧ (Instr.send 3 255 msgM).wf = true := ⟨⟨rfl, rfl⟩, by decide⟩

/-- The ends of both windows on either side, and the two other grounds. -/
theorem witness_MalformedAccessesHaveNoStep :
    configLegal Config.vectors = true ∧ dec (.access .peer .read 32 0x10000020 0) ≠ none ∧
    dec (.access .peer .read 32 0x10000024 0) = none ∧ dec (.access .peer .read 32 0x0FFFFFFC 0) = none ∧
    dec (.access .peer .read 32 0x100002FC 0) ≠ none ∧ dec (.access .peer .read 32 0x10000300 0) = none ∧
    dec (.access .peer .read 8 0x10000020 0) = none ∧ dec (.access .peer .read 32 0x10000021 0) = none := by decide

theorem witness_PeerWithoutAStepIsStuck :
    configLegal s0.cfg = true ∧
    (nextSlot (slotS (.access .peer .read 32 0x10000002 0) s0)).proposal = .access .peer .read 32 0x10000002 0 ∧
    decodeAccess s0.cfg .peer .read 32 0x10000002 0 = .error .misaligned ∧
    agentOf (.bufR .peer 0 0) = .peer ∧ ({ s0 with peerStuck := true } : State).peerStuck = true :=
  ⟨by decide, rfl, rfl, rfl, rfl⟩

/-- Both sides of each bound of the channel table. -/
theorem witness_ChannelTableRecords :
    lookup Config.vectors 16 = none ∧ (lookup Config.vectors 15).map ChanRecord.dir = some .rx ∧
    (lookup Config.vectors 8).map ChanRecord.dir = some .rx ∧ (lookup Config.vectors 7).map ChanRecord.dir = some .tx ∧
    (lookup Config.vectors 0).map ChanRecord.dir = some .tx := by decide

theorem witness_BuffersAreDisjoint :
    configLegal Config.vectors = true ∧ ∃ e f, lookup Config.vectors 0 = some e ∧ lookup Config.vectors 1 = some f ∧
      e.buffer ≤ 0x1000011F ∧ 0x1000011F < e.buffer + 32 := ⟨by decide, _, _, rfl, rfl, by decide, by decide⟩

theorem witness_PriorityEncoderReturnsLowestFiredPair :
    (prioEnc 0).1 = false ∧ (prioEnc 0x80000000).1 = true ∧ (prioEnc 0xFFFFFFFF).1 = true := by decide

theorem witness_mayAccess : mayAccess .peer s0 ∧ mayAccess .demux { s0 with peerStuck := true } :=
  ⟨fun _ => rfl, fun h => by cases h⟩

theorem witness_RegisterReadsReturnTheirValue : mayAccess .peer s0 := witness_mayAccess.1
theorem witness_EnableStatusAndReservedWrites : mayAccess .peer s0 := witness_mayAccess.1
theorem witness_SetWritesOrIntoStatus : mayAccess .peer s0 := witness_mayAccess.1

/-- Three writes with differing draws, and the longest and the shortest incomplete run. -/
theorem witness_CompleteClearRunDeassertsTheLatch :
    mayAccess .peer s0 ∧ ([noDraws] : List Draws).length < 2 ∧ ([] : List Draws).length < 2 ∧
    (next? (runWith [(.d2cClrW .peer 3, noDraws), (.d2cClrW .peer 3, { noDraws with clrTakes := true }),
      (.d2cClrW .peer 3, noDraws)] { s0 with d2cStat := 0x0000000F })).map State.d2cStat = some 0x0000000C :=
  ⟨witness_mayAccess.1, by decide, by decide, by decide⟩

theorem witness_BufferReadReturnsTheWord : mayAccess .peer s0 := witness_mayAccess.1
theorem witness_BufferWriteStoresFourBytes : mayAccess .peer s0 := witness_mayAccess.1

/-- A draw that takes, a run that takes without one, and a write one short of a run. -/
theorem witness_ClearWritesFollowTheDrawAndTheRun :
    mayAccess .peer s0 ∧ takesByLaw .peer 0x08 3 { s0 with draws := { noDraws with clrTakes := true } } ∧
    takesByLaw .peer 0x18 3 { s0 with history := List.replicate 2 (.mmio .peer .write 0x10000018 3) } ∧
    ¬ takesByLaw .peer 0x08 3 { s0 with history := List.replicate 1 (.mmio .peer .write 0x10000008 3) } ∧
    ¬ takesByLaw .peer 0x18 3 { s0 with history := List.replicate 2 (.mmio .demux .write 0x10000018 3) } := by
  refine ⟨witness_mayAccess.1, .inl rfl, .inr (by decide), ?_, ?_⟩ <;> unfold takesByLaw <;> decide

/-- The lowest and the highest port. -/
theorem witness_mayIssue : mayIssue 0 s0 ∧ mayIssue 3 s0 := ⟨⟨rfl, _, rfl, rfl⟩, ⟨rfl, _, rfl, rfl⟩⟩

/-- A free channel at each end, and a bound one. -/
theorem witness_BindOutcomes : mayIssue 0 s0 ∧ s0.bound[0] = false ∧ s0.bound[15] = false ∧ s0.bound[13] = true :=
  ⟨witness_mayIssue.1, by decide, by decide, by decide⟩

/-- Unbound at both ends of the TX channels; busy, failing and accepted on channel 5. -/
theorem witness_SendOutcomes :
    mayIssue 0 s0 ∧ s0.bound[0] = false ∧ s0.bound[7] = false ∧
    (mayIssue 0 (txS .waitAck 2 0 0) ∧ (txS .waitAck 2 0 0).bound[5] = true ∧ (txS .waitAck 2 0 0).tx[5].state ≠ .idle) ∧
    (mayIssue 0 (withXferErr s0) ∧ (withXferErr s0).tx[5].state = .idle ∧ (withXferErr s0).draws.xferErr = true) ∧
    (s0.bound[5] = true ∧ s0.tx[5].state = .idle ∧ s0.draws.xferErr = false) :=
  ⟨witness_mayIssue.1, by decide, by decide, ⟨⟨rfl, _, rfl, rfl⟩, by decide, by decide⟩,
    ⟨⟨rfl, _, rfl, rfl⟩, by decide, by decide⟩, by decide⟩

/-- Unbound at both ends of the RX channels; empty, failing and with a message on channel 13. -/
theorem witness_ReceiveNbOutcomes :
    mayIssue 0 s0 ∧ s0.bound[8] = false ∧ s0.bound[15] = false ∧
    (s0.bound[13] = true ∧ s0.rx[5].ready = false) ∧
    (mayIssue 0 (withXferErr (rxS true true)) ∧ (withXferErr (rxS true true)).bound[13] = true ∧
      (withXferErr (rxS true true)).rx[5].ready = true ∧ (withXferErr (rxS true true)).draws.xferErr = true) ∧
    (mayIssue 0 (rxS true true) ∧ (rxS true true).bound[13] = true ∧ (rxS true true).rx[5].ready = true ∧
      (rxS true true).draws.xferErr = false) :=
  ⟨witness_mayIssue.1, by decide, by decide, by decide, ⟨⟨rfl, _, rfl, rfl⟩, by decide, by decide, by decide⟩,
    ⟨⟨rfl, _, rfl, rfl⟩, by decide, by decide, by decide⟩⟩

theorem witness_ReceiveBOutcomes :
    mayIssue 0 s0 ∧ s0.bound[8] = false ∧ s0.bound[15] = false ∧
    (s0.bound[13] = true ∧ s0.rx[5].ready = false) ∧
    (mayIssue 0 (withXferErr (rxS true true)) ∧ (withXferErr (rxS true true)).rx[5].ready = true ∧
      (withXferErr (rxS true true)).draws.xferErr = true) ∧
    (mayIssue 0 (rxS true true) ∧ (rxS true true).rx[5].ready = true ∧ (rxS true true).draws.xferErr = false) :=
  ⟨witness_mayIssue.1, by decide, by decide, by decide, ⟨⟨rfl, _, rfl, rfl⟩, by decide, by decide⟩,
    ⟨⟨rfl, _, rfl, rfl⟩, by decide, by decide⟩⟩

theorem witness_CancelOutcomes :
    mayIssue 0 (waitS 0 7 false) ∧ (waitS 0 7 false).ports.length = (waitS 0 7 false).cfg.numPorts :=
  ⟨⟨rfl, _, rfl, rfl⟩, by decide⟩

theorem witness_RegisterListenerOutcomes : mayIssue 0 (rxS true true) ∧ InvShape (rxS true true) :=
  ⟨⟨rfl, _, rfl, rfl⟩, by unfold InvShape; decide⟩

theorem witness_PollReadyAnswersTheSynchronizedFlag : mayIssue 3 s0 := witness_mayIssue.2
theorem witness_IllegalWordsAreAnswered : mayIssue 3 s0 := witness_mayIssue.2

/-- Before INIT, on a port that pends a send, and on a port that does not exist. -/
theorem witness_CommandsNeedAFreePort :
    isCommandOf 0 (.bind 0 5) ∧ ¬ mayIssue 0 State.reset ∧ ¬ mayIssue 4 s0 ∧
    ¬ mayIssue 1 (s0.setPort 1 { state := .sendPending 5, elapsed := 0 }) ∧ configLegal s0.cfg = true ∧
    (nextSlot (slotS (.command 4 0x51 Msg.zero) s0)).proposal = .command 4 0x51 Msg.zero := by
  refine ⟨⟨rfl, rfl⟩, ?_, ?_, ?_, by decide, rfl⟩
  · rintro ⟨h, -⟩; cases h
  · rintro ⟨-, x, h, -⟩; cases h
  · rintro ⟨-, x, h, hf⟩; cases h; cases hf

/-- By the line and by the draw. -/
theorem witness_DmxStartSavesTheDecodedPosition :
    s0.initDone = true ∧ s0.dmxState = .idle ∧ irqCpu { s0 with d2cStat := 0x80000000 } = true ∧
    ({ s0 with draws := { noDraws with spuriousTrigger := true } } : State).draws.spuriousTrigger = true := by decide

/-- The first, second and third clear write. -/
theorem witness_DmxClearWritesTheMask :
    (dmxS (.clearing 0) 5).dmxState = .clearing 0 ∧ (dmxS (.clearing 1) 5).dmxState = .clearing 1 ∧
    (dmxS (.clearing 2) 5).dmxState = .clearing 2 ∧
    takesByLaw .demux 0x18 0x00000C00 { dmxS (.clearing 0) 5 with draws := { noDraws with clrTakes := true } } ∧
    ¬ takesByLaw .demux 0x18 0x00000C00 (dmxS (.clearing 0) 5) := by
  refine ⟨rfl, rfl, rfl, .inl rfl, ?_⟩
  unfold takesByLaw; decide

theorem witness_ThirdClearWriteAlwaysTakes :
    ∃ s : State, InvClearRun s ∧ s.dmxState = .clearing 2 := by
  refine ⟨{ dmxS (.clearing 2) 5 with history := List.replicate 2 (.mmio .demux .write 0x10000018 0x00000C00) }, ?_, rfl⟩
  intro n hn
  cases hn
  decide

theorem witness_SpuriousInvocationIsReported :
    ({ s0 with dmxState := .dispatch } : State).dmxState = .dispatch ∧
    ({ s0 with dmxState := .dispatch } : State).dmxValid = false := ⟨rfl, rfl⟩

/-- An ack for the awaited send, and a stale one. -/
theorem witness_TxAckEndsTheWaitingSend :
    (dmxS .dispatch 13).dmxState = .dispatch ∧ (dmxS .dispatch 13).dmxValid = true ∧
    (dmxS .dispatch 13).dmxIdx.val = (5 : TxCh).val + 8 ∧ (dmxS .dispatch 13).bound[5] = true ∧
    ({ dmxS .dispatch 13 with tx := (txS .waitAck 2 0 1).tx } : State).tx[5].state = .waitAck ∧
    (dmxS .dispatch 13).tx[5].state ≠ .waitAck := by decide

/-- Both ends of both ranges of positions: TX 0 and 7, RX 8 and 15. -/
theorem witness_UnboundEventsAreReportedAndDropped :
    ((dmxS .dispatch 8).dmxIdx.val = (0 : TxCh).val + 8 ∧ (dmxS .dispatch 8).bound[0] = false) ∧
    ((dmxS .dispatch 15).dmxIdx.val = (7 : TxCh).val + 8 ∧ (dmxS .dispatch 15).bound[7] = false) ∧
    ((dmxS .dispatch 0).dmxIdx.val = (0 : RxCh).val ∧ (dmxS .dispatch 0).bound[8] = false) ∧
    ((dmxS .dispatch 7).dmxIdx.val = (7 : RxCh).val ∧ (dmxS .dispatch 7).bound[15] = false) ∧
    (dmxS .dispatch 7).dmxState = .dispatch ∧ (dmxS .dispatch 7).dmxValid = true := by decide

theorem witness_ArrivalOnABoundChannelIsAccepted :
    (dmxS .dispatch 5).dmxState = .dispatch ∧ (dmxS .dispatch 5).dmxValid = true ∧
    (dmxS .dispatch 5).dmxIdx.val = (5 : RxCh).val ∧ (dmxS .dispatch 5).bound[13] = true := by decide

/-- The first, the last but one and the last word. -/
theorem witness_RxReadStagesTheNextWord :
    (dmxS (.rxCopy 0) 0).dmxState = .rxCopy 0 ∧ (dmxS (.rxCopy 6) 7).dmxState = .rxCopy 6 ∧
    (dmxS (.rxCopy 7) 7).dmxState = .rxCopy 7 ∧ (dmxS (.rxCopy 0) 0).dmxIdx.val = (0 : RxCh).val ∧
    (dmxS (.rxCopy 7) 7).dmxIdx.val = (7 : RxCh).val := by decide

theorem witness_RxCommitWritesMessageAndFlag :
    (dmxS .rxCommit 7).dmxState = .rxCommit ∧ (dmxS .rxCommit 7).dmxIdx.val = (7 : RxCh).val := by decide

theorem witness_RearmSetsTheMirroredPosition :
    (dmxS .rearm 7).dmxState = .rearm ∧ (dmxS .rearm 7).dmxIdx.val = (7 : RxCh).val := by decide

/-- Idle, and busy in a copy, both with the invariant; and a step of another agent inside the copy. -/
theorem witness_InvocationsAreBoundedAndDoNotNest :
    InvDemux (dmxS (.rxCopy 3) 5) ∧ (dmxS (.rxCopy 3) 5).dmxState ≠ .idle ∧ InvDemux s0 ∧
    (∃ t, exec .dmxStart { s0 with d2cStat := 3 } = .next t) ∧
    (∃ t, exec .tick (dmxS (.rxCopy 3) 5) = .next t) ∧ .tick ∉ demuxSteps :=
  ⟨⟨fun _ => rfl, fun _ => ⟨rfl, 5, rfl, by decide⟩⟩, by decide,
    ⟨fun h => absurd rfl h, by rintro (⟨k, h⟩ | h | h) <;> cases h⟩, ⟨_, rfl⟩, ⟨_, rfl⟩, by decide⟩

/-- Channel 13, with a TX-ack latched above it (the last row of V8). -/
theorem witness_ArrivalInvocationDeliversTheBuffer :
    ({ s0 with d2cStat := 0x0C000C00 } : State).initDone = true ∧
    ({ s0 with d2cStat := 0x0C000C00 } : State).dmxState = .idle ∧ irqCpu { s0 with d2cStat := 0x0C000C00 } = true ∧
    ((0x0C000C00 : Word) >>> (2 * (5 : RxCh).val)) &&& 0x3 ≠ 0 ∧
    (∀ j : Fin 5, ((0x0C000C00 : Word) >>> (2 * j.val)) &&& 0x3 = 0) ∧ s0.bound[13] = true := by decide

theorem witness_GrantGoesToOneSendingChannel :
    ((txS .sending 0 0 0).txGrant = none ∧ (txS .sending 0 0 0).tx[5].state = .sending ∧
      (txS .sending 0 0 0).tx[5].word = 0) ∧
    (grantS 3).txGrant ≠ none ∧ s0.tx[5].state ≠ .sending := by decide

theorem witness_TxWriteStoresTheNextPayloadWord :
    (grantS 0).txGrant = some 5 ∧ (grantS 0).tx[5].word = (0 : Fin 8).val ∧ (grantS 7).tx[5].word = (7 : Fin 8).val := by
  decide

theorem witness_TxSetNotifiesAfterTheWholePayload :
    (grantS 8).txGrant = some 5 ∧ (grantS 8).tx[5].word = 8 ∧ (grantS 7).tx[5].word ≠ 8 := by decide

/-- Exactly at the bound, one tick before it, and not waiting. -/
theorem witness_SendTimeoutAfterTheBoundAndNotEarlier :
    ((txS .waitAck 0 0 3).tx[5].state = .waitAck ∧ (txS .waitAck 0 0 3).cfg.tSendTimeout ≤ (txS .waitAck 0 0 3).tx[5].elapsed) ∧
    (txS .waitAck 0 0 2).tx[5].elapsed < (txS .waitAck 0 0 2).cfg.tSendTimeout ∧ s0.tx[5].state ≠ .waitAck := by decide

theorem witness_SendSequenceFillsTheBufferThenNotifies :
    (txS .sending 0 0 0).txGrant = none ∧ (txS .sending 0 0 0).tx[5].state = .sending ∧
    (txS .sending 0 0 0).tx[5].word = 0 := by decide

/-- With and without a failing transfer, and before the synchronizer has shown a message. -/
theorem witness_WaitConsumeTakesTheMessage :
    (waitS 0 9 true).ports[1]? = some { state := .waiting 5 0, elapsed := 9 } ∧ (waitS 0 9 true).rx[5].readySync = true ∧
    (waitS 0 9 true).draws.xferErr = false ∧ (withXferErr (waitS 0 9 true)).draws.xferErr = true ∧
    (waitS 0 9 false).ports[1]? = some { state := .waiting 5 0, elapsed := 9 } ∧
    (waitS 0 9 false).rx[5].readySync = false := by decide

/-- Exactly at the bound, one tick before it, and without a bound. -/
theorem witness_BoundedWaitRunsOut :
    (waitS 2 2 false).ports[1]? = some { state := .waiting 5 2, elapsed := 2 } ∧
    (waitS 2 1 false).ports[1]? = some { state := .waiting 5 2, elapsed := 1 } ∧
    (waitS 0 65535 false).ports[1]? = some { state := .waiting 5 0, elapsed := 65535 } := by decide

theorem witness_SyncRaisesTheCopyAndNotifies : (rxS true false).rx[5].readySync ≠ (rxS true false).rx[5].ready := by decide

/-- A channel that waits and one that does not; a port that waits and one that does not. -/
theorem witness_TickAdvancesTheRunningCounters :
    (txS .waitAck 0 0 3).tx[5].state = .waitAck ∧ (txS .waitAck 0 0 3).tx[4].state ≠ .waitAck ∧
    (waitS 0 65535 false).ports[1]? = some { state := .waiting 5 0, elapsed := 65535 } ∧
    (waitS 0 65535 false).ports[0]? = some Port.atReset := by decide

theorem witness_InitEnablesEveryPosition : State.reset.initDone = false ∧ s0.initDone = true := by decide

theorem witness_ResetHasTheInvariants : configLegal Config.vectors = true := by decide

theorem witness_StepsExistExactlyWhenEnabled : InvDemux s0 :=
  ⟨fun h => absurd rfl h, by rintro (⟨k, h⟩ | h | h) <;> cases h⟩

/-- The commit sets a ready flag and writes a message, SYNC raises a copy, a receive and a wait clear them. -/
theorem witness_ReadyFlagsHaveTheirOnlyWriters :
    (∃ t, exec .dmxRxCommit (dmxS .rxCommit 5) = .next t ∧ t.rx[5].ready = true) ∧
    (∃ t, exec (.sync 5) (rxS true false) = .next t ∧ t.rx[5].readySync = true) ∧
    (∃ t, exec (.receiveNb 0 13) (rxS true true) = .next t ∧ t.rx[5].ready = false) ∧
    (∃ t, exec (.waitConsume 1) (waitS 0 9 true) = .next t ∧ t.rx[5].readySync = false) :=
  ⟨⟨_, rfl, by decide⟩, ⟨_, rfl, by decide⟩, ⟨_, rfl, by decide⟩, ⟨_, rfl, by decide⟩⟩

/-- Each writer writes. -/
theorem witness_ControlBitsHaveTheirOnlyWriters :
    (∃ t, exec (.c2dEnW .peer 1) s0 = .next t ∧ t.c2dEn ≠ s0.c2dEn) ∧
    (∃ t, exec (.d2cEnW .peer 1) s0 = .next t ∧ t.d2cEn ≠ s0.d2cEn) ∧
    (∃ t, exec (.bind 0 2) s0 = .next t ∧ t.bound[2] ≠ s0.bound[2]) ∧
    (∃ t, exec (.registerListener 0 13) s0 = .next t ∧ t.rx[5].listeners ≠ s0.rx[5].listeners) ∧
    (∃ t, exec .init State.reset = .next t ∧ t.initDone ≠ State.reset.initDone) :=
  ⟨⟨_, rfl, by decide⟩, ⟨_, rfl, by decide⟩, ⟨_, rfl, by decide⟩, ⟨_, rfl, by decide⟩, ⟨_, rfl, by decide⟩⟩

/-- Bit 31 set and cleared in each status register. -/
theorem witness_StatusBitsHaveTheirOnlyWriters :
    (∃ t, exec (.d2cSetW .peer 0x80000000) s0 = .next t ∧ s0.d2cStat.getLsbD 31 = false ∧ t.d2cStat.getLsbD 31 = true) ∧
    (∃ t, exec .txSet (grantS 8) = .next t ∧ (grantS 8).c2dStat.getLsbD 11 = false ∧ t.c2dStat.getLsbD 11 = true) ∧
    (∃ t, exec .reset { s0 with d2cStat := 0x80000000 } = .next t ∧ t.d2cStat.getLsbD 31 = false) ∧
    (∃ t, exec .reset { s0 with c2dStat := 0x80000000 } = .next t ∧ t.c2dStat.getLsbD 31 = false) :=
  ⟨⟨_, rfl, by decide⟩, ⟨_, rfl, by decide⟩, ⟨_, rfl, by decide⟩, ⟨_, rfl, by decide⟩⟩

theorem witness_OtherStepsLeaveEveryBufferByte : ∃ t, exec .txSet (grantS 8) = .next t := ⟨_, rfl⟩

/-- An access, and a command with its answer. -/
theorem witness_HistoryGrowsByTheStepsOwnRecords :
    (∃ t, exec .txSet (grantS 8) = .next t ∧ t.history = [.mmio .txeng .write 0x10000004 0x00000C00]) ∧
    ∃ t, exec (.bind 0 2) s0 = .next t ∧ t.history = [.cmd 0 0x00000021 none, .resp 0 0 none] :=
  ⟨⟨_, rfl, by decide⟩, _, rfl, by decide⟩

/-- A ready bit and a message, each in a new response. -/
theorem witness_ResponsesAreWellFormed :
    (∃ t, exec (.pollReady 0 13) (rxS true true) = .next t ∧ Record.resp 0 0x10 none ∈ t.history ∧
      Record.resp 0 0x10 none ∉ (rxS true true).history) ∧
    ∃ t, exec (.receiveNb 0 13) (rxS true true) = .next t ∧ Record.resp 0 0 (some msgM) ∈ t.history :=
  ⟨⟨_, rfl, by decide, by decide⟩, ⟨_, rfl, by decide⟩⟩

/-- A step that runs, one that is passed over, an access by the DEMUX, a proposal that decodes to nothing, and a configuration
that is refused. -/
theorem witness_StepRunsTheDecodedInstruction :
    (configLegal s0.cfg = true ∧ dec (nextSlot (slotS (.event .tick) s0)).proposal = some .tick ∧ standsAlone .tick = true) ∧
    (∃ t, exec .tick (takeSlot (slotS (.event .tick) s0)) = .next t) ∧
    exec .dmxClear (takeSlot (slotS (.event .dmxClear) s0)) = .fault .notEnabled ∧
    (dec (nextSlot (slotS (.access .demux .read 32 0x10000020 0) s0)).proposal = some (.d2cStatR .demux) ∧
      standsAlone (.d2cStatR .demux) = false) ∧
    (∃ e, decode s0.cfg (nextSlot (slotS (.event (.bind 0 5)) s0)).proposal = .error e) ∧
    configLegal { Config.vectors with numPorts := 0 } = false :=
  ⟨by decide, ⟨_, rfl⟩, rfl, by decide, ⟨_, rfl⟩, by decide⟩

/-- A send of port 2 in WAIT_ACK, and a TICK to come. -/
def busyS : State :=
  slotS (.event .tick) ((txS .waitAck 2 0 1).setPort 2 { state := .sendPending 5, elapsed := 0 })

/-- What a state needs for every invariant when the only work in it is port 2's send on channel 5. -/
structure OneSend (s : State) : Prop where
  cfg : s.cfg = Config.vectors
  ports : s.ports = [Port.atReset, Port.atReset, { state := .sendPending 5, elapsed := 0 }, Port.atReset]
  port : s.tx[(5 : TxCh)].port = 2
  busy : ∀ c : TxCh, s.tx[c].state ≠ .idle ↔ c = 5
  range : ∀ c : TxCh, s.tx[c].word ≤ 8 ∧ s.tx[c].elapsed ≤ 3
  word : ∀ c : TxCh, s.tx[c].state = .sending → s.txGrant ≠ some c → s.tx[c].word = 0
  grant : ∀ c : TxCh, s.txGrant = some c → s.tx[c].state = .sending
  bound : s.bound[5] = true
  rx : ∀ r : RxCh, s.rx[r].readySync = false ∧ s.rx[r].listeners.length = 4
  mem : Memory.wf s.mem ∧ ∀ x ∈ s.mem, inBufWindow Config.vectors x.1 = true
  dmx : s.dmxState = .idle
  init : s.initDone = true

/-- The ports of such a state. -/
theorem oneSend_port {s : State} (h : OneSend s) {p : Nat} {x : Port} (hx : s.ports[p]? = some x) :
    (p ≠ 2 ∧ x = Port.atReset) ∨ (p = 2 ∧ x = { state := .sendPending 5, elapsed := 0 }) := by
  rw [h.ports] at hx
  match p, hx with
  | 0, hx => cases hx; exact .inl ⟨by decide, rfl⟩
  | 1, hx => cases hx; exact .inl ⟨by decide, rfl⟩
  | 2, hx => cases hx; exact .inr ⟨rfl, rfl⟩
  | 3, hx => cases hx; exact .inl ⟨by decide, rfl⟩
  | n + 4, hx => cases hx

theorem oneSend_inv {s : State} (h : OneSend s) : Inv s where
  shape := ⟨by rw [h.ports, h.cfg]; rfl, fun r => by rw [h.cfg]; exact (h.rx r).2⟩
  memory := ⟨h.mem.1, by rw [h.cfg]; exact h.mem.2⟩
  readySync := fun r hr => absurd ((h.rx r).1.symm.trans hr) (by decide)
  grant := h.grant
  word := h.word
  sendPort := by
    intro p c
    constructor
    · rintro ⟨x, hx, hs⟩
      rcases oneSend_port h hx with ⟨-, rfl⟩ | ⟨rfl, rfl⟩
      · cases hs
      · cases hs
        exact ⟨(h.busy 5).2 rfl, h.port⟩
    · rintro ⟨hc, hp⟩
      obtain rfl := (h.busy c).1 hc
      obtain rfl : 2 = p := h.port.symm.trans hp
      exact ⟨_, by rw [h.ports]; rfl, rfl⟩
  busyBound := fun c hc => by rw [(h.busy c).1 hc]; exact h.bound
  waitBound := by
    intro p x r b hx hs
    rcases oneSend_port h hx with ⟨-, rfl⟩ | ⟨-, rfl⟩ <;> cases hs
  beforeInit := fun hi => absurd (h.init.symm.trans hi) (by decide)
  ranges := ⟨by rw [h.cfg]; exact h.range, by
    intro p x hx
    rcases oneSend_port h hx with ⟨-, rfl⟩ | ⟨-, rfl⟩ <;> exact ⟨by decide, fun r b h => by cases h⟩⟩
  demux := ⟨fun hn => absurd h.dmx hn, by rw [h.dmx]; rintro (⟨k, h⟩ | h | h) <;> cases h⟩
  clearRun := by intro n hn; rw [h.dmx] at hn; cases hn

/-- In `busyS` every invariant holds and the step is taken. -/
theorem witness_StepKeepsTheInvariants : Inv busyS ∧ ∃ t, step busyS = .next t :=
  ⟨oneSend_inv ⟨rfl, rfl, by decide, by decide, by decide, by decide, by decide, by decide, by decide,
    ⟨List.Pairwise.nil, by decide⟩, rfl, rfl⟩, _, rfl⟩

/-! ## A fair run: port 2's send on channel 5 is granted, notified and never acknowledged -/

/-- The send is latched. -/
def fairStart : State := (txS .sending 2 0 0).setPort 2 { state := .sendPending 5, elapsed := 0 }

/-- Grant, eight payload words, the notification, T_SEND_TIMEOUT ticks and the timeout. -/
def fairSteps : List Instr :=
  [.txGrant 5] ++ List.replicate 8 .txWrite ++ [.txSet, .tick, .tick, .tick, .txTimeout 5]

/-- Those steps in turn, then TICK for ever. -/
def fairSched (n : Nat) : Slot := { proposal := .event (fairSteps[n]?.getD .tick), draws := noDraws }

/-- The run of that schedule. -/
def fairRun : Nat → State
  | 0 => fairStart
  | n + 1 => (next? (stepOn (fairSched n) (fairRun n))).getD (fairRun n)

/-- The state after the timeout, when only the count of steps still moves. -/
def fairEnd (k : Nat) : State := { fairRun 14 with stepCount := 14 + k }

theorem fairRun_prefix : ∀ n : Fin 14, taken (fairSched n.val) (fairRun n.val) = fairSteps[n.val]? := by decide

/-- Every step up to the timeout is taken, and then the block is at rest. -/
theorem fairRun_isNext : ∀ n : Fin 14, isNext (stepOn (fairSched n.val) (fairRun n.val)) = true := by decide

/-- A state at rest: no step of the block but TICK can move anything but the count of steps. -/
structure AtRest (s : State) : Prop where
  dmx : s.dmxState = .idle
  grant : s.txGrant = none
  tx : ∀ c : TxCh, s.tx[c].state = .idle
  ports : ∀ x ∈ s.ports, x.state = .free
  rx : ∀ r : RxCh, s.rx[r].readySync = s.rx[r].ready
  init : s.initDone = true
  irq : irqCpu s = false
  agenda : s.agenda = []
  draws : s.draws = noDraws
  legal : configLegal s.cfg = true

theorem fairRun_rest : AtRest (fairRun 14) where
  dmx := by decide +kernel
  grant := by decide +kernel
  tx := by decide +kernel
  ports := by decide +kernel
  rx := by decide +kernel
  init := by decide +kernel
  irq := by decide +kernel
  agenda := by decide +kernel
  draws := by decide +kernel
  legal := by decide +kernel

/-- The slot of a TICK. -/
def tickSlot : Slot := { proposal := .event .tick, draws := noDraws }

/-- At rest, a TICK moves the count of steps alone. -/
theorem stepOn_tick {s : State} (h : AtRest s) : stepOn tickSlot s = .next { s with stepCount := s.stepCount + 1 } := by
  have htx : (Vector.ofFn fun c : Fin 8 => tickTx s.cfg.tSendTimeout s.tx[c]) = s.tx := by
    refine Vector.ext fun k hk => ?_
    have hi : s.tx[k].state ≠ .waitAck := by
      have := h.tx ⟨k, hk⟩
      rw [Fin.getElem_fin] at this
      rw [this]; decide
    rw [Vector.getElem_ofFn]
    exact if_neg hi
  have hports : s.ports.map tickPort = s.ports := by
    refine (List.map_congr_left fun x hx => ?_).trans (List.map_id _)
    show tickPort x = x
    rw [tickPort, h.ports x hx]
  have e : exec .tick (loadSlot tickSlot s) = .next { s with stepCount := s.stepCount + 1 } := by
    have ha := h.agenda
    have hd := h.draws
    show Host.Outcome.next _ = _
    congr 1
    rw [State.mk.injEq]
    simp only [loadSlot, htx, hports, ha, hd, tickSlot, List.tail_nil, and_self]
  unfold stepOn
  rw [if_pos h.legal]
  exact congrArg (fun o => passOver o (loadSlot tickSlot s)) e

theorem atRest_count {s : State} (h : AtRest s) (k : Nat) : AtRest { s with stepCount := k } :=
  ⟨h.dmx, h.grant, h.tx, h.ports, h.rx, h.init, h.irq, h.agenda, h.draws, h.legal⟩

theorem fairSched_late {n : Nat} (h : 14 ≤ n) : fairSched n = tickSlot := by
  have : fairSteps[n]? = none := List.getElem?_eq_none h
  simp [fairSched, this, tickSlot]

/-- From the timeout on, every step is a TICK of a state at rest. -/
theorem fairRun_late (k : Nat) :
    AtRest (fairRun (14 + k)) ∧ stepOn (fairSched (14 + k)) (fairRun (14 + k)) = .next (fairRun (14 + k + 1)) := by
  have ticks {n : Nat} (h : 14 ≤ n) (hr : AtRest (fairRun n)) :
      stepOn (fairSched n) (fairRun n) = .next (fairRun (n + 1)) := by
    have e := stepOn_tick hr
    rw [← fairSched_late h] at e
    rw [e]
    show _ = Host.Outcome.next ((next? (stepOn (fairSched n) (fairRun n))).getD _)
    rw [e]; rfl
  induction k with
  | zero => exact ⟨fairRun_rest, ticks (Nat.le_refl _) fairRun_rest⟩
  | succ k ih =>
    have e := stepOn_tick ih.1
    rw [← fairSched_late (Nat.le_add_right 14 k), ih.2] at e
    have hr : AtRest (fairRun (14 + k + 1)) := by
      injection e with e
      rw [e]
      exact atRest_count ih.1 _
    exact ⟨hr, ticks (by omega) hr⟩

theorem fairRun_isRun : IsRun fairSched fairRun := by
  intro n
  by_cases h : n < 14
  · have hn := fairRun_isNext ⟨n, h⟩
    show _ = Host.Outcome.next ((next? (stepOn (fairSched n) (fairRun n))).getD _)
    cases e : stepOn (fairSched n) (fairRun n) with
    | next t => rfl
    | fault f => simp only [e] at hn; cases hn
    | refused r => simp only [e] at hn; cases hn
  · obtain ⟨k, rfl⟩ := Nat.exists_eq_add_of_le (Nat.le_of_not_lt h)
    exact (fairRun_late k).2

/-- At rest, TICK is the only step of the block that is enabled. -/
theorem blockEnabled_atRest {s : State} (h : AtRest s) {i : Instr} (hb : BlockEnabled i s) : i = .tick := by
  obtain ⟨hk, he⟩ := hb
  have hd := h.dmx
  have hg := h.grant
  have port {p : Nat} {x : Port} {r : RxCh} {t : Nat} (hp : s.ports[p]? = some x) (hw : x.state = .waiting r t) : False := by
    rw [h.ports x (List.mem_of_getElem? hp)] at hw; cases hw
  have idle {st : DmxState} (hs : s.dmxState = st) (hn : st ≠ .idle) : False := hn (hs.symm.trans hd)
  cases i with
  | tick => rfl
  | bind | send | receiveNb | receiveB | pollReady | registerListener | cancel | illegal => cases hk
  | c2dEnR | c2dEnW | c2dSetW | c2dSetR | c2dClrW | c2dClrR | c2dStatR | c2dStatW | rsvdR | rsvdW | d2cSetW | d2cSetR
  | d2cClrW | d2cClrR | d2cEnR | d2cEnW | d2cStatR | d2cStatW | bufR | bufW => cases hk
  | dmxStart =>
    rcases he.2.2 with hq | hq
    · exact absurd (h.irq.symm.trans hq) (by decide)
    · cases hq
  | dmxClear => exact (idle he.choose_spec (by simp)).elim
  | dmxSpurious | dmxTxack | dmxTxackUnbound | dmxRxDispatch | dmxRxUnbound => exact (idle he.1 (by simp)).elim
  | dmxRxRead => exact (idle he.choose_spec (by simp)).elim
  | dmxRxCommit | dmxRearm => exact (idle he (by simp)).elim
  | txGrant c => exact absurd ((h.tx c).symm.trans he.2.1) (by decide)
  | txWrite | txSet => obtain ⟨c, hc, -⟩ := he; exact absurd (hg.symm.trans hc) (by simp)
  | txTimeout c => exact absurd ((h.tx c).symm.trans he.1) (by decide)
  | waitConsume p => obtain ⟨x, r, t, hp, hw, -⟩ := he; exact (port hp hw).elim
  | waitTimeout p => obtain ⟨x, r, t, hp, hw, -⟩ := he; exact (port hp hw).elim
  | sync r => exact absurd (h.rx r) he
  | init => exact absurd (h.init.symm.trans he) (by decide)
  | reset => cases hk

theorem fairRun_fair : FairRun fairSched fairRun where
  run := fairRun_isRun
  weak := by
    intro i n hb
    obtain rfl := blockEnabled_atRest (fairRun_late n).1 (hb (14 + n) (by omega))
    exact ⟨14 + n, by omega, by unfold Takes; rw [fairSched_late (by omega)]; rfl⟩
  strong := by
    intro c n hc
    obtain ⟨k, hk, he⟩ := hc (14 + n) (by omega)
    obtain ⟨j, rfl⟩ := Nat.exists_eq_add_of_le (show 14 ≤ k by omega)
    exact absurd (((fairRun_late j).1.tx c).symm.trans he.2.1) (by decide)

/-- From the notification on, the run takes TICKs and the timeout only. -/
theorem fairRun_after (m : Nat) (hm : 10 ≤ m) :
    taken (fairSched m) (fairRun m) = some .tick ∨ taken (fairSched m) (fairRun m) = some (.txTimeout 5) := by
  by_cases h : m < 14
  · have e : taken (fairSched m) (fairRun m) = fairSteps[m]? := fairRun_prefix ⟨m, h⟩
    have late : fairSteps[m]? = some .tick ∨ fairSteps[m]? = some (.txTimeout 5) := by
      clear e
      revert m
      decide
    exact late.imp e.trans e.trans
  · rw [fairSched_late (by omega)]; exact .inl rfl

theorem fairRun_oneSend (n : Fin 14) : OneSend (fairRun n.val) where
  cfg := by revert n; decide +kernel
  ports := by revert n; decide +kernel
  port := by revert n; decide +kernel
  busy := by revert n; decide +kernel
  range := by revert n; decide +kernel
  word := by revert n; decide +kernel
  grant := by revert n; decide +kernel
  bound := by revert n; decide +kernel
  rx := by revert n; decide +kernel
  mem := by revert n; decide +kernel
  dmx := by revert n; decide +kernel
  init := by revert n; decide +kernel

/-- A send that is latched, granted and waits for an ack that never comes, with every invariant. -/
theorem witness_FairRunsGrantAndTimeOutEverySend :
    FairRun fairSched fairRun ∧ (Inv (fairRun 0) ∧ (fairRun 0).tx[5].state = .sending) ∧
    (Inv (fairRun 1) ∧ (fairRun 1).txGrant = some 5) ∧
    (Inv (fairRun 10) ∧ (fairRun 10).tx[5].state = .waitAck ∧ noAck 5 (fairRun 10)) ∧
    ∀ m, 10 ≤ m → ¬ Takes fairSched fairRun m .reset ∧
      ∀ ag v, Takes fairSched fairRun m (.d2cSetW ag v) → (v >>> (2 * ((5 : TxCh).val + 8))) &&& 0x3 = 0 := by
  refine ⟨fairRun_fair, ⟨oneSend_inv (fairRun_oneSend 0), by decide +kernel⟩,
    ⟨oneSend_inv (fairRun_oneSend 1), by decide +kernel⟩,
    ⟨oneSend_inv (fairRun_oneSend 10), by decide +kernel, by unfold noAck; decide +kernel⟩, fun m hm => ?_⟩
  unfold Takes
  rcases fairRun_after m hm with e | e <;> rw [e] <;> exact ⟨by simp, fun ag v h => by cases h⟩

end Sys2Proof.Machine.Tests
end

section
/-! The two interrupt lines (R32). -/

namespace Sys2Proof.Machine

/-- A masked word is nonzero exactly when the word and its mask share a set bit. -/
theorem and_ne_zero_iff_sharedBit (w m : Word) :
    w &&& m ≠ 0 ↔ ∃ b, w.getLsbD b = true ∧ m.getLsbD b = true := by
  constructor
  · intro nonzero
    by_contra noShared
    refine nonzero (BitVec.eq_of_getLsbD_eq fun b _ => ?_)
    have notBoth : ¬ (w.getLsbD b = true ∧ m.getLsbD b = true) := fun shared => noShared ⟨b, shared⟩
    simpa using notBoth
  · rintro ⟨b, hw, hm⟩ zero
    have bit := congrArg (fun v : Word => v.getLsbD b) zero
    simp [hw, hm] at bit

theorem irqCpu_iff_sharedBit (s : State) :
    irqCpu s = true ↔ ∃ b, s.d2cStat.getLsbD b = true ∧ s.d2cEn.getLsbD b = true :=
  bne_iff_ne.trans (and_ne_zero_iff_sharedBit s.d2cStat s.d2cEn)

theorem irqDsp_iff_sharedBit (s : State) :
    irqDsp s = true ↔ ∃ b, s.c2dStat.getLsbD b = true ∧ s.c2dEn.getLsbD b = true :=
  bne_iff_ne.trans (and_ne_zero_iff_sharedBit s.c2dStat s.c2dEn)

/-- Settles O10: each line is the test of R32 for a nonzero enabled status, which is a bit shared with the enables. -/
theorem interruptLinesAreEnabledStatus : Obligations.InterruptLinesAreEnabledStatus :=
  fun s => ⟨irqCpu_iff_sharedBit s, irqDsp_iff_sharedBit s⟩

end Sys2Proof.Machine
end

section
/-! The rows of the command words (R92, R93): which word spells which command. The decoder reads exactly that (R94). -/

namespace Sys2Proof

/-! ## Fields -/

/-- A field of R91 as a slice of the word. -/
theorem toNat_extractLsb'_eq_bits (w : Word) (hi lo : Nat) :
    (w.extractLsb' lo (hi + 1 - lo)).toNat = bits w hi lo := by
  rw [BitVec.extractLsb'_toNat, Nat.shiftRight_eq_div_pow, bits]

theorem bits_of_extractLsb'_eq {w : Word} (hi lo : Nat) {v : BitVec (hi + 1 - lo)}
    (h : w.extractLsb' lo (hi + 1 - lo) = v) : bits w hi lo = v.toNat := by
  rw [← h, toNat_extractLsb'_eq_bits]

/-- A word is the sum of its shifted fields (R91). -/
theorem toNat_eq_sum_fields (w : Word) :
    w.toNat = bits w 31 16 * 2 ^ 16 + bits w 15 12 * 2 ^ 12 + bits w 11 4 * 2 ^ 4 + bits w 3 0 := by
  have := w.isLt
  simp only [bits]
  omega

/-- The bits above the channel field are timeout, rsv and mode (R91). -/
theorem bits_upper_eq_zero_iff (w : Word) :
    bits w 31 12 = 0 ↔ bits w 31 16 = 0 ∧ bits w 15 13 = 0 ∧ bits w 12 12 = 0 := by
  simp only [bits]
  omega

/-- The four bits above the channel field are rsv and, lowest, mode (R91). -/
theorem bits_modeField_eq (w : Word) : bits w 15 12 = bits w 15 13 * 2 + bits w 12 12 := by
  simp only [bits]
  omega

theorem bits_mode_lt (w : Word) : bits w 12 12 < 2 := Nat.mod_lt _ (by decide)

/-! ## Rows -/

/-- The check of R93 by rows: one of the six opcodes with nothing above the channel field, or RECEIVE.B. -/
theorem legalWord_iff (w : Word) :
    legalWord w = true ↔
      (1 ≤ bits w 3 0 ∧ bits w 3 0 ≤ 6 ∧ bits w 31 12 = 0) ∨ (bits w 3 0 = 3 ∧ bits w 15 12 = 1) := by
  have := w.isLt
  simp only [legalWord, bits]
  split
  · simp only [Bool.and_eq_true, Bool.or_eq_true, decide_eq_true_eq]
    omega
  · simp only [Bool.and_eq_true, decide_eq_true_eq]
    omega

/-- `Spells p w m i`: word `w` on port `p`, with `m` beside it, is of the row of `i` (R92, R93, R98). -/
inductive Spells (p : Nat) (w : Word) (m : Msg) : Instr → Prop
  | bind (op : bits w 3 0 = 1) (upper : bits w 31 12 = 0) : Spells p w m (.bind p (bits w 11 4))
  | send (op : bits w 3 0 = 2) (upper : bits w 31 12 = 0) : Spells p w m (.send p (bits w 11 4) m)
  | receiveNb (op : bits w 3 0 = 3) (upper : bits w 31 12 = 0) : Spells p w m (.receiveNb p (bits w 11 4))
  | receiveB (op : bits w 3 0 = 3) (mode : bits w 15 12 = 1) :
      Spells p w m (.receiveB p (bits w 11 4) (bits w 31 16))
  | pollReady (op : bits w 3 0 = 4) (upper : bits w 31 12 = 0) : Spells p w m (.pollReady p (bits w 11 4))
  | registerListener (op : bits w 3 0 = 5) (upper : bits w 31 12 = 0) :
      Spells p w m (.registerListener p (bits w 11 4))
  | cancel (op : bits w 3 0 = 6) (upper : bits w 31 12 = 0) : Spells p w m (.cancel p (bits w 11 4))
  | illegal (noRow : legalWord w = false) :
      Spells p w m (.illegal p w (if carriesPayload w then some m else none))

theorem exists_spells (p : Nat) (w : Word) (m : Msg) : ∃ i, Spells p w m i := by
  cases legal : legalWord w with
  | false => exact ⟨_, .illegal legal⟩
  | true =>
    rcases (legalWord_iff w).1 legal with ⟨low, high, upper⟩ | ⟨op, mode⟩
    · have ops : bits w 3 0 = 1 ∨ bits w 3 0 = 2 ∨ bits w 3 0 = 3 ∨ bits w 3 0 = 4 ∨ bits w 3 0 = 5 ∨
          bits w 3 0 = 6 := by omega
      rcases ops with op | op | op | op | op | op
      · exact ⟨_, .bind op upper⟩
      · exact ⟨_, .send op upper⟩
      · exact ⟨_, .receiveNb op upper⟩
      · exact ⟨_, .pollReady op upper⟩
      · exact ⟨_, .registerListener op upper⟩
      · exact ⟨_, .cancel op upper⟩
    · exact ⟨_, .receiveB op mode⟩

/-- A word of no row falls through every branch of the decoder, and keeps its payload where its opcode is SEND's
(R98, R101). -/
theorem decodeCommand_of_not_legal (p : Nat) {w : Word} (m : Msg) (h : legalWord w = false) :
    decodeCommand p w m = .illegal p w (if carriesPayload w then some m else none) := by
  have noRow : ¬ legalWord w = true := by simp [h]
  rw [legalWord_iff] at noRow
  unfold decodeCommand carriesPayload
  split
  case h_1 op | h_2 op | h_4 op | h_5 op | h_6 op =>
    have upper : bits w 31 12 ≠ 0 := by omega
    simp [op, upper]
  case h_3 op =>
    have upper := bits_upper_eq_zero_iff w
    have modeField := bits_modeField_eq w
    have bound := bits_mode_lt w
    by_cases rsv : bits w 15 13 = 0
    · have mode : bits w 12 12 = 0 := by omega
      have timeout : bits w 31 16 ≠ 0 := by omega
      simp [op, rsv, mode, timeout]
    · simp [op, rsv]
  case h_7 _ notSend _ _ _ _ =>
    simp [show bits w 3 0 ≠ 2 from notSend]

theorem decodeCommand_of_spells {p : Nat} {w : Word} {m : Msg} {i : Instr} (h : Spells p w m i) :
    decodeCommand p w m = i := by
  cases h with
  | bind op upper | send op upper | pollReady op upper | registerListener op upper | cancel op upper =>
    simp [decodeCommand, op, upper]
  | receiveNb op upper =>
    obtain ⟨timeout, rsv, mode⟩ := (bits_upper_eq_zero_iff w).1 upper
    simp [decodeCommand, op, timeout, rsv, mode]
  | receiveB op mode =>
    have modeField := bits_modeField_eq w
    have bound := bits_mode_lt w
    have rsv : bits w 15 13 = 0 := by omega
    have one : bits w 12 12 = 1 := by omega
    simp [decodeCommand, op, rsv, one]
  | illegal noRow => exact decodeCommand_of_not_legal p m noRow

/-- What the decoder returns is what the word spells: it is the only instruction that the word spells. -/
theorem spells_decodeCommand (p : Nat) (w : Word) (m : Msg) : Spells p w m (decodeCommand p w m) := by
  obtain ⟨i, h⟩ := exists_spells p w m
  rwa [decodeCommand_of_spells h]

theorem ofNat_eq_of_eq_toNat {w : Word} {n : Nat} (h : n = w.toNat) : BitVec.ofNat 32 n = w := by
  rw [h, BitVec.ofNat_toNat, BitVec.setWidth_eq]

/-- R102 gives back the word. -/
theorem encodeWord_of_spells {p : Nat} {w : Word} {m : Msg} {i : Instr} (h : Spells p w m i) : encodeWord i = w := by
  have sum := toNat_eq_sum_fields w
  cases h with
  | bind op upper | send op upper | receiveNb op upper | pollReady op upper | registerListener op upper
  | cancel op upper =>
    have modeField := bits_modeField_eq w
    obtain ⟨timeout, rsv, mode⟩ := (bits_upper_eq_zero_iff w).1 upper
    exact ofNat_eq_of_eq_toNat (by omega)
  | receiveB op mode => exact ofNat_eq_of_eq_toNat (by omega)
  | illegal => rfl

theorem legalWord_eq_false_iff_decodeCommand (p : Nat) (w : Word) (m : Msg) :
    legalWord w = false ↔ ∃ payload, decodeCommand p w m = .illegal p w payload := by
  constructor
  · exact fun h => ⟨_, decodeCommand_of_not_legal p m h⟩
  · rintro ⟨payload, h⟩
    have spelled := spells_decodeCommand p w m
    rw [h] at spelled
    cases spelled with
    | illegal noRow => exact noRow

/-- Settles O2: the decoder returns the one instruction whose row the word is of, and R102 encodes each row back. -/
theorem commandWordsDecodeByTheirFields : Obligations.CommandWordsDecodeByTheirFields := by
  intro p w m
  rw [toNat_extractLsb'_eq_bits w 11 4, toNat_extractLsb'_eq_bits w 31 16]
  have op {v : BitVec 4} (h : w.extractLsb' 0 4 = v) : bits w 3 0 = v.toNat := bits_of_extractLsb'_eq 3 0 h
  have mode (h : w.extractLsb' 12 4 = 1) : bits w 15 12 = 1 := bits_of_extractLsb'_eq 15 12 h
  have upper (h : w.extractLsb' 12 20 = 0) : bits w 31 12 = 0 := bits_of_extractLsb'_eq 31 12 h
  exact ⟨fun o u => decodeCommand_of_spells (.bind (op o) (upper u)),
    fun o u => decodeCommand_of_spells (.send (op o) (upper u)),
    fun o u => decodeCommand_of_spells (.receiveNb (op o) (upper u)),
    fun o b => decodeCommand_of_spells (.receiveB (op o) (mode b)),
    fun o u => decodeCommand_of_spells (.pollReady (op o) (upper u)),
    fun o u => decodeCommand_of_spells (.registerListener (op o) (upper u)),
    fun o u => decodeCommand_of_spells (.cancel (op o) (upper u)),
    legalWord_eq_false_iff_decodeCommand p w m, encodeWord_of_spells (spells_decodeCommand p w m)⟩

end Sys2Proof
end

section
/-! The answer to an illegal word (R98). -/

namespace Sys2Proof.Machine

/-- Settles O25: ILLEGAL's rule is the answer IllegalCommand, whatever the word. -/
theorem illegalWordsAreAnswered : Obligations.IllegalWordsAreAnswered := by
  intro p w payload s issues
  rw [exec_illegal issues]
  exact congrArg Host.Outcome.next (respond_log p _ .illegalCommand false none s)

end Sys2Proof.Machine
end

section
/-! The channel table (R143). -/

namespace Sys2Proof.Machine

theorem lookup_eq_none {ch : Nat} (c : Config) (h : 16 ≤ ch) : lookup c ch = none := dif_neg (Nat.not_lt.2 h)

theorem lookup_tx {ch : Nat} (c : Config) (h : ch < 8) :
    lookup c ch = some
      { index := ⟨ch, by omega⟩, dir := .tx, bank := .c2d, buffer := c.bufBase + 32 * ch, notifyPos := ⟨ch, by omega⟩,
        eventPos := ⟨ch + 8, by omega⟩ } := by
  have inTable : ch < 16 := by omega
  simp [lookup, bufAddr, inTable, h]

theorem lookup_rx {ch : Nat} (c : Config) (h : 8 ≤ ch) (inTable : ch < 16) :
    lookup c ch = some
      { index := ⟨ch, inTable⟩, dir := .rx, bank := .d2c, buffer := c.bufBase + 32 * ch, notifyPos := ⟨ch, inTable⟩,
        eventPos := ⟨ch - 8, by omega⟩ } := by
  simp [lookup, bufAddr, inTable, Nat.not_lt.2 h]

/-- Settles O7: the record of a TX channel below 8, that of an RX channel from 8 to 15, and none above. -/
theorem channelTableRecords : Obligations.ChannelTableRecords := by
  intro c ch
  refine ⟨lookup_eq_none c, fun inTable => ?_⟩
  rcases Nat.lt_or_ge ch 8 with isTx | isRx
  · exact ⟨_, lookup_tx c isTx, by simp [isTx]⟩
  · exact ⟨_, lookup_rx c isRx inTable, by simp [Nat.not_lt.2 isRx]⟩

end Sys2Proof.Machine
end

section
/-! The reads of the register window, and the writes that store their value or none (R121 to R139). -/

namespace Sys2Proof.Machine

/-- The row of each register's read (R120) returns the register's value and only leaves its record. -/
theorem exec_readRow {ag : Issuer} {s : State} (h : mayAccess ag s) (v : Word) (r : Reg) :
    exec (regInstr ag .read v r) s = .next (regReadBy ag r.offset (regValue r s) s) := by
  cases r with
  | c2dEn => exact exec_c2dEnR h
  | c2dSet => exact exec_c2dSetR h
  | c2dClr => exact exec_c2dClrR h
  | c2dStat => exact exec_c2dStatR h
  | rsvd => exact exec_rsvdR h
  | d2cSet => exact exec_d2cSetR h
  | d2cClr => exact exec_d2cClrR h
  | d2cEn => exact exec_d2cEnR h
  | d2cStat => exact exec_d2cStatR h

/-- Settles O11: the nine read rows, each with the value of its register. -/
theorem registerReadsReturnTheirValue : Obligations.RegisterReadsReturnTheirValue := by
  intro ag s h
  have row := exec_readRow h 0
  exact ⟨row .c2dEn, row .c2dSet, row .c2dClr, row .c2dStat, row .rsvd, row .d2cSet, row .d2cClr, row .d2cEn,
    row .d2cStat⟩

/-- A write without an effect on the register file leaves its record only. -/
theorem regWrite_of_regEffect_eq {ag : Issuer} {r : Reg} {v : Word} {s : State} (noEffect : regEffect ag r v s = s) :
    regWrite ag r v s = { s with history := s.history ++ [regWriteRecord ag r.offset v s] } := by
  rw [regWrite, noEffect]
  rfl

/-- Settles O12: an enable register's write stores, and the write of a status register or of offset 0x10 has no
effect. -/
theorem enableStatusAndReservedWrites : Obligations.EnableStatusAndReservedWrites := by
  intro ag v s h
  refine ⟨?_, ?_, ?_, ?_, ?_⟩
  · exact (exec_c2dEnW h).trans (congrArg Host.Outcome.next (regWrite_c2dEn ag v s))
  · exact (exec_d2cEnW h).trans (congrArg Host.Outcome.next (regWrite_d2cEn ag v s))
  · exact (exec_c2dStatW h).trans (congrArg Host.Outcome.next (regWrite_of_regEffect_eq rfl))
  · exact (exec_d2cStatW h).trans (congrArg Host.Outcome.next (regWrite_of_regEffect_eq rfl))
  · exact (exec_rsvdW h).trans (congrArg Host.Outcome.next (regWrite_of_regEffect_eq rfl))

end Sys2Proof.Machine
end

section
/-! BIND (R145). -/

namespace Sys2Proof.Machine

theorem acceptBind_of_ge {ch : Nat} (p : Nat) (s : State) (h : 16 ≤ ch) :
    acceptBind p ch s = raise p .invalidChannel s := dif_neg (Nat.not_lt.2 h)

theorem acceptBind_of_bound {p ch : Nat} {s : State} (h : ch < 16) (bound : s.bound[ch] = true) :
    acceptBind p ch s = raise p .channelBusy s := by
  simp [acceptBind, isBound, h, bound]

theorem acceptBind_of_unbound {p ch : Nat} {s : State} (h : ch < 16) (unbound : s.bound[ch] = false) :
    acceptBind p ch s = respond p .ok false none { s with bound := s.bound.set ch true h } := by
  simp [acceptBind, isBound, h, unbound]

/-- Settles O18: R145's checks in its order, each with the state its answer leaves. -/
theorem bindOutcomes : Obligations.BindOutcomes := by
  intro p ch s issues
  rw [exec_bind issues]
  refine ⟨fun outside => ?_, fun inside => ⟨fun bound => ?_, fun unbound => ?_⟩⟩
  · rw [acceptBind_of_ge p _ outside]
    exact congrArg Host.Outcome.next (respond_log p _ .invalidChannel false none s)
  · rw [acceptBind_of_bound (s := s.log _) inside bound]
    exact congrArg Host.Outcome.next (respond_log p _ .channelBusy false none s)
  · rw [acceptBind_of_unbound (s := s.log _) inside unbound]
    exact congrArg Host.Outcome.next
      (respond_log p _ .ok false none { s with bound := s.bound.set ch true inside })

end Sys2Proof.Machine
end

section
/-! The priority encoder and its single-cycle form (R150). -/

namespace Sys2Proof.Machine

/-! ## Fired pairs as bits -/

theorem fired_iff (s : Word) (p : Fin 16) : fired s p = true ↔ (s >>> (2 * p.val)) &&& 0x3 ≠ 0 := bne_iff_ne

theorem not_fired_iff (s : Word) (p : Fin 16) : fired s p = false ↔ (s >>> (2 * p.val)) &&& 0x3 = 0 :=
  bne_eq_false_iff_eq

theorem getLsbD_three_iff (b : Nat) : (0x3 : Word).getLsbD b = true ↔ b = 0 ∨ b = 1 := by
  rcases Nat.lt_or_ge b 32 with inWord | outside
  · revert b
    decide
  · have noBit := BitVec.getLsbD_of_ge (0x3 : Word) b outside
    simp only [noBit, Bool.false_eq_true, false_iff]
    omega

theorem getLsbD_evenMask (b : Nat) : (0x55555555 : Word).getLsbD b = decide (b < 32 ∧ b % 2 = 0) := by
  rcases Nat.lt_or_ge b 32 with inWord | outside
  · revert b
    decide
  · rw [BitVec.getLsbD_of_ge _ _ outside]
    simp [Nat.not_lt.2 outside]

/-- A pair has fired when one of its two bits is set (R10, R31). -/
theorem fired_iff_bits (s : Word) (p : Fin 16) :
    fired s p = true ↔ s.getLsbD (2 * p.val) = true ∨ s.getLsbD (2 * p.val + 1) = true := by
  rw [fired_iff, and_ne_zero_iff_sharedBit]
  simp only [BitVec.getLsbD_ushiftRight, getLsbD_three_iff]
  constructor
  · rintro ⟨b, bit, rfl | rfl⟩
    · exact .inl bit
    · exact .inr bit
  · rintro (low | high)
    · exact ⟨0, low, .inl rfl⟩
    · exact ⟨1, high, .inr rfl⟩

/-- The single-cycle word marks each fired pair at the pair's low bit, and holds no other bit. -/
theorem getLsbD_prioWord_iff (s : Word) (b : Nat) :
    (prioWord s).getLsbD b = true ↔ ∃ p : Fin 16, b = 2 * p.val ∧ fired s p = true := by
  simp only [prioWord, BitVec.getLsbD_and, BitVec.getLsbD_or, BitVec.getLsbD_ushiftRight, getLsbD_evenMask,
    Bool.and_eq_true, Bool.or_eq_true, decide_eq_true_eq, fired_iff_bits, Nat.add_comm 1 b]
  constructor
  · rintro ⟨bits, inWord, even⟩
    obtain ⟨p, rfl⟩ := Nat.dvd_of_mod_eq_zero even
    exact ⟨⟨p, by omega⟩, rfl, bits⟩
  · rintro ⟨p, rfl, bits⟩
    exact ⟨bits, by omega, by omega⟩

theorem prioWord_ne_zero_iff (s : Word) : prioWord s ≠ 0 ↔ ∃ p, fired s p = true := by
  constructor
  · intro nonzero
    by_contra noneFired
    refine nonzero (BitVec.eq_of_getLsbD_eq fun b _ => ?_)
    have noBit : ¬ (prioWord s).getLsbD b = true := fun bit =>
      noneFired (((getLsbD_prioWord_iff s b).1 bit).imp fun _ => And.right)
    simpa using noBit
  · rintro ⟨p, hit⟩ zero
    have mark := (getLsbD_prioWord_iff s (2 * p.val)).2 ⟨p, rfl, hit⟩
    simp [zero] at mark

/-! ## Trailing zeros -/

/-- `ctz` is the place of the lowest set bit. -/
theorem trailingZeros_eq {w : Word} {n : Nat} (bit : w.getLsbD n = true) (below : ∀ m, m < n → w.getLsbD m = false) :
    trailingZeros w = n := by
  have inWord : n < 32 := BitVec.lt_of_getLsbD bit
  have found : (List.range 32).find? (fun j => w.getLsbD j) = some n :=
    List.find?_range_eq_some.2 ⟨bit, List.mem_range.2 inWord, fun m hm => by simp [below m hm]⟩
  simp [trailingZeros, found]

/-- The lowest bit of the single-cycle word stands at twice the lowest fired position. -/
theorem trailingZeros_prioWord {s : Word} {p : Fin 16} (hit : fired s p = true)
    (lowest : ∀ q, q < p → fired s q = false) : trailingZeros (prioWord s) = 2 * p.val := by
  refine trailingZeros_eq ((getLsbD_prioWord_iff s _).2 ⟨p, rfl, hit⟩) fun m hm => ?_
  rw [Bool.eq_false_iff, Ne, getLsbD_prioWord_iff]
  rintro ⟨q, rfl, hq⟩
  have notFired := lowest q (Fin.lt_def.2 (by omega))
  simp [hq] at notFired

/-! ## The encoder -/

theorem prioEnc_valid_iff (s : Word) : (prioEnc s).1 = true ↔ ∃ p, fired s p = true := by
  rcases prioEnc_cases s with ⟨valid, hit, -⟩ | ⟨nothing, noneFired⟩
  · exact iff_of_true valid ⟨_, hit⟩
  · simp [nothing, noneFired]

theorem prioEnc_idx_of_not_valid {s : Word} (h : (prioEnc s).1 = false) : (prioEnc s).2 = 0 := by
  rcases prioEnc_cases s with ⟨valid, -, -⟩ | ⟨nothing, -⟩
  · simp [h] at valid
  · rw [nothing]

theorem prioEnc_lowest {s : Word} (h : (prioEnc s).1 = true) :
    fired s (prioEnc s).2 = true ∧ ∀ p, p < (prioEnc s).2 → fired s p = false := by
  rcases prioEnc_cases s with ⟨-, lowest⟩ | ⟨nothing, -⟩
  · exact lowest
  · simp [nothing] at h

/-- Settles O9: the encoder finds the lowest fired pair, whose low bit is the lowest bit of the single-cycle word. -/
theorem priorityEncoderReturnsLowestFiredPair : Obligations.PriorityEncoderReturnsLowestFiredPair := by
  intro s
  refine ⟨?_, prioEnc_idx_of_not_valid, fun valid => ?_, ?_, fun valid => ?_⟩
  · rw [Bool.eq_false_iff, Ne, prioEnc_valid_iff]
    simp only [not_exists, Bool.not_eq_true, not_fired_iff]
  · obtain ⟨hit, lowest⟩ := prioEnc_lowest valid
    exact ⟨(fired_iff s _).1 hit, fun j below => (not_fired_iff s j).1 (lowest j below)⟩
  · rw [prioEnc_valid_iff, prioWord_ne_zero_iff]
  · obtain ⟨hit, lowest⟩ := prioEnc_lowest valid
    rw [trailingZeros_prioWord hit lowest]
    omega

end Sys2Proof.Machine
end

section
/-! The steps of DISPATCH, and the start of an invocation (R155, R157 to R160, R164). -/

namespace Sys2Proof.Machine

variable {s : State}

/-! ## What the dispatch is about -/

theorem dispatchTarget_ack {c : TxCh} (state : s.dmxState = .dispatch) (valid : s.dmxValid = true)
    (idx : s.dmxIdx.val = c.val + 8) : dispatchTarget s = some (.ack c) := by
  rw [dispatchTarget_eq state valid, rangeSplit_tx c s.dmxIdx idx]

theorem dispatchTarget_arrival {r : RxCh} (state : s.dmxState = .dispatch) (valid : s.dmxValid = true)
    (idx : s.dmxIdx.val = r.val) : dispatchTarget s = some (.arrival r) := by
  rw [dispatchTarget_eq state valid, rangeSplit_rx r s.dmxIdx idx]

theorem isBound_chTx (s : State) (c : TxCh) : isBound s (chTx c) = s.bound[c.val] := rfl

theorem isBound_chRx (s : State) (r : RxCh) : isBound s (chRx r) = s.bound[r.val + 8] := rfl

/-! ## One equation for each step -/

/-- DMX_START, when its line or its draw enables it: it reads the raw status and enters the invocation (R155). -/
theorem exec_dmxStart_eq (init : s.initDone = true) (idle : s.dmxState = .idle)
    (trigger : irqCpu s = true ∨ s.draws.spuriousTrigger = true) :
    exec .dmxStart s = .next (enterInvocation s.d2cStat (regRead .demux .d2cStat s).2) :=
  if_pos (by simpa [init, idle] using trigger)

/-- DMX_SPURIOUS, with no fired pair saved (R157). -/
theorem exec_dmxSpurious_eq (state : s.dmxState = .dispatch) (noPair : s.dmxValid = false) :
    exec .dmxSpurious s = .next (leaveInvocation (report .spuriousInterrupt 0 s)) := if_pos ⟨state, noPair⟩

/-- DMX_TXACK, on the ack of a bound channel (R158). -/
theorem exec_dmxTxack_eq {c : TxCh} (target : dispatchTarget s = some (.ack c)) (bound : s.bound[c.val] = true) :
    exec .dmxTxack s =
      .next (leaveInvocation (if s.tx[c].state = .waitAck then completeSend c .ok s else report .staleAck c.val s)) := by
  simp only [exec, execDmxTxack, target, isBound_chTx, bound, if_true]
  rfl

/-- DMX_TXACK_UNBOUND, on the ack of an unbound channel (R159). -/
theorem exec_dmxTxackUnbound_eq {c : TxCh} (target : dispatchTarget s = some (.ack c))
    (unbound : s.bound[c.val] = false) :
    exec .dmxTxackUnbound s = .next (leaveInvocation (report .illegalTxChannel c.val s)) := by
  simp only [exec, execDmxTxackUnbound, target, isBound_chTx, unbound, Bool.false_eq_true, if_false]
  rfl

/-- DMX_RX_DISPATCH, on an arrival on a bound channel (R160). -/
theorem exec_dmxRxDispatch_eq {r : RxCh} (target : dispatchTarget s = some (.arrival r))
    (bound : s.bound[r.val + 8] = true) : exec .dmxRxDispatch s = .next { s with dmxState := .rxCopy 0 } := by
  simp only [exec, execDmxRxDispatch, target, isBound_chRx, bound, if_true]

/-- DMX_RX_UNBOUND, on an arrival on an unbound channel (R164). -/
theorem exec_dmxRxUnbound_eq {r : RxCh} (target : dispatchTarget s = some (.arrival r))
    (unbound : s.bound[r.val + 8] = false) :
    exec .dmxRxUnbound s = .next (leaveInvocation (report .illegalRxChannel (r.val + 8) s)) := by
  simp only [exec, execDmxRxUnbound, target, isBound_chRx, unbound, Bool.false_eq_true, if_false]
  rfl

/-! ## The states they leave -/

theorem leaveInvocation_report (kind : ReportKind) (idx : Nat) (s : State) :
    leaveInvocation (report kind idx s) =
      { s with dmxState := .idle, history := s.history ++ [.report kind idx] } := rfl

theorem leaveInvocation_completeSend (c : TxCh) (code : StatusCode) (s : State) :
    leaveInvocation (completeSend c code s) = { s with
      ports := s.ports.set s.tx[c].port Port.atReset
      tx := s.tx.set c.val { s.tx[c] with state := .idle, elapsed := 0 } c.isLt
      dmxState := .idle
      history := s.history ++ [respRecord s.tx[c].port code false none] } := rfl

end Sys2Proof.Machine
end

section
/-! The demultiplexer's obligations about the start of an invocation and its dispatch. -/

namespace Sys2Proof.Machine

/-- Settles O27: DMX_START enters the invocation on the decode of the raw status word. -/
theorem dmxStartSavesTheDecodedPosition : Obligations.DmxStartSavesTheDecodedPosition :=
  fun _ init idle trigger => exec_dmxStart_eq init idle trigger

/-- Settles O30: with no fired pair saved, DMX_SPURIOUS reports and returns. -/
theorem spuriousInvocationIsReported : Obligations.SpuriousInvocationIsReported := by
  intro s state noPair
  rw [exec_dmxSpurious_eq state noPair, leaveInvocation_report]

/-- Settles O31: the position is the ack of `c`, and R158's test of the waiting send chooses the answer. -/
theorem txAckEndsTheWaitingSend : Obligations.TxAckEndsTheWaitingSend := by
  intro s c state valid idx bound
  rw [exec_dmxTxack_eq (dispatchTarget_ack state valid idx) bound]
  constructor
  · intro waits
    rw [if_pos waits, leaveInvocation_completeSend]
  · intro stale
    rw [if_neg stale, leaveInvocation_report]

/-- Settles O32: an ack and an arrival of an unbound channel each end in their report. -/
theorem unboundEventsAreReportedAndDropped : Obligations.UnboundEventsAreReportedAndDropped := by
  intro s state valid
  constructor
  · intro c idx unbound
    rw [exec_dmxTxackUnbound_eq (dispatchTarget_ack state valid idx) unbound, leaveInvocation_report]
  · intro r idx unbound
    rw [exec_dmxRxUnbound_eq (dispatchTarget_arrival state valid idx) unbound, leaveInvocation_report]

/-- Settles O33: an arrival on a bound channel starts the copy; the ready flag is not read. -/
theorem arrivalOnABoundChannelIsAccepted : Obligations.ArrivalOnABoundChannelIsAccepted := by
  intro s r state valid idx bound
  exact exec_dmxRxDispatch_eq (dispatchTarget_arrival state valid idx) bound

end Sys2Proof.Machine
end

section
/-! SEND (R190): one lemma for each of its checks, in their order, and one for the latch. -/

namespace Sys2Proof.Machine

theorem acceptSend_of_ge {ch : Nat} (p : Nat) (m : Msg) (s : State) (outside : 8 ≤ ch) :
    acceptSend p ch m s = raise p .invalidChannel s := by
  rw [acceptSend, txChannel_none outside]

section
variable {c : TxCh} {s : State} (p : Nat) (m : Msg)

theorem acceptSend_of_unbound (unbound : s.bound[c.val] = false) :
    acceptSend p c.val m s = raise p .channelUnbound s := by
  simp [acceptSend, txChannel_val, isBound_chTx, unbound]

theorem acceptSend_of_busy (bound : s.bound[c.val] = true) (busy : s.tx[c].state ≠ .idle) :
    acceptSend p c.val m s = raise p .channelBusy s := by
  simp [acceptSend, txChannel_val, isBound_chTx, bound, busy, -Fin.getElem_fin]

theorem acceptSend_of_xferErr (bound : s.bound[c.val] = true) (idle : s.tx[c].state = .idle)
    (err : s.draws.xferErr = true) : acceptSend p c.val m s = raise p .copyFault s := by
  simp [acceptSend, txChannel_val, isBound_chTx, bound, idle, err, -Fin.getElem_fin]

/-- The one outcome without a response: the send is latched and the port pends on it. -/
theorem acceptSend_of_idle (bound : s.bound[c.val] = true) (idle : s.tx[c].state = .idle)
    (noErr : s.draws.xferErr = false) :
    acceptSend p c.val m s = { s with
      tx := s.tx.set c.val { state := .sending, port := p, payload := m, word := 0, elapsed := 0 } c.isLt
      ports := s.ports.modify p fun x => { x with state := .sendPending c } } := by
  simp [acceptSend, txChannel_val, isBound_chTx, bound, idle, noErr, State.setTx, -Fin.getElem_fin]

end

/-- A SEND whose accept step raises `code` is answered with it at once. -/
theorem exec_send_of_raise {p ch : Nat} {m : Msg} {code : StatusCode} {s : State} (issues : mayIssue p s)
    (raises : acceptSend p ch m (s.log (cmdRecord p (.send p ch m))) =
      raise p code (s.log (cmdRecord p (.send p ch m)))) :
    exec (.send p ch m) s = .next (answered p (.send p ch m) code false none s) := by
  rw [exec_send issues, raises]
  exact congrArg Host.Outcome.next (respond_log p _ code false none s)

/-- Settles O19: R190's checks in the order of R301, then the latch. The CMD record that R97 appends first is read by
none of them. -/
theorem sendOutcomes : Obligations.SendOutcomes := by
  intro p ch m s issues
  refine ⟨fun outside => exec_send_of_raise issues (acceptSend_of_ge p m _ outside), ?_⟩
  rintro c rfl
  refine ⟨fun unbound => ?_, fun bound busy => ?_, fun bound idle err => ?_, fun bound idle noErr => ?_⟩
  · exact exec_send_of_raise issues (acceptSend_of_unbound p m unbound)
  · exact exec_send_of_raise issues (acceptSend_of_busy p m bound busy)
  · exact exec_send_of_raise issues (acceptSend_of_xferErr p m bound idle err)
  · rw [exec_send issues, acceptSend_of_idle (s := s.log _) p m bound idle noErr]
    rfl

end Sys2Proof.Machine
end

section
/-! CANCEL (R226). -/

namespace Sys2Proof.Machine

theorem acceptCancel_of_outside {ch : Nat} (p : Nat) (s : State) (outside : ch < 8 ∨ 16 ≤ ch) :
    acceptCancel p ch s = raise p .invalidChannel s := by
  rw [acceptCancel, rxChannel_none outside]

/-- Where the loop covers the whole port list, it is `endWait` on every port. -/
theorem mapIdx_endWait {ports : List Port} {n : Nat} (r : RxCh) (all : ports.length = n) :
    (ports.mapIdx fun q x => if q < n then endWait r x else x) = ports.map (endWait r) := by
  refine List.ext_getElem (by simp) fun q inPorts _ => ?_
  have covered : q < n := by simpa [all] using inPorts
  simp [covered]

/-- The state CANCEL leaves on an RX channel, with one entry per port: every wait on it is over, then the issuer is
answered. -/
theorem acceptCancel_of_rx {s : State} (p : Nat) (r : RxCh) (shape : s.ports.length = s.cfg.numPorts) :
    acceptCancel p (r.val + 8) s = { s with
      ports := (s.ports.map (endWait r)).set p Port.atReset
      history := s.history ++
        ((List.range s.cfg.numPorts).filter (waitsOn s r)).map (fun q => respRecord q .cancelled false none) ++
        [respRecord p .ok false none] } := by
  simp only [acceptCancel, rxChannel_val, foldl_cancelOne, mapIdx_endWait r shape, respond_eq]

/-- Settles O22: off the RX channels the answer is R226's error; on one, the loop ends the waits that stood before the
command, since the CMD record of R97 changes no port. -/
theorem cancelOutcomes : Obligations.CancelOutcomes := by
  intro p ch s issues shape
  rw [exec_cancel issues]
  refine ⟨fun outside => ?_, ?_⟩
  · rw [acceptCancel_of_outside p _ outside]
    exact congrArg Host.Outcome.next (respond_log p _ .invalidChannel false none s)
  · rintro r rfl
    rw [acceptCancel_of_rx (s := s.log _) p r shape]
    rfl

end Sys2Proof.Machine
end

section
/-! The consume operation of a receive (R224), and the step in which a waiting port takes it (R223). -/

namespace Sys2Proof.Machine

section
variable {s : State}

theorem consume_of_xferErr (p : Nat) (r : RxCh) (err : s.draws.xferErr = true) :
    consume p r s = respond p .copyFault false none s := if_pos err

/-- A transfer that succeeds clears both flags of the channel in the step that answers with the message. -/
theorem consume_of_noErr (p : Nat) (r : RxCh) (noErr : s.draws.xferErr = false) :
    consume p r s = { s with
      ports := s.ports.set p Port.atReset
      rx := s.rx.set r.val { s.rx[r] with ready := false, readySync := false } r.isLt
      history := s.history ++ [respRecord p .ok false (some s.rx[r].buf)] } :=
  if_neg (Bool.eq_false_iff.1 noErr)

/-- A waiting port has the step WAIT_CONSUME exactly when the synchronized copy is up. -/
theorem exec_waitConsume_of_waiting {p b : Nat} {x : Port} {r : RxCh} (port : s.ports[p]? = some x)
    (waits : x.state = .waiting r b) :
    exec (.waitConsume p) s = if s.rx[r].readySync then .next (consume p r s) else .fault .notEnabled := by
  obtain ⟨state, elapsed⟩ := x
  subst waits
  simp only [exec, execWaitConsume, port]

end

/-- Settles O44: with the copy up the step is R224's consume; with the copy down there is none. -/
theorem waitConsumeTakesTheMessage : Obligations.WaitConsumeTakesTheMessage := by
  intro s p x r b port waits
  rw [exec_waitConsume_of_waiting port waits]
  refine ⟨fun shown err => ?_, fun shown noErr => ?_, fun hidden t next => ?_⟩
  · rw [if_pos shown, consume_of_xferErr p r err, respond_eq]
  · rw [if_pos shown, consume_of_noErr p r noErr]
  · rw [if_neg (Bool.eq_false_iff.1 hidden)] at next
    cases next

end Sys2Proof.Machine
end

section
/-! RECEIVE in its two modes (R220, R221). They differ only in what they do when there is no message. -/

namespace Sys2Proof.Machine

/-- The accept step that both modes share; `noMessage` is what the mode does on a bound channel without a message. -/
def acceptReceive (p ch : Nat) (noMessage : RxCh → State → State) (s : State) : State :=
  match rxChannel ch with
  | none => raise p .invalidChannel s
  | some r =>
    if !isBound s (chRx r) then raise p .channelUnbound s
    else if s.rx[r].ready then consume p r s
    else noMessage r s

theorem acceptReceiveNb_eq (p ch : Nat) (s : State) :
    acceptReceiveNb p ch s = acceptReceive p ch (fun _ => respond p .empty false none) s := rfl

theorem acceptReceiveB_eq (p ch b : Nat) (s : State) :
    acceptReceiveB p ch b s =
      acceptReceive p ch (fun r s => s.setPort p { state := .waiting r b, elapsed := 0 }) s := rfl

/-! ## The checks, in their order -/

theorem acceptReceive_of_outside {ch : Nat} (p : Nat) (noMessage : RxCh → State → State) (s : State)
    (outside : ch < 8 ∨ 16 ≤ ch) : acceptReceive p ch noMessage s = raise p .invalidChannel s := by
  rw [acceptReceive, rxChannel_none outside]

section
variable {r : RxCh} {s : State} (p : Nat) (noMessage : RxCh → State → State)

theorem acceptReceive_of_unbound (unbound : s.bound[r.val + 8] = false) :
    acceptReceive p (r.val + 8) noMessage s = raise p .channelUnbound s := by
  simp [acceptReceive, rxChannel_val, isBound_chRx, unbound]

theorem acceptReceive_of_noMessage (bound : s.bound[r.val + 8] = true) (noMsg : s.rx[r].ready = false) :
    acceptReceive p (r.val + 8) noMessage s = noMessage r s := by
  simp [acceptReceive, rxChannel_val, isBound_chRx, bound, noMsg, -Fin.getElem_fin]

theorem acceptReceive_of_message (bound : s.bound[r.val + 8] = true) (msg : s.rx[r].ready = true) :
    acceptReceive p (r.val + 8) noMessage s = consume p r s := by
  simp [acceptReceive, rxChannel_val, isBound_chRx, bound, msg, -Fin.getElem_fin]

end

/-! ## The outcomes both modes share -/

/-- Command `i` is a RECEIVE of port `p` on channel `ch`: it runs `acceptReceive` after its CMD record (R97). -/
def Receives (p ch : Nat) (i : Instr) (noMessage : RxCh → State → State) (s : State) : Prop :=
  exec i s = .next (acceptReceive p ch noMessage (s.log (cmdRecord p i)))

section
variable {p ch : Nat} {i : Instr} {r : RxCh} {noMessage : RxCh → State → State} {s : State}

theorem receives_receiveNb (issues : mayIssue p s) :
    Receives p ch (.receiveNb p ch) (fun _ => respond p .empty false none) s := by
  rw [Receives, exec_receiveNb issues, acceptReceiveNb_eq]

theorem receives_receiveB {b : Nat} (issues : mayIssue p s) :
    Receives p ch (.receiveB p ch b) (fun r s => s.setPort p { state := .waiting r b, elapsed := 0 }) s := by
  rw [Receives, exec_receiveB issues, acceptReceiveB_eq]

/-- A RECEIVE whose accept step only responds gives the answered state. -/
theorem Receives.exec_of_respond {code : StatusCode} (h : Receives p ch i noMessage s)
    (responds : acceptReceive p ch noMessage (s.log (cmdRecord p i)) =
      respond p code false none (s.log (cmdRecord p i))) :
    exec i s = .next (answered p i code false none s) :=
  h.trans (congrArg Host.Outcome.next (responds.trans (respond_log p i code false none s)))

theorem Receives.exec_of_outside (h : Receives p ch i noMessage s) (outside : ch < 8 ∨ 16 ≤ ch) :
    exec i s = .next (answered p i .invalidChannel false none s) :=
  h.exec_of_respond (acceptReceive_of_outside p noMessage _ outside)

theorem Receives.exec_of_unbound (h : Receives p (r.val + 8) i noMessage s) (unbound : s.bound[r.val + 8] = false) :
    exec i s = .next (answered p i .channelUnbound false none s) :=
  h.exec_of_respond (acceptReceive_of_unbound p noMessage unbound)

theorem Receives.exec_of_noMessage (h : Receives p (r.val + 8) i noMessage s) (bound : s.bound[r.val + 8] = true)
    (noMsg : s.rx[r].ready = false) : exec i s = .next (noMessage r (s.log (cmdRecord p i))) :=
  h.trans (congrArg Host.Outcome.next (acceptReceive_of_noMessage p noMessage bound noMsg))

theorem Receives.exec_of_xferErr (h : Receives p (r.val + 8) i noMessage s) (bound : s.bound[r.val + 8] = true)
    (msg : s.rx[r].ready = true) (err : s.draws.xferErr = true) :
    exec i s = .next (answered p i .copyFault false none s) :=
  h.exec_of_respond
    ((acceptReceive_of_message (s := s.log _) p noMessage bound msg).trans (consume_of_xferErr p r err))

theorem Receives.exec_of_message (h : Receives p (r.val + 8) i noMessage s) (bound : s.bound[r.val + 8] = true)
    (msg : s.rx[r].ready = true) (noErr : s.draws.xferErr = false) :
    exec i s = .next { answered p i .ok false (some s.rx[r].buf) s with
      rx := s.rx.set r.val { s.rx[r] with ready := false, readySync := false } r.isLt } := by
  refine h.trans (congrArg Host.Outcome.next ?_)
  rw [acceptReceive_of_message (s := s.log _) p noMessage bound msg, consume_of_noErr (s := s.log _) p r noErr]
  simp [answered, State.log]

end

/-! ## The two modes -/

/-- Settles O20: without a message RECEIVE.NB answers Empty; its other outcomes are those of both modes. -/
theorem receiveNbOutcomes : Obligations.ReceiveNbOutcomes := by
  intro p ch s issues
  have receives : Receives p ch (.receiveNb p ch) _ s := receives_receiveNb issues
  refine ⟨receives.exec_of_outside, ?_⟩
  rintro r rfl
  refine ⟨receives.exec_of_unbound, fun bound noMsg => ?_, receives.exec_of_xferErr, receives.exec_of_message⟩
  exact receives.exec_of_respond (acceptReceive_of_noMessage p _ bound noMsg)

/-- Settles O21: without a message the port of RECEIVE.B waits; its other outcomes are those of both modes. -/
theorem receiveBOutcomes : Obligations.ReceiveBOutcomes := by
  intro p ch b s issues
  have receives : Receives p ch (.receiveB p ch b) _ s := receives_receiveB issues
  refine ⟨receives.exec_of_outside, ?_⟩
  rintro r rfl
  exact ⟨receives.exec_of_unbound, receives.exec_of_noMessage, receives.exec_of_xferErr, receives.exec_of_message⟩

end Sys2Proof.Machine
end

section
/-! The synchronizer (R250) and the commands of the notification bridge (R253, R254). -/

namespace Sys2Proof.Machine

/-! ## SYNC -/

/-- Settles O46: the two flags differ, so the step is enabled, and the inversion of SYNC says which state it leaves. -/
theorem syncRaisesTheCopyAndNotifies : Obligations.SyncRaisesTheCopyAndNotifies := by
  intro s r differs
  have steps : exec (.sync r) s = .next _ := if_pos differs
  obtain ⟨-, leaves⟩ := next_sync steps
  exact steps.trans (congrArg Host.Outcome.next leaves)

/-! ## POLL_READY -/

theorem pollBit_of_outside {ch : Nat} (s : State) (outside : ch < 8 ∨ 16 ≤ ch) : pollBit ch s = false := by
  rw [pollBit, rxChannel_none outside]

theorem pollBit_of_rx (s : State) (r : RxCh) : pollBit (r.val + 8) s = s.rx[r].readySync := by
  rw [pollBit, rxChannel_val]

/-- The CMD record that R97 appends first does not change the bit. -/
theorem exec_pollReady_answered {p ch : Nat} {s : State} (issues : mayIssue p s) :
    exec (.pollReady p ch) s = .next (answered p (.pollReady p ch) .ok (pollBit ch s) none s) :=
  (exec_pollReady issues).trans (congrArg Host.Outcome.next (respond_log p _ .ok (pollBit ch s) none s))

/-- Settles O24: the answer is OK with the poll bit, which is the copy on an RX channel and 0 elsewhere. -/
theorem pollReadyAnswersTheSynchronizedFlag : Obligations.PollReadyAnswersTheSynchronizedFlag := by
  intro p ch s issues
  rw [exec_pollReady_answered issues]
  constructor
  · intro outside
    rw [pollBit_of_outside s outside]
  · rintro r rfl
    rw [pollBit_of_rx]

/-! ## REGISTER_LISTENER -/

theorem acceptRegisterListener_of_outside {ch : Nat} (p : Nat) (s : State) (outside : ch < 8 ∨ 16 ≤ ch) :
    acceptRegisterListener p ch s = raise p .invalidChannel s := by
  rw [acceptRegisterListener, rxChannel_none outside]

/-- On an RX channel, bound or not, the answer is OK and the issuer's listener bit is set. -/
theorem exec_registerListener_of_rx {p : Nat} {s : State} (issues : mayIssue p s) (r : RxCh) :
    exec (.registerListener p (r.val + 8)) s =
      .next { answered p (.registerListener p (r.val + 8)) .ok false none s with
        rx := s.rx.set r.val { s.rx[r] with listeners := s.rx[r].listeners.set p true } r.isLt } := by
  rw [exec_registerListener issues, acceptRegisterListener, rxChannel_val]
  simp [respond_eq, answered, State.log, State.setRx]

/-- A port is a listener when it has a listener bit and the bit is 1. -/
theorem isListener_iff (s : State) (r : RxCh) (q : Nat) :
    isListener s r q = true ↔ s.rx[r].listeners[q]? = some true := by
  unfold isListener
  cases s.rx[r].listeners[q]? <;> simp

/-- A port that may issue has a listener bit on every RX channel. -/
theorem lt_listeners_length {p : Nat} {s : State} (issues : mayIssue p s) (shape : InvShape s) (r : RxCh) :
    p < s.rx[r].listeners.length := by
  obtain ⟨-, x, port, -⟩ := issues
  obtain ⟨onePort, oneBit⟩ := shape
  have inPorts : p < s.ports.length := (List.getElem?_eq_some_iff.1 port).1
  rwa [oneBit r, ← onePort]

/-- Setting a bit that the list has adds that one index to those whose bit is 1. -/
theorem getElem?_set_true_iff {l : List Bool} {p : Nat} (q : Nat) (inList : p < l.length) :
    (l.set p true)[q]? = some true ↔ l[q]? = some true ∨ q = p := by
  rw [List.getElem?_set]
  by_cases same : p = q
  · subst same
    simp [inList]
  · simp [same, Ne.symm same]

/-- Settles O23: off the RX channels the answer is R253's error; on one, only the channel's listener bits are written,
and of these only the issuer's, which the list has because there is one for each port. -/
theorem registerListenerOutcomes : Obligations.RegisterListenerOutcomes := by
  intro p ch s issues shape
  constructor
  · intro outside
    rw [exec_registerListener issues, acceptRegisterListener_of_outside p _ outside]
    exact congrArg Host.Outcome.next (respond_log p _ .invalidChannel false none s)
  · rintro r rfl
    refine ⟨_, exec_registerListener_of_rx issues r, rfl, fun r' => ?_, fun r' q => ?_⟩
    · rw [vector_get_set]
      split
      case isTrue same => rw [same]
      case isFalse => rfl
    · rw [isListener_iff, isListener_iff, vector_get_set]
      split
      case isTrue same =>
        subst same
        rw [getElem?_set_true_iff q (lt_listeners_length issues shape r)]
        simp
      case isFalse other => simp [Ne.symm other]

end Sys2Proof.Machine
end

section
/-! The timebase (R320). -/

namespace Sys2Proof.Machine

/-! ## TICK on one channel and on one port -/

theorem tickTx_of_waitAck {x : TxChan} (bound : Nat) (waits : x.state = .waitAck) :
    tickTx bound x = { x with elapsed := min (x.elapsed + 1) bound } := if_pos waits

theorem tickTx_of_ne_waitAck {x : TxChan} (bound : Nat) (rests : x.state ≠ .waitAck) : tickTx bound x = x :=
  if_neg rests

theorem tickPort_of_waiting {x : Port} (waits : ∃ r b, x.state = .waiting r b) :
    tickPort x = { x with elapsed := min (x.elapsed + 1) 65535 } := by
  obtain ⟨r, b, waiting⟩ := waits
  rw [tickPort, waiting]

theorem tickPort_of_not_waiting {x : Port} (rests : ¬ ∃ r b, x.state = .waiting r b) : tickPort x = x := by
  unfold tickPort
  split
  case h_1 r b waiting => exact absurd ⟨r, b, waiting⟩ rests
  case h_2 => rfl
  case h_3 => rfl

/-! ## The step -/

/-- Settles O47: TICK replaces the channel table and the list of ports alone, entry by entry, so that what it does is
what a tick does to one channel and to one port. -/
theorem tickAdvancesTheRunningCounters : Obligations.TickAdvancesTheRunningCounters := by
  intro s
  refine ⟨_, rfl, rfl, fun c => ?_, List.length_map tickPort, fun p x atP => ?_⟩
  · have ticked : (Vector.ofFn fun c : Fin 8 => tickTx s.cfg.tSendTimeout s.tx[c])[c] =
        tickTx s.cfg.tSendTimeout s.tx[c] := by
      rw [Fin.getElem_fin, Vector.getElem_ofFn]
    exact ⟨fun waits => ticked.trans (tickTx_of_waitAck _ waits),
      fun rests => ticked.trans (tickTx_of_ne_waitAck _ rests)⟩
  · have ticked : (s.ports.map tickPort)[p]? = some (tickPort x) := by
      rw [List.getElem?_map, atP, Option.map_some]
    exact ⟨fun waits => ticked.trans (congrArg some (tickPort_of_waiting waits)),
      fun rests => ticked.trans (congrArg some (tickPort_of_not_waiting rests))⟩

end Sys2Proof.Machine
end

section
/-! The kinds of instruction: the eight commands of a port, the accesses of the two windows, and the events (R92, R120,
R140, R100). -/

namespace Sys2Proof
open Machine

/-- `CommandOf p i`: instruction `i` is a command that port `p` issues (R92). -/
inductive CommandOf (p : Nat) : Instr → Prop
  | bind (ch : Nat) : CommandOf p (.bind p ch)
  | send (ch : Nat) (m : Msg) : CommandOf p (.send p ch m)
  | receiveNb (ch : Nat) : CommandOf p (.receiveNb p ch)
  | receiveB (ch t : Nat) : CommandOf p (.receiveB p ch t)
  | pollReady (ch : Nat) : CommandOf p (.pollReady p ch)
  | registerListener (ch : Nat) : CommandOf p (.registerListener p ch)
  | cancel (ch : Nat) : CommandOf p (.cancel p ch)
  | illegal (w : Word) (payload : Option Msg) : CommandOf p (.illegal p w payload)

/-- The kinds of instruction, each register access through its register and direction. -/
inductive Kind : Instr → Prop
  | command {p : Nat} {i : Instr} (cmd : CommandOf p i) : Kind i
  | reg (ag : Issuer) (dir : Dir) (v : Word) (r : Reg) : Kind (regInstr ag dir v r)
  | bufR (ag : Issuer) (i : Fin 16) (k : Fin 8) : Kind (.bufR ag i k)
  | bufW (ag : Issuer) (i : Fin 16) (k : Fin 8) (v : Word) : Kind (.bufW ag i k v)
  | event {i : Instr} (ev : i.isEvent = true) : Kind i

theorem kind (i : Instr) : Kind i := by
  cases i with
  | bind p ch => exact .command (.bind ch)
  | send p ch m => exact .command (.send ch m)
  | receiveNb p ch => exact .command (.receiveNb ch)
  | receiveB p ch t => exact .command (.receiveB ch t)
  | pollReady p ch => exact .command (.pollReady ch)
  | registerListener p ch => exact .command (.registerListener ch)
  | cancel p ch => exact .command (.cancel ch)
  | illegal p w payload => exact .command (.illegal w payload)
  | c2dEnR ag => exact .reg ag .read 0 .c2dEn
  | c2dEnW ag v => exact .reg ag .write v .c2dEn
  | c2dSetR ag => exact .reg ag .read 0 .c2dSet
  | c2dSetW ag v => exact .reg ag .write v .c2dSet
  | c2dClrR ag => exact .reg ag .read 0 .c2dClr
  | c2dClrW ag v => exact .reg ag .write v .c2dClr
  | c2dStatR ag => exact .reg ag .read 0 .c2dStat
  | c2dStatW ag v => exact .reg ag .write v .c2dStat
  | rsvdR ag => exact .reg ag .read 0 .rsvd
  | rsvdW ag v => exact .reg ag .write v .rsvd
  | d2cSetR ag => exact .reg ag .read 0 .d2cSet
  | d2cSetW ag v => exact .reg ag .write v .d2cSet
  | d2cClrR ag => exact .reg ag .read 0 .d2cClr
  | d2cClrW ag v => exact .reg ag .write v .d2cClr
  | d2cEnR ag => exact .reg ag .read 0 .d2cEn
  | d2cEnW ag v => exact .reg ag .write v .d2cEn
  | d2cStatR ag => exact .reg ag .read 0 .d2cStat
  | d2cStatW ag v => exact .reg ag .write v .d2cStat
  | bufR ag i k => exact .bufR ag i k
  | bufW ag i k v => exact .bufW ag i k v
  | dmxStart | dmxClear | dmxSpurious | dmxTxack | dmxTxackUnbound | dmxRxDispatch | dmxRxRead | dmxRxCommit | dmxRearm
  | dmxRxUnbound | txGrant | txWrite | txSet | txTimeout | waitConsume | waitTimeout | sync | tick | init | reset =>
    exact .event rfl

theorem agentOf_regInstr (ag : Issuer) (dir : Dir) (v : Word) (r : Reg) :
    agentOf (regInstr ag dir v r) = issuerAgent ag := by
  cases r <;> cases dir <;> rfl

theorem isEvent_regInstr (ag : Issuer) (dir : Dir) (v : Word) (r : Reg) : (regInstr ag dir v r).isEvent = false := by
  cases r <;> cases dir <;> rfl

theorem wf_regInstr (ag : Issuer) (dir : Dir) (v : Word) (r : Reg) : (regInstr ag dir v r).wf = true := by
  cases r <;> cases dir <;> rfl

theorem CommandOf.isCommandOf {p : Nat} {i : Instr} (cmd : CommandOf p i) : isCommandOf p i := by
  cases cmd <;> exact ⟨rfl, rfl⟩

theorem isCommandOf_iff {p : Nat} {i : Instr} : isCommandOf p i ↔ CommandOf p i := by
  refine ⟨fun ⟨agent, noEvent⟩ => ?_, CommandOf.isCommandOf⟩
  cases kind i with
  | @command q _ cmd =>
    obtain rfl : q = p := Agent.port.inj (cmd.isCommandOf.1.symm.trans agent)
    exact cmd
  | reg ag dir v r => exact absurd ((agentOf_regInstr ag dir v r).symm.trans agent) (issuerAgent_ne_port ag p)
  | bufR ag | bufW ag => exact absurd agent (issuerAgent_ne_port ag p)
  | event ev => exact absurd (ev.symm.trans noEvent) (by decide)

end Sys2Proof
end

section
/-! The encoders and the decoders are inverse: command words and their bytes (R94, R101), accesses (R99, R120, R140). -/

namespace Sys2Proof
open Machine

/-! ## Commands -/

theorem bits_ofNat {n : Nat} (fits : n < 2 ^ 32) (hi lo : Nat) :
    bits (BitVec.ofNat 32 n) hi lo = n / 2 ^ lo % 2 ^ (hi + 1 - lo) := by
  rw [bits, BitVec.toNat_ofNat, Nat.mod_eq_of_lt fits]

section
variable {p : Nat} {m : Msg}

/-- A word of an opcode and a channel field alone spells the row of that opcode (R102). -/
theorem spells_chanWord {op ch : Nat} (row : Nat → Instr) (opFits : op < 16) (fits : chanFits ch = true)
    (reads : ∀ {w}, bits w 3 0 = op → bits w 31 12 = 0 → Spells p w m (row (bits w 11 4))) :
    Spells p (BitVec.ofNat 32 (ch * 2 ^ 4 + op)) m (row ch) := by
  have chLt : ch < 256 := of_decide_eq_true fits
  have field := bits_ofNat (n := ch * 2 ^ 4 + op) (by omega)
  have spelled := reads ((field 3 0).trans (by omega)) ((field 31 12).trans (by omega))
  rwa [(field 11 4).trans (by omega : _ = ch)] at spelled

theorem spells_timeoutWord {ch t : Nat} (fits : chanFits ch = true) (tFits : timeoutFits t = true) :
    Spells p (encodeWord (.receiveB p ch t)) m (.receiveB p ch t) := by
  have chLt : ch < 256 := of_decide_eq_true fits
  have tLt : t < 65536 := of_decide_eq_true tFits
  have field := bits_ofNat (n := t * 2 ^ 16 + 0x1000 + ch * 2 ^ 4 + 0x3) (by omega)
  have spelled := Spells.receiveB (p := p) (m := m) ((field 3 0).trans (by omega)) ((field 15 12).trans (by omega))
  rwa [(field 11 4).trans (by omega : _ = ch), (field 31 16).trans (by omega : _ = t)] at spelled

/-- An illegal word has a payload exactly when its opcode is SEND's (R101). -/
theorem illegalFits_iff {w : Word} {payload : Option Msg} :
    illegalFits w payload = true ↔ legalWord w = false ∧ payload.isSome = carriesPayload w := by
  simp [illegalFits, carriesPayload, bits]

/-- A well-formed command is what its word spells, beside its own payload where it has one (R94). -/
theorem spells_encodeWord {i : Instr} (cmd : CommandOf p i) (wf : i.wf = true)
    (beside : ∀ payload, commandPayload i = some payload → payload = m) : Spells p (encodeWord i) m i := by
  cases cmd with
  | bind ch => exact spells_chanWord (.bind p) (by decide) wf .bind
  | send ch m' =>
    obtain rfl := beside m' rfl
    exact spells_chanWord (.send p · m') (by decide) wf .send
  | receiveNb ch => exact spells_chanWord (.receiveNb p) (by decide) wf .receiveNb
  | receiveB ch t => exact (Bool.and_eq_true_iff.1 wf).elim spells_timeoutWord
  | pollReady ch => exact spells_chanWord (.pollReady p) (by decide) wf .pollReady
  | registerListener ch => exact spells_chanWord (.registerListener p) (by decide) wf .registerListener
  | cancel ch => exact spells_chanWord (.cancel p) (by decide) wf .cancel
  | illegal w payload =>
    obtain ⟨noRow, present⟩ := illegalFits_iff.1 wf
    have spelled := Spells.illegal (p := p) (m := m) noRow
    rw [← present] at spelled
    cases payload with
    | none => exact spelled
    | some m' =>
      obtain rfl := beside m' rfl
      exact spelled

end

/-- A payload goes with a command exactly when bits [3:0] of its word say so (R101). -/
theorem carriesPayload_of_spells {p : Nat} {w : Word} {m : Msg} {i : Instr} (h : Spells p w m i) :
    commandPayload i = if carriesPayload w then some m else none := by
  cases h with
  | bind op | send op | receiveNb op | receiveB op | pollReady op | registerListener op | cancel op =>
    simp [commandPayload, carriesPayload, op]
  | illegal => rfl

theorem decode_encodeCommand {p : Nat} {i : Instr} (c : Config) (cmd : CommandOf p i) (wf : i.wf = true) :
    decode c (encodeCommand p i) = .ok i :=
  congrArg Except.ok (decodeCommand_of_spells (spells_encodeWord cmd wf fun _ h => by rw [h]; rfl))

/-! ## The bytes of a command -/

section
variable {p : Nat} {w : Word} (rest : List Byte)

theorem decodeBytes_of_noPayload (none : carriesPayload w = false) :
    decodeBytes p (leBytes w ++ rest) = .ok (decodeCommand p w Msg.zero, rest) := by
  simp [decodeBytes, leBytes, le32_leByte, none]

theorem decodeBytes_of_payload (m : Msg) (carries : carriesPayload w = true) :
    decodeBytes p (leBytes w ++ m.toList ++ rest) = .ok (decodeCommand p w m, rest) := by
  have payload : (m.toList ++ rest).take 32 = m.toList := List.take_left' (by simp)
  have after : (m.toList ++ rest).drop 32 = rest := List.drop_left' (by simp)
  have vector (h : m.toList.toArray.size = 32) : (⟨m.toList.toArray, h⟩ : Msg) = m := rfl
  simp [decodeBytes, leBytes, le32_leByte, carries, payload, after, vector]

end

/-- Settles O4: the word comes first and its opcode says whether 32 payload bytes follow it. -/
theorem commandBytesDecodeToTheCommand : Obligations.CommandBytesDecodeToTheCommand := by
  intro p i rest cmd wf
  have spelled := spells_encodeWord (m := (commandPayload i).getD Msg.zero) (isCommandOf_iff.1 cmd) wf
    fun _ h => by rw [h]; rfl
  have present := carriesPayload_of_spells spelled
  have decoded := decodeCommand_of_spells spelled
  unfold encodeBytes
  cases payload : commandPayload i with
  | none =>
    rw [payload] at present decoded
    have noPayload : carriesPayload (encodeWord i) = false := by
      by_contra carries
      simp [carries] at present
    rw [List.append_nil, decodeBytes_of_noPayload rest noPayload]
    exact congrArg (fun j => Except.ok (j, rest)) decoded
  | some m =>
    rw [payload] at present decoded
    have carries : carriesPayload (encodeWord i) = true := by
      by_contra noPayload
      simp [noPayload] at present
    rw [decodeBytes_of_payload rest m carries]
    exact congrArg (fun j => Except.ok (j, rest)) decoded

/-- Settles O3: each word's fields put it in its row; the last two break RECEIVE's row (R93). -/
theorem writtenOutWordsDecode : Obligations.WrittenOutWordsDecode := by
  intro m
  exact ⟨decodeCommand_of_spells (.bind rfl rfl), decodeCommand_of_spells (.send rfl rfl),
    decodeCommand_of_spells (.receiveNb rfl rfl), decodeCommand_of_spells (.receiveB rfl rfl),
    decodeCommand_of_spells (.pollReady rfl rfl), decodeCommand_of_spells (.registerListener rfl rfl),
    decodeCommand_of_spells (.cancel rfl rfl), decodeCommand_of_spells (.illegal rfl),
    decodeCommand_of_spells (.illegal rfl)⟩

/-! ## Accesses -/

theorem regAtOffset_offset (r : Reg) : regAtOffset r.offset = some r := by
  cases r <;> rfl

theorem offset_lt (r : Reg) : r.offset < 0x24 ∧ r.offset % 4 = 0 := by
  cases r <;> decide

/-- The aligned offsets of the register window are those of the nine registers (R120). -/
theorem exists_offset_eq {o : Nat} (inWindow : o < 0x24) (aligned : o % 4 = 0) : ∃ r : Reg, r.offset = o := by
  have words : o = 0x00 ∨ o = 0x04 ∨ o = 0x08 ∨ o = 0x0c ∨ o = 0x10 ∨ o = 0x14 ∨ o = 0x18 ∨ o = 0x1c ∨ o = 0x20 := by
    omega
  rcases words with rfl | rfl | rfl | rfl | rfl | rfl | rfl | rfl | rfl
  exacts [⟨.c2dEn, rfl⟩, ⟨.c2dSet, rfl⟩, ⟨.c2dClr, rfl⟩, ⟨.c2dStat, rfl⟩, ⟨.rsvd, rfl⟩, ⟨.d2cSet, rfl⟩, ⟨.d2cClr, rfl⟩,
    ⟨.d2cEn, rfl⟩, ⟨.d2cStat, rfl⟩]

/-- What R6 asks of the two windows. -/
theorem windows_of_legal {c : Config} (legal : configLegal c = true) :
    c.regBase % 4 = 0 ∧ c.bufBase % 4 = 0 ∧ (c.regBase + 0x24 ≤ c.bufBase ∨ c.bufBase + 512 ≤ c.regBase) := by
  simp only [configLegal, Bool.and_eq_true, decide_eq_true_eq] at legal
  tauto

section
variable {c : Config} (ag : Issuer) (dir : Dir) (v : Word)

theorem decodeAccess_regAddr (legal : configLegal c = true) (r : Reg) :
    decodeAccess c ag dir 32 (regAddr c r) v = .ok (regInstr ag dir v r) := by
  obtain ⟨regAligned, -, -⟩ := windows_of_legal legal
  obtain ⟨inWindow, aligned⟩ := offset_lt r
  have wordAligned : (c.regBase + r.offset) % 4 = 0 := by omega
  simp [decodeAccess, regAddr, wordAligned, inRegWindow_offset c inWindow, regAtOffset_offset]

theorem decodeAccess_bufOffset (legal : configLegal c = true) {o : Nat} (inWindow : o < 512) (aligned : o % 4 = 0) :
    decodeAccess c ag dir 32 (c.bufBase + o) v = .ok (bufInstr ag dir v o) := by
  obtain ⟨-, bufAligned, apart⟩ := windows_of_legal legal
  have wordAligned : (c.bufBase + o) % 4 = 0 := by omega
  have notReg : inRegWindow c (c.bufBase + o) = false := by
    rw [inRegWindow, decide_eq_false_iff_not]
    omega
  simp [decodeAccess, wordAligned, notReg, inBufWindow, inWindow, aligned]

theorem bufInstr_wordOffset (i : Fin 16) (k : Fin 8) :
    bufInstr ag .read v (32 * i.val + 4 * k.val) = .bufR ag i k ∧
      bufInstr ag .write v (32 * i.val + 4 * k.val) = .bufW ag i k v := by
  have buffer : (⟨(32 * i.val + 4 * k.val) / 32 % 16, Nat.mod_lt _ (by decide)⟩ : Fin 16) = i :=
    Fin.ext (by simp only; omega)
  have word : (⟨(32 * i.val + 4 * k.val) % 32 / 4, by omega⟩ : Fin 8) = k := Fin.ext (by simp only; omega)
  simp only [bufInstr, buffer, word, and_self]

theorem decodeAccess_bufWordAddr (legal : configLegal c = true) (i : Fin 16) (k : Fin 8) :
    decodeAccess c ag dir 32 (bufWordAddr c i k) v = .ok (bufInstr ag dir v (32 * i.val + 4 * k.val)) := by
  rw [bufWordAddr, bufAddr, Nat.add_assoc]
  exact decodeAccess_bufOffset ag dir v legal (by omega) (by omega)

/-- The three grounds of R142. -/
theorem decodeAccess_error {width addr : Nat} (bad : width ≠ 32 ∨ addr % 4 ≠ 0 ∨
    ¬ ((c.regBase ≤ addr ∧ addr < c.regBase + 0x24) ∨ (c.bufBase ≤ addr ∧ addr < c.bufBase + 512))) :
    ∃ e, decodeAccess c ag dir width addr v = .error e := by
  unfold decodeAccess
  split
  · exact ⟨_, rfl⟩
  split
  · exact ⟨_, rfl⟩
  have notReg : ¬ inRegWindow c addr = true := by rw [inRegWindow, decide_eq_true_eq]; tauto
  have notBuf : ¬ inBufWindow c addr = true := by rw [inBufWindow, decide_eq_true_eq]; tauto
  rw [if_neg notReg, if_neg notBuf]
  exact ⟨_, rfl⟩

end

theorem encode_regInstr (c : Config) (ag : Issuer) (dir : Dir) (v : Word) (r : Reg) :
    ∃ v', encode c (regInstr ag dir v r) = .access ag dir 32 (regAddr c r) v' ∧
      regInstr ag dir v' r = regInstr ag dir v r := by
  cases dir with
  | read => cases r <;> exact ⟨_, rfl, rfl⟩
  | write => cases r <;> exact ⟨_, rfl, rfl⟩

theorem encode_command {p : Nat} {i : Instr} (c : Config) (cmd : CommandOf p i) : encode c i = encodeCommand p i := by
  cases cmd <;> rfl

theorem encode_event {i : Instr} (c : Config) (ev : i.isEvent = true) : encode c i = .event i := by
  cases i <;> first | rfl | cases ev

/-- Settles O1: each kind of instruction has its own inverse: the command words, the registers, the buffer words, and
the events, which are presented as themselves. -/
theorem decodeOfEncodeIsTheInstruction : Obligations.DecodeOfEncodeIsTheInstruction := by
  intro c i legal wf
  cases kind i with
  | command cmd =>
    rw [encode_command c cmd]
    exact decode_encodeCommand c cmd wf
  | reg ag dir v r =>
    obtain ⟨v', encoded, same⟩ := encode_regInstr c ag dir v r
    rw [encoded, ← same]
    exact decodeAccess_regAddr ag dir v' legal r
  | bufR ag b k =>
    exact (decodeAccess_bufWordAddr ag .read 0 legal b k).trans (congrArg _ (bufInstr_wordOffset ag 0 b k).1)
  | bufW ag b k v =>
    exact (decodeAccess_bufWordAddr ag .write v legal b k).trans (congrArg _ (bufInstr_wordOffset ag v b k).2)
  | event ev =>
    rw [encode_event c ev]
    exact if_pos ev

/-- Settles O5: off the grounds of R142 the access is of one of the nine registers or of a buffer word. -/
theorem malformedAccessesHaveNoStep : Obligations.MalformedAccessesHaveNoStep := by
  intro c ag dir width addr v legal
  refine ⟨fun ⟨e, rejected⟩ => ?_, decodeAccess_error ag dir v⟩
  by_contra good
  obtain ⟨rfl, aligned, inWindow⟩ : width = 32 ∧ addr % 4 = 0 ∧
      ((c.regBase ≤ addr ∧ addr < c.regBase + 0x24) ∨ (c.bufBase ≤ addr ∧ addr < c.bufBase + 512)) := by tauto
  obtain ⟨regAligned, bufAligned, -⟩ := windows_of_legal legal
  rcases inWindow with ⟨above, below⟩ | ⟨above, below⟩
  · obtain ⟨o, rfl⟩ := Nat.exists_eq_add_of_le above
    obtain ⟨r, rfl⟩ := exists_offset_eq (o := o) (by omega) (by omega)
    cases (decodeAccess_regAddr ag dir v legal r).symm.trans rejected
  · obtain ⟨o, rfl⟩ := Nat.exists_eq_add_of_le above
    cases (decodeAccess_bufOffset ag dir v legal (o := o) (by omega) (by omega)).symm.trans rejected

end Sys2Proof
end

section
/-! The four shapes of a meaning: a command issues, an access accesses, an event steps or is not enabled (R12, R97, R142). -/

namespace Sys2Proof.Machine

/-- Every command is issued: its rule runs where the port may issue, and nothing happens elsewhere (R97). -/
theorem exec_command {p : Nat} {i : Instr} (cmd : CommandOf p i) : ∃ rule, ∀ s, exec i s = issue p i rule s := by
  cases cmd with
  | bind ch => exact ⟨acceptBind p ch, fun _ => rfl⟩
  | send ch m => exact ⟨acceptSend p ch m, fun _ => rfl⟩
  | receiveNb ch => exact ⟨acceptReceiveNb p ch, fun _ => rfl⟩
  | receiveB ch t => exact ⟨acceptReceiveB p ch t, fun _ => rfl⟩
  | pollReady ch => exact ⟨fun s => respond p .ok (pollBit ch s) none s, fun _ => rfl⟩
  | registerListener ch => exact ⟨acceptRegisterListener p ch, fun _ => rfl⟩
  | cancel ch => exact ⟨acceptCancel p ch, fun _ => rfl⟩
  | illegal w payload => exact ⟨raise p .illegalCommand, fun _ => rfl⟩

theorem exec_regRead (ag : Issuer) (v : Word) (r : Reg) (s : State) :
    exec (regInstr ag .read v r) s = access ag (fun s => (regRead ag r s).2) s := by
  cases r <;> rfl

theorem exec_regWrite (ag : Issuer) (v : Word) (r : Reg) (s : State) :
    exec (regInstr ag .write v r) s = access ag (regWrite ag r v) s := by
  cases r <;> rfl

theorem issuerAgent_inj {ag ag' : Issuer} (h : issuerAgent ag = issuerAgent ag') : ag = ag' := by
  cases ag <;> cases ag' <;> first | rfl | cases h

theorem access_stop {ag : Issuer} {effect : State → State} {s : State} (h : ¬ mayAccess ag s) :
    access ag effect s = .fault .peerStuck := by
  simp only [mayAccess, Classical.not_imp, Bool.not_eq_false] at h
  simp [access, h]

/-- An access of either window either has its effect or finds its master stuck (R142). -/
theorem exec_access {ag : Issuer} {i : Instr} (agent : agentOf i = issuerAgent ag) (noEvent : i.isEvent = false) :
    ∃ effect, ∀ s, exec i s = access ag effect s := by
  cases kind i with
  | command cmd => exact absurd (agent.symm.trans cmd.isCommandOf.1) (issuerAgent_ne_port ag _)
  | reg ag' dir v r =>
    obtain rfl := issuerAgent_inj ((agentOf_regInstr ag' dir v r).symm.trans agent)
    cases dir with
    | read => exact ⟨_, exec_regRead ag' v r⟩
    | write => exact ⟨_, exec_regWrite ag' v r⟩
  | bufR ag' b k =>
    obtain rfl := issuerAgent_inj agent
    exact ⟨fun s => (bufRead ag' b k s).2, fun _ => rfl⟩
  | bufW ag' b k v =>
    obtain rfl := issuerAgent_inj agent
    exact ⟨bufWrite ag' b k v, fun _ => rfl⟩
  | event ev => exact absurd (ev.symm.trans noEvent) (by decide)

/-- An event has a step or is not enabled; there is no third outcome (R12). -/
theorem exec_event {i : Instr} (ev : i.isEvent = true) (s : State) :
    (∃ t, exec i s = .next t) ∨ exec i s = .fault .notEnabled := by
  have guarded {c : Prop} [Decidable c] (t : State) :
      (∃ u, (if c then .next t else .fault .notEnabled : Result) = .next u) ∨
        (if c then .next t else .fault .notEnabled : Result) = .fault .notEnabled := by
    split
    · exact .inl ⟨t, rfl⟩
    · exact .inr rfl
  cases i with
  | dmxStart | dmxSpurious | txGrant | txTimeout | sync => exact guarded _
  | tick | reset => exact .inl ⟨_, rfl⟩
  | dmxClear => simp only [exec, execDmxClear]; split <;> first | exact .inl ⟨_, rfl⟩ | exact .inr rfl
  | dmxTxack => simp only [exec, execDmxTxack]; split <;> first | exact guarded _ | exact .inr rfl
  | dmxRxDispatch => simp only [exec, execDmxRxDispatch]; split <;> first | exact guarded _ | exact .inr rfl
  | dmxTxackUnbound =>
    simp only [exec, execDmxTxackUnbound]; (repeat' split) <;> first | exact .inl ⟨_, rfl⟩ | exact .inr rfl
  | dmxRxUnbound =>
    simp only [exec, execDmxRxUnbound]; (repeat' split) <;> first | exact .inl ⟨_, rfl⟩ | exact .inr rfl
  | dmxRxRead => simp only [exec, execDmxRxRead]; split <;> first | exact .inl ⟨_, rfl⟩ | exact .inr rfl
  | dmxRxCommit => simp only [exec, execDmxRxCommit]; split <;> first | exact .inl ⟨_, rfl⟩ | exact .inr rfl
  | dmxRearm => simp only [exec, execDmxRearm]; split <;> first | exact .inl ⟨_, rfl⟩ | exact .inr rfl
  | txWrite => simp only [exec, execTxWrite]; (repeat' split) <;> first | exact .inl ⟨_, rfl⟩ | exact .inr rfl
  | txSet => simp only [exec, execTxSet]; (repeat' split) <;> first | exact .inl ⟨_, rfl⟩ | exact .inr rfl
  | waitConsume p => simp only [exec, execWaitConsume]; split <;> first | exact guarded _ | exact .inr rfl
  | waitTimeout p => simp only [exec, execWaitTimeout]; split <;> first | exact guarded _ | exact .inr rfl
  | init => simp only [exec, execInit]; split <;> first | exact .inl ⟨_, rfl⟩ | exact .inr rfl
  | _ => cases ev

end Sys2Proof.Machine
end

section
/-! Events that are not enabled, and one equation for each event of the send side, the ports and the copy (R162, R163, R192
to R195, R223, R225, R342). -/

namespace Sys2Proof.Machine

/-- An event that cannot step is not enabled. -/
theorem exec_event_of_no_next {i : Instr} {s : State} (ev : i.isEvent = true) (no : ∀ t, exec i s ≠ .next t) :
    exec i s = .fault .notEnabled :=
  (exec_event ev s).resolve_left fun ⟨t, next⟩ => no t next

section
variable {s : State}

theorem exec_dmxRxCommit_eq {r : RxCh} (state : s.dmxState = .rxCommit) (idx : s.dmxIdx.val = r.val) :
    exec .dmxRxCommit s =
      .next { s.setRx r { s.rx[r] with buf := msgOf s.dmxWords, ready := true } with dmxState := .rearm } := by
  simp only [exec, execDmxRxCommit, state, rangeSplit_rx r _ idx]

theorem exec_dmxRearm_eq {r : RxCh} (state : s.dmxState = .rearm) (idx : s.dmxIdx.val = r.val) :
    exec .dmxRearm s = .next (leaveInvocation (regWrite .demux .c2dSet (pmask (chRx r)) s)) := by
  simp only [exec, execDmxRearm, state, rangeSplit_rx r _ idx]

theorem exec_txGrant_eq {c : TxCh} (free : s.txGrant = none) (sends : s.tx[c].state = .sending)
    (fresh : s.tx[c].word = 0) : exec (.txGrant c) s = .next { s with txGrant := some c } :=
  if_pos ⟨free, sends, fresh⟩

theorem exec_txSet_eq {c : TxCh} (granted : s.txGrant = some c) (whole : s.tx[c].word = 8) :
    exec .txSet s = .next { s with
      c2dStat := s.c2dStat ||| pmask (chTx c)
      tx := s.tx.set c.val { s.tx[c] with state := .waitAck, elapsed := 0, word := 0 } c.isLt
      txGrant := none
      history := s.history ++ [.mmio .txeng .write (s.cfg.regBase + 0x04) (pmask (chTx c))] } := by
  simp only [exec, execTxSet, granted]
  rw [if_pos whole]
  rfl

theorem exec_txTimeout_eq {c : TxCh} (waits : s.tx[c].state = .waitAck) (due : s.cfg.tSendTimeout ≤ s.tx[c].elapsed) :
    exec (.txTimeout c) s = .next (completeSend c .sendTimeout s) := if_pos ⟨waits, due⟩

/-- A waiting port has the step WAIT_TIMEOUT exactly when its bound is not 0 and has passed. -/
theorem exec_waitTimeout_of_waiting {p b : Nat} {x : Port} {r : RxCh} (port : s.ports[p]? = some x)
    (waits : x.state = .waiting r b) :
    exec (.waitTimeout p) s =
      if b ≠ 0 ∧ b ≤ x.elapsed then .next (respond p .recvTimeout false none s) else .fault .notEnabled := by
  obtain ⟨state, elapsed⟩ := x
  subst waits
  simp only [exec, execWaitTimeout, port]

theorem exec_init_eq (fresh : s.initDone = false) :
    exec .init s = .next { regWrite .init .d2cEn 0xFFFFFFFF s with initDone := true } :=
  if_neg (Bool.eq_false_iff.1 fresh)

end

/-! ## The send side -/

/-- Settles O39: R192's guard, and no step without it. -/
theorem grantGoesToOneSendingChannel : Obligations.GrantGoesToOneSendingChannel := by
  intro s c
  refine ⟨exec_txGrant_eq, fun blocked => exec_event_of_no_next rfl fun t next => ?_⟩
  obtain ⟨free, sends, -⟩ := next_txGrant next
  exact blocked.elim (· free) (· sends)

/-- Settles O41: with all eight words written TX_SET is enabled; a step needs them. -/
theorem txSetNotifiesAfterTheWholePayload : Obligations.TxSetNotifiesAfterTheWholePayload := by
  intro s c granted
  refine ⟨exec_txSet_eq granted, fun short => exec_event_of_no_next rfl fun t next => ?_⟩
  obtain ⟨d, granted', whole, -⟩ := next_txSet next
  obtain rfl : c = d := Option.some.inj (granted.symm.trans granted')
  exact short whole

/-- Settles O42: R195's guard, and no step without it. -/
theorem sendTimeoutAfterTheBoundAndNotEarlier : Obligations.SendTimeoutAfterTheBoundAndNotEarlier := by
  intro s c
  refine ⟨exec_txTimeout_eq, fun early => exec_event_of_no_next rfl fun t next => ?_⟩
  obtain ⟨waits, due, -⟩ := next_txTimeout next
  exact early.elim (· waits) (Nat.not_lt.2 due)

/-! ## Waits and initialisation -/

/-- Settles O45: R225's guard, and no step without it. -/
theorem boundedWaitRunsOut : Obligations.BoundedWaitRunsOut := by
  intro s p x r b port waits
  rw [exec_waitTimeout_of_waiting port waits]
  constructor
  · intro bounded due
    rw [if_pos ⟨bounded, due⟩, respond_eq]
  · intro early
    exact if_neg fun ⟨bounded, due⟩ => early.elim bounded (Nat.not_lt.2 due)

/-- Settles O48: INIT is enabled before it was taken, and only then. -/
theorem initEnablesEveryPosition : Obligations.InitEnablesEveryPosition := by
  intro s
  exact ⟨exec_init_eq, fun done => if_pos done⟩

/-! ## The copy and the re-arm -/

/-- Byte `j` of a word by its bits. -/
theorem leByte_eq_extract (w : Word) {j : Nat} (h : j < 4) : leByte w ⟨j, h⟩ = w.extractLsb' (8 * j) 8 := rfl

/-- Settles O35: the commit writes `msg_of` of the staging words, whose bytes are theirs. -/
theorem rxCommitWritesMessageAndFlag : Obligations.RxCommitWritesMessageAndFlag := by
  intro s r state idx
  refine ⟨msgOf s.dmxWords, exec_dmxRxCommit_eq state idx, fun k j h => ?_⟩
  calc (msgOf s.dmxWords)[4 * k.val + j] = leByte (wordOf (msgOf s.dmxWords) k) ⟨j, h⟩ := (leByte_wordOf _ k ⟨j, h⟩).symm
    _ = s.dmxWords[k].extractLsb' (8 * j) 8 := by rw [wordOf_msgOf, leByte_eq_extract]

/-- Settles O36: the re-arm is a C2D_SET write of the pair at `r + 8`, and the return. -/
theorem rearmSetsTheMirroredPosition : Obligations.RearmSetsTheMirroredPosition := by
  intro s r state idx
  rw [exec_dmxRearm_eq state idx, regWrite_c2dSet]
  rfl
end Sys2Proof.Machine
end

section
/-! The bytes of a buffer word (R64, R140, R141). -/

namespace Sys2Proof.Machine

/-- The word read at an address holds the byte read at each of its four addresses. -/
theorem extract_readWord (s : State) (a : Nat) {j : Nat} (h : j < 4) :
    (readWord s a).extractLsb' (8 * j) 8 = readByte s (a + j) := by
  obtain ⟨b0, b1, b2, b3⟩ := leByte_readWord s a
  match j, h with
  | 0, _ => exact b0
  | 1, _ => exact b1
  | 2, _ => exact b2
  | 3, _ => exact b3

section
variable {s t : State} {a : Nat} {v : Word} (stored : t.mem = Memory.writeWord s.mem a v)
  (drawn : t.resetCount = s.resetCount)
include stored

/-- A byte of a stored word reads as that byte of the word. -/
theorem readByte_inside_writeWord {j : Nat} (h : j < 4) : readByte t (a + j) = v.extractLsb' (8 * j) 8 := by
  rw [readByte, stored, Memory.find_writeWord]
  match j, h with
  | 0, _ => simp [leByte]
  | 1, _ => simp [leByte]
  | 2, _ => simp [leByte]
  | 3, _ => simp [leByte]

include drawn

theorem readByte_outside_writeWord {b : Nat} (outside : ¬ (a ≤ b ∧ b < a + 4)) : readByte t b = readByte s b := by
  rw [readByte, stored, drawn, Memory.find_writeWord, if_neg (by omega), if_neg (by omega), if_neg (by omega),
    if_neg (by omega), readByte]

end

/-- Settles O16: the word read holds the byte at each of its four addresses. -/
theorem bufferReadReturnsTheWord : Obligations.BufferReadReturnsTheWord := by
  intro ag i k s may
  exact ⟨readWord s (wordAddr s i.val k.val), exec_bufR may, fun j h => extract_readWord s _ h⟩

/-- Settles O17: BUF.W stores one word. -/
theorem bufferWriteStoresFourBytes : Obligations.BufferWriteStoresFourBytes := by
  intro ag i k v s may
  have stored : (bufWrite ag i k v s).mem = Memory.writeWord s.mem (wordAddr s i.val k.val) v := rfl
  exact ⟨_, exec_bufW may, rfl, fun j h => readByte_inside_writeWord stored h,
    fun a outside => readByte_outside_writeWord stored rfl outside⟩

/-- Settles O40: TX_WRITE stores the word of the next four payload bytes. -/
theorem txWriteStoresTheNextPayloadWord : Obligations.TxWriteStoresTheNextPayloadWord := by
  intro s c k granted next
  refine ⟨_, wordOf s.tx[c].payload k, exec_txWrite_eq s c s.tx[c] k granted rfl next, rfl, fun j h => ?_,
    fun a outside => ?_⟩
  case refine_2 => exact readByte_outside_writeWord (v := wordOf s.tx[c].payload k) (by rfl) (by rfl) outside
  have byte : (wordOf s.tx[c].payload k).extractLsb' (8 * j) 8 = s.tx[c].payload[4 * k.val + j] :=
    leByte_wordOf s.tx[c].payload k ⟨j, h⟩
  exact ⟨byte, (readByte_inside_writeWord rfl h).trans byte⟩

/-- Settles O34: the word staged is the word read. -/
theorem rxReadStagesTheNextWord : Obligations.RxReadStagesTheNextWord := by
  intro s r k state idx
  refine ⟨_, readWord s (wordAddr s (r.val + 8) k.val), exec_dmxRxRead_eq s r k state idx, rfl,
    fun j h => extract_readWord s _ h, fun more => dif_pos more, fun last => dif_neg ?_⟩
  omega
end Sys2Proof.Machine
end

section
/-! The set writes, the clear writes and their runs (R123, R125, R129 to R131, R156), in both banks at once. -/

namespace Sys2Proof.Machine

/-- Settles O13: a set write ORs its data into its bank's status. -/
theorem setWritesOrIntoStatus : Obligations.SetWritesOrIntoStatus := by
  intro ag v s may
  exact ⟨(exec_c2dSetW may).trans (congrArg Host.Outcome.next (regWrite_c2dSet ag v s)),
    (exec_d2cSetW may).trans (congrArg Host.Outcome.next (regWrite_d2cSet ag v s))⟩

/-- The clear register of a bank (R120). -/
def clrReg : Bank → Reg
  | .c2d => .c2dClr
  | .d2c => .d2cClr

/-- The status register of a bank. -/
def bankStat (b : Bank) (s : State) : Word :=
  match b with
  | .c2d => s.c2dStat
  | .d2c => s.d2cStat

/-- The state after `n` clear writes of a bank that left its status at `w`, the last with draws `d`. -/
def afterClears (b : Bank) (ag : Issuer) (v w : Word) (d : Draws) (n : Nat) (s : State) : State :=
  match b with
  | .c2d => { s with
      c2dStat := w
      draws := d
      history := s.history ++ List.replicate n (regWriteRecord ag 0x08 v s) }
  | .d2c => { s with
      d2cStat := w
      draws := d
      history := s.history ++ List.replicate n (regWriteRecord ag 0x18 v s) }

section
variable (b : Bank) {ag : Issuer} {v : Word} {s : State}

/-- One clear write, with its draws. -/
theorem exec_clear (d : Draws) (may : mayAccess ag s) :
    exec (regInstr ag .write v (clrReg b)) { s with draws := d } =
      .next (afterClears b ag v
        (if clearTakes ag (clrReg b) v { s with draws := d } then bankStat b s &&& ~~~v else bankStat b s) d 1 s) := by
  rw [exec_regWrite, access_ok (s := { s with draws := d }) may]
  cases b with
  | c2d => exact congrArg Host.Outcome.next (regWrite_c2dClr ag v _)
  | d2c => exact congrArg Host.Outcome.next (regWrite_d2cClr ag v _)

theorem clear_takes (takes : takesByLaw ag (clrReg b).offset v s) (may : mayAccess ag s) :
    exec (regInstr ag .write v (clrReg b)) s = .next (afterClears b ag v (bankStat b s &&& ~~~v) s.draws 1 s) := by
  rw [← clearTakes_iff] at takes
  exact (exec_clear b s.draws may).trans (by rw [if_pos takes])

theorem clear_does_not_take (fails : ¬ takesByLaw ag (clrReg b).offset v s) (may : mayAccess ag s) :
    exec (regInstr ag .write v (clrReg b)) s = .next (afterClears b ag v (bankStat b s) s.draws 1 s) := by
  rw [← clearTakes_iff] at fails
  exact (exec_clear b s.draws may).trans (by rw [if_neg fails])

/-- The last of three equal writes takes (R131). -/
theorem takesByLaw_of_run {k : Nat} (o : Nat) (two : 2 ≤ k)
    (run : List.replicate k (regWriteRecord ag o v s) <:+ regAccesses s.cfg ag s.history) : takesByLaw ag o v s := by
  obtain ⟨n, rfl⟩ := Nat.exists_eq_add_of_le' two
  refine .inr (List.IsSuffix.trans ?_ run)
  rw [List.replicate_add]
  exact List.suffix_append _ _

/-- A clear write lengthens the run that it belongs to. -/
theorem run_afterClears {k : Nat} (w : Word) (d : Draws)
    (run : List.replicate k (regWriteRecord ag (clrReg b).offset v s) <:+ regAccesses s.cfg ag s.history) :
    List.replicate (k + 1) (regWriteRecord ag (clrReg b).offset v (afterClears b ag v w d 1 s)) <:+
      regAccesses (afterClears b ag v w d 1 s).cfg ag (afterClears b ag v w d 1 s).history := by
  have own : regAccesses s.cfg ag [regWriteRecord ag (clrReg b).offset v s] =
      [regWriteRecord ag (clrReg b).offset v s] := by
    simp [regAccesses, isRegAccess, regWriteRecord, inRegWindow_offset s.cfg (offset_lt _).1]
  have longer : List.replicate (k + 1) (regWriteRecord ag (clrReg b).offset v s) <:+
      regAccesses s.cfg ag (s.history ++ [regWriteRecord ag (clrReg b).offset v s]) := by
    rw [regAccesses_append, own, List.replicate_succ']
    exact List.suffix_append_self_iff.2 run
  cases b <;> exact longer

theorem bankStat_afterClears (w : Word) (d : Draws) (n : Nat) : bankStat b (afterClears b ag v w d n s) = w := by
  cases b <;> rfl

theorem may_afterClears {w : Word} {d : Draws} {n : Nat} (may : mayAccess ag s) :
    mayAccess ag (afterClears b ag v w d n s) := by
  cases b <;> exact may

theorem afterClears_afterClears (w w' : Word) (d d' : Draws) (n : Nat) :
    afterClears b ag v w' d' n (afterClears b ag v w d 1 s) = afterClears b ag v w' d' (n + 1) s := by
  cases b <;> simp [afterClears, regWriteRecord, List.replicate_succ]

/-- Equal clear writes in a row, after `k` of the same run: each leaves the run's bits as they were or clears them, and the
third of the run clears them. -/
theorem runWith_clears {k : Nat} (ds : List Draws) (d : Draws) (may : mayAccess ag s)
    (run : List.replicate k (regWriteRecord ag (clrReg b).offset v s) <:+ regAccesses s.cfg ag s.history) :
    ∃ w, runWith ((ds ++ [d]).map fun x => (regInstr ag .write v (clrReg b), x)) s =
        .next (afterClears b ag v w d (ds.length + 1) s) ∧
      (w = bankStat b s ∨ w = bankStat b s &&& ~~~v) ∧ (2 ≤ k + ds.length → w = bankStat b s &&& ~~~v) := by
  induction ds generalizing s k with
  | nil =>
    refine ⟨_, runWith_cons [] (exec_clear b d may), ?_, fun two => if_pos ?_⟩
    · exact (ite_eq_or_eq ..).symm
    · exact (clearTakes_iff ..).2 (takesByLaw_of_run _ two run)
  | cons d0 ds ih =>
    obtain ⟨w1, first, was⟩ : ∃ w1, exec (regInstr ag .write v (clrReg b)) { s with draws := d0 } =
        .next (afterClears b ag v w1 d0 1 s) ∧ (w1 = bankStat b s ∨ w1 = bankStat b s &&& ~~~v) :=
      ⟨_, exec_clear b d0 may, (ite_eq_or_eq ..).symm⟩
    obtain ⟨w, rest, cleared, last⟩ := ih (may_afterClears b may) (run_afterClears b w1 d0 run)
    rw [bankStat_afterClears] at cleared last
    have idem : bankStat b s &&& ~~~v &&& ~~~v = bankStat b s &&& ~~~v := by rw [BitVec.and_assoc, BitVec.and_self]
    refine ⟨w, ?_, ?_, fun two => ?_⟩
    · exact (runWith_cons _ first).trans (rest.trans (congrArg Host.Outcome.next (afterClears_afterClears ..)))
    · rcases was with rfl | rfl
      · exact cleared
      · rw [idem, or_self] at cleared
        exact .inr cleared
    · rw [last (by simp only [List.length_cons] at two; omega)]
      rcases was with rfl | rfl
      · rfl
      · exact idem

end

/-- Settles O14: a clear write follows the law of R131, in each bank. -/
theorem clearWritesFollowTheDrawAndTheRun : Obligations.ClearWritesFollowTheDrawAndTheRun := by
  intro ag v s may
  exact ⟨fun takes => clear_takes .c2d takes may, fun fails => clear_does_not_take .c2d fails may,
    fun takes => clear_takes .d2c takes may, fun fails => clear_does_not_take .d2c fails may⟩

/-- A bit of a word of a run: outside the data it is the latch's, and none rises. -/
theorem bits_of_cleared {w x v : Word} (cleared : w = x ∨ w = x &&& ~~~v) (n : Nat) :
    (v.getLsbD n = false → w.getLsbD n = x.getLsbD n) ∧ (w.getLsbD n = true → x.getLsbD n = true) := by
  rcases cleared with rfl | rfl
  · exact ⟨fun _ => rfl, id⟩
  · simp only [BitVec.getLsbD_and, BitVec.getLsbD_not, Bool.and_eq_true]
    refine ⟨fun outside => ?_, And.left⟩
    rcases Nat.lt_or_ge n 32 with inWord | beyond
    · simp only [inWord, outside, decide_true, Bool.not_false, Bool.and_true]
    · simp [BitVec.getLsbD_of_ge x n beyond]

/-- Settles O15: three writes are two before a last one, and a run of three takes; fewer leave or clear each bit. -/
theorem completeClearRunDeassertsTheLatch : Obligations.CompleteClearRunDeassertsTheLatch := by
  intro ag v s may
  have writes (b : Bank) := fun ds d => runWith_clears b (v := v) (k := 0) ds d may (List.nil_suffix)
  have three (b : Bank) (d1 d2 d3 : Draws) :
      runWith ([d1, d2, d3].map fun x => (regInstr ag .write v (clrReg b), x)) s =
        .next (afterClears b ag v (bankStat b s &&& ~~~v) d3 3 s) := by
    obtain ⟨w, run, -, last⟩ := writes b [d1, d2] d3
    exact last (Nat.le_refl 2) ▸ run
  have fewer (b : Bank) (ds : List Draws) (d : Draws) :
      ∃ w, runWith ((ds ++ [d]).map fun x => (regInstr ag .write v (clrReg b), x)) s =
          .next (afterClears b ag v w d (ds.length + 1) s) ∧
        ∀ n : Nat, (v.getLsbD n = false → w.getLsbD n = (bankStat b s).getLsbD n) ∧
          (w.getLsbD n = true → (bankStat b s).getLsbD n = true) := by
    obtain ⟨w, run, cleared, -⟩ := writes b ds d
    exact ⟨w, run, bits_of_cleared cleared⟩
  exact ⟨fun d1 d2 d3 => ⟨three .d2c d1 d2 d3, three .c2d d1 d2 d3⟩, fun ds d _ => ⟨fewer .d2c ds d, fewer .c2d ds d⟩⟩

/-! ## DMX_CLEAR -/

/-- Settles O28: DMX_CLEAR is a D2C_CLR write of the mask, and moves to the next of the three or to DISPATCH. -/
theorem dmxClearWritesTheMask : Obligations.DmxClearWritesTheMask := by
  intro s n state
  refine ⟨_, exec_dmxClear_eq s n state, rfl, fun zero => ?_, fun one => ?_, fun two => ?_, fun takes => if_pos ?_,
    fun fails => if_neg ?_⟩
  · obtain rfl : n = 0 := Fin.ext zero
    rfl
  · obtain rfl : n = 1 := Fin.ext one
    rfl
  · obtain rfl : n = 2 := Fin.ext two
    rfl
  · exact (clearTakes_iff ..).2 takes
  · exact fun takes => fails ((clearTakes_iff ..).1 takes)

/-- Settles O29: in CLEARING(2) two writes of the mask stand in the history, so the third takes whatever is drawn. -/
theorem thirdClearWriteAlwaysTakes : Obligations.ThirdClearWriteAlwaysTakes := by
  intro s run state
  have takes : clearTakes .demux .d2cClr s.dmxMask s = true :=
    (clearTakes_iff ..).2 (takesByLaw_of_run 0x18 (Nat.le_refl 2) (run 2 state))
  refine ⟨_, exec_dmxClear_eq s 2 state, rfl, if_pos takes, ?_⟩
  show (if clearTakes .demux .d2cClr s.dmxMask s = true then _ else _) &&& s.dmxMask = 0
  rw [if_pos takes, BitVec.and_assoc, BitVec.not_and_self]
  exact BitVec.and_zero

end Sys2Proof.Machine
end

section
/-! The buffers apart (R144), the step of a slot (R12, R97, R142), and the state after RESET (R340). -/

namespace Sys2Proof.Machine

theorem lookup_some {c : Config} {ch : Nat} {e : ChanRecord} (found : lookup c ch = some e) :
    ch < 16 ∧ e.buffer = c.bufBase + 32 * ch := by
  rcases Nat.lt_or_ge ch 8 with tx | notTx
  · rw [lookup_tx c tx] at found
    cases found
    exact ⟨by omega, rfl⟩
  rcases Nat.lt_or_ge ch 16 with rx | outside
  · rw [lookup_rx c notTx rx] at found
    cases found
    exact ⟨rx, rfl⟩
  · rw [lookup_eq_none c outside] at found
    cases found

/-- Settles O8: buffers are 32 bytes each, in the order of their channels, within the window that R6 keeps apart. -/
theorem buffersAreDisjoint : Obligations.BuffersAreDisjoint := by
  intro c i j e f a legal atI atJ above below
  obtain ⟨-, -, apart⟩ := windows_of_legal legal
  obtain ⟨iLt, eBuffer⟩ := lookup_some atI
  obtain ⟨jLt, fBuffer⟩ := lookup_some atJ
  omega

/-! ## The step of a slot -/

section
variable {s : State} (legal : configLegal s.cfg = true)
include legal

theorem step_of_decode {i : Instr} (decoded : decode s.cfg (nextSlot s).proposal = .ok i) :
    step s = if standsAlone i then passOver (exec i (takeSlot s)) (takeSlot s) else .next (takeSlot s) := by
  rw [step, stepOn, if_pos legal, decoded]
  rfl

theorem step_of_reject {e : Reject} (rejected : decode s.cfg (nextSlot s).proposal = .error e) :
    step s = .next (rejectProposal (nextSlot s).proposal (takeSlot s)) := by
  rw [step, stepOn, if_pos legal, rejected]
  rfl

end

/-- A proposal that is not the peer's access is passed over when it is rejected. -/
theorem rejectProposal_of_not_peer {pr : Proposal} (s : State)
    (notPeer : ∀ dir width addr data, pr ≠ .access .peer dir width addr data) : rejectProposal pr s = s := by
  cases pr with
  | command | event => rfl
  | access ag dir width addr data =>
    cases ag with
    | peer => exact absurd rfl (notPeer dir width addr data)
    | demux | txeng | init => rfl

theorem exec_access_of_stuck {i : Instr} {s : State} (agent : agentOf i = .peer) (noEvent : i.isEvent = false)
    (stuck : s.peerStuck = true) : exec i s = .fault .peerStuck := by
  obtain ⟨effect, access⟩ := exec_access (ag := .peer) agent noEvent
  rw [access, access_stop fun may => by simp [may rfl] at stuck]

/-- No event is the peer's (R20). -/
theorem isEvent_of_peer {i : Instr} (agent : agentOf i = .peer) : i.isEvent = false := by
  cases i <;> first | rfl | cases agent

/-- Settles O6: R142's rejection leaves the peer stuck, and a stuck peer may access nothing. -/
theorem peerWithoutAStepIsStuck : Obligations.PeerWithoutAStepIsStuck := by
  constructor
  · intro s dir width addr data e legal proposed rejected
    rw [step_of_reject (e := e) legal (by rw [proposed]; exact rejected), proposed]
    rfl
  · intro s i agent stuck
    exact exec_access_of_stuck agent (isEvent_of_peer agent) stuck

theorem exec_command_of_not_mayIssue {p : Nat} {i : Instr} {s : State} (cmd : CommandOf p i) (no : ¬ mayIssue p s) :
    exec i s = .fault .cannotIssue := by
  obtain ⟨rule, issued⟩ := exec_command cmd
  rw [issued, issue_stop no]

/-- A decoded command word is a command of the port that issues it, and a step of its own. -/
theorem commandOf_decodeCommand (p : Nat) (w : Word) (m : Msg) : CommandOf p (decodeCommand p w m) := by
  have spelled := spells_decodeCommand p w m
  generalize decodeCommand p w m = i at spelled
  cases spelled with
  | bind => exact .bind _
  | send => exact .send _ _
  | receiveNb => exact .receiveNb _
  | receiveB => exact .receiveB _ _
  | pollReady => exact .pollReady _
  | registerListener => exact .registerListener _
  | cancel => exact .cancel _
  | illegal => exact .illegal _ _

theorem standsAlone_command {p : Nat} {i : Instr} (cmd : CommandOf p i) : standsAlone i = true := by
  cases cmd <;> rfl

/-- Settles O26: a port that may not issue meets R97's fault, which the machine passes over. -/
theorem commandsNeedAFreePort : Obligations.CommandsNeedAFreePort := by
  constructor
  · intro p i s cmd no
    exact exec_command_of_not_mayIssue (isCommandOf_iff.1 cmd) no
  · intro p w m s legal proposed no
    have cmd := commandOf_decodeCommand p w m
    have fault : exec (decodeCommand p w m) (takeSlot s) = .fault .cannotIssue := exec_command_of_not_mayIssue cmd no
    rw [step_of_decode (i := decodeCommand p w m) legal (by rw [proposed]; rfl), standsAlone_command cmd, fault]
    rfl

theorem standsAlone_eq_false_iff (i : Instr) :
    standsAlone i = false ↔ i.isEvent = false ∧ (agentOf i = .demux ∨ agentOf i = .txeng ∨ agentOf i = .init) := by
  rw [standsAlone, Bool.or_eq_false_iff]
  cases agentOf i <;> simp

/-- Settles O59: `step` is `stepOn` of the next slot, whose three ways are the clauses. -/
theorem stepRunsTheDecodedInstruction : Obligations.StepRunsTheDecodedInstruction := by
  intro s i
  refine ⟨fun legal decoded alone => ?_, fun legal decoded part => ?_, fun legal rejected notPeer => ?_,
    standsAlone_eq_false_iff i, fun sl rest agenda => ?_, fun illegal => ?_⟩
  · rw [step_of_decode legal decoded, alone]
    exact ⟨fun t next => congrArg (passOver · (takeSlot s)) next, fun f fault => congrArg (passOver · (takeSlot s)) fault⟩
  · rw [step_of_decode legal decoded, part]
    rfl
  · obtain ⟨e, rejected⟩ := rejected
    rw [step_of_reject legal rejected, rejectProposal_of_not_peer _ notPeer]
  · have first : nextSlot s = sl := by rw [nextSlot, agenda]
    refine ⟨first, ?_⟩
    rw [takeSlot, first, loadSlot, agenda, List.tail_cons]
  · exact if_neg (Bool.eq_false_iff.1 illegal)

/-! ## RESET -/

section
variable (c : Config)

theorem resetOf_bound (ch : Fin 16) : (State.resetOf c).bound[ch] = false := Vector.getElem_replicate ..

theorem resetOf_tx (ch : TxCh) : (State.resetOf c).tx[ch] = TxChan.atReset := Vector.getElem_replicate ..

theorem resetOf_rx (r : RxCh) : (State.resetOf c).rx[r] = RxChan.atReset c.numPorts := Vector.getElem_replicate ..

theorem resetOf_port {p : Nat} {x : Port} (h : (State.resetOf c).ports[p]? = some x) : x = Port.atReset :=
  List.eq_of_mem_replicate (List.mem_of_getElem? h)

theorem resetOf_isListener (r : RxCh) (q : Nat) : isListener (State.resetOf c) r q = false := by
  rw [Bool.eq_false_iff, Ne, isListener_iff, resetOf_rx]
  intro listed
  exact absurd (List.eq_of_mem_replicate (List.mem_of_getElem? listed)) (by decide)

end

/-- Settles O49: RESET leaves the reset state of its parameters, but for the environment's own fields. -/
theorem resetRestoresEveryItem : Obligations.ResetRestoresEveryItem := by
  intro s
  refine ⟨resetMailbox s, rfl, rfl, rfl, rfl, rfl, rfl, fun a => rfl, resetOf_bound s.cfg, fun c => ?_, rfl, fun r => ?_,
    rfl, rfl, rfl, rfl, fun k => Vector.getElem_replicate .., List.length_replicate, fun p x port => ?_, rfl, rfl, rfl⟩
  · have fresh : (resetMailbox s).tx[c] = TxChan.atReset := resetOf_tx s.cfg c
    rw [fresh]
    exact ⟨rfl, rfl, rfl, rfl, fun k => Vector.getElem_replicate ..⟩
  · have fresh : (resetMailbox s).rx[r] = RxChan.atReset s.cfg.numPorts := resetOf_rx s.cfg r
    rw [fresh]
    exact ⟨rfl, rfl, fun k => Vector.getElem_replicate .., resetOf_isListener s.cfg r⟩
  · rw [resetOf_port s.cfg port]
    exact ⟨rfl, rfl⟩

/-- At reset every channel is idle, every port free and the demultiplexer at rest, so that no invariant asks more than the
shape of the lists. -/
theorem inv_resetOf (c : Config) : Inv (State.resetOf c) where
  shape := ⟨List.length_replicate, fun r => by rw [resetOf_rx]; exact List.length_replicate⟩
  memory := ⟨List.Pairwise.nil, by simp [State.resetOf]⟩
  readySync := fun r up => by rw [resetOf_rx] at up; cases up
  grant := nofun
  word := fun ch sends => by rw [resetOf_tx] at sends; cases sends
  sendPort := by
    intro p ch
    rw [resetOf_tx]
    constructor
    · rintro ⟨x, port, pends⟩
      rw [resetOf_port c port] at pends
      cases pends
    · rintro ⟨busy, -⟩
      exact absurd rfl busy
  busyBound := fun ch busy => by rw [resetOf_tx] at busy; exact absurd rfl busy
  waitBound := fun p x r t port waits => by rw [resetOf_port c port] at waits; cases waits
  beforeInit := fun _ => ⟨rfl, rfl, rfl, rfl, rfl, rfl, rfl, rfl, rfl, rfl⟩
  ranges := by
    refine ⟨fun ch => ?_, fun p x port => ?_⟩
    · rw [resetOf_tx]
      exact ⟨Nat.zero_le _, Nat.zero_le _⟩
    · rw [resetOf_port c port]
      exact ⟨Nat.zero_le _, nofun⟩
  demux := ⟨fun running => absurd rfl running, by rintro (⟨k, h⟩ | h | h) <;> cases h⟩
  clearRun := nofun

/-- Settles O51: the legality of the parameters is not needed. -/
theorem resetHasTheInvariants : Obligations.ResetHasTheInvariants := fun c _ => inv_resetOf c

end Sys2Proof.Machine
end

section
/-! What a step can do, in one relation: `StepsTo s i t` gives for each instruction the states it can leave, each written out
over the state before it, with what held there. Every statement about all steps is a case split on it. -/

namespace Sys2Proof.Machine

/-- The steps of the machine from `s`: what held, the instruction, and the state after it. -/
inductive StepsTo (s : State) : Instr → State → Prop
  -- commands (R97): an answer at once, or one of the outcomes that change more than the port
  | answer {p i} (code : StatusCode) (ready : Bool) (cmd : CommandOf p i) (issues : mayIssue p s)
      (poll : ready = true → ∃ ch, i = .pollReady p ch) : StepsTo s i (answered p i code ready none s)
  | bind {p ch} (issues : mayIssue p s) (h : ch < 16) :
      StepsTo s (.bind p ch) { answered p (.bind p ch) .ok false none s with bound := s.bound.set ch true h }
  | send {p m} {c : TxCh} (issues : mayIssue p s) (bound : s.bound[c.val] = true) (idle : s.tx[c].state = .idle) :
      StepsTo s (.send p c.val m) { s with
        tx := s.tx.set c.val { state := .sending, port := p, payload := m, word := 0, elapsed := 0 } c.isLt
        ports := s.ports.modify p fun x => { x with state := .sendPending c }
        history := s.history ++ [cmdRecord p (.send p c.val m)] }
  | receive {p i} {r : RxCh} (issues : mayIssue p s)
      (cmd : i = .receiveNb p (r.val + 8) ∨ ∃ b, i = .receiveB p (r.val + 8) b) :
      StepsTo s i { answered p i .ok false (some s.rx[r].buf) s with
        rx := s.rx.set r.val { s.rx[r] with ready := false, readySync := false } r.isLt }
  | wait {p b} {r : RxCh} (issues : mayIssue p s) (bound : s.bound[r.val + 8] = true) :
      StepsTo s (.receiveB p (r.val + 8) b) { s with
        ports := s.ports.set p { state := .waiting r b, elapsed := 0 }
        history := s.history ++ [cmdRecord p (.receiveB p (r.val + 8) b)] }
  | registerListener {p} {r : RxCh} (issues : mayIssue p s) :
      StepsTo s (.registerListener p (r.val + 8)) { answered p (.registerListener p (r.val + 8)) .ok false none s with
        rx := s.rx.set r.val { s.rx[r] with listeners := s.rx[r].listeners.set p true } r.isLt }
  | cancel {p} {r : RxCh} (issues : mayIssue p s) :
      StepsTo s (.cancel p (r.val + 8)) { s with
        ports := (s.ports.mapIdx fun q x => if q < s.cfg.numPorts then endWait r x else x).set p Port.atReset
        history := s.history ++ ([cmdRecord p (.cancel p (r.val + 8))] ++
          ((List.range s.cfg.numPorts).filter (waitsOn s r)).map (fun q => respRecord q .cancelled false none) ++
          [respRecord p .ok false none]) }
  -- accesses (R121 to R141)
  | regRead {ag v} (r : Reg) (may : mayAccess ag s) :
      StepsTo s (regInstr ag .read v r) (regReadBy ag r.offset (regValue r s) s)
  | regWrite {ag v} (r : Reg) (may : mayAccess ag s) :
      StepsTo s (regInstr ag .write v r) { s with
        c2dEn := (regEffect ag r v s).c2dEn
        c2dStat := (regEffect ag r v s).c2dStat
        d2cEn := (regEffect ag r v s).d2cEn
        d2cStat := (regEffect ag r v s).d2cStat
        history := s.history ++ [regWriteRecord ag r.offset v s] }
  | bufRead {ag i k} (may : mayAccess ag s) :
      StepsTo s (.bufR ag i k) { s with
        history := s.history ++ [.mmio ag .read (wordAddr s i.val k.val) (readWord s (wordAddr s i.val k.val))] }
  | bufWrite {ag i k v} (may : mayAccess ag s) :
      StepsTo s (.bufW ag i k v) { s with
        mem := Memory.writeWord s.mem (bufWordAddr s.cfg i k) v
        history := s.history ++ [.mmio ag .write (wordAddr s i.val k.val) v] }
  -- the demultiplexer (R155 to R164)
  | dmxStart (init : s.initDone = true) (idle : s.dmxState = .idle) :
      StepsTo s .dmxStart { s with
        dmxValid := (prioEnc s.d2cStat).1
        dmxIdx := (prioEnc s.d2cStat).2
        dmxMask := if (prioEnc s.d2cStat).1 then pmask (prioEnc s.d2cStat).2 else 0
        dmxState := .clearing 0
        history := s.history ++ [.mmio .demux .read (s.cfg.regBase + 0x20) s.d2cStat] }
  | dmxClear {n} (state : s.dmxState = .clearing n) :
      StepsTo s .dmxClear { s with
        d2cStat := if clearTakes .demux .d2cClr s.dmxMask s then s.d2cStat &&& ~~~s.dmxMask else s.d2cStat
        dmxState := afterClear n
        history := s.history ++ [.mmio .demux .write (s.cfg.regBase + 0x18) s.dmxMask] }
  | dmxSpurious (state : s.dmxState = .dispatch) :
      StepsTo s .dmxSpurious { s with dmxState := .idle, history := s.history ++ [.report .spuriousInterrupt 0] }
  | dmxTxack {c : TxCh} (state : s.dmxState = .dispatch) (waits : s.tx[c].state = .waitAck) :
      StepsTo s .dmxTxack { s with
        ports := s.ports.set s.tx[c].port Port.atReset
        tx := s.tx.set c.val { s.tx[c] with state := .idle, elapsed := 0 } c.isLt
        dmxState := .idle
        history := s.history ++ [respRecord s.tx[c].port .ok false none] }
  | dmxTxackStale {c : TxCh} (state : s.dmxState = .dispatch) :
      StepsTo s .dmxTxack { s with dmxState := .idle, history := s.history ++ [.report .staleAck c.val] }
  | dmxTxackUnbound {c : TxCh} (state : s.dmxState = .dispatch) :
      StepsTo s .dmxTxackUnbound { s with dmxState := .idle, history := s.history ++ [.report .illegalTxChannel c.val] }
  | dmxRxDispatch {r : RxCh} (state : s.dmxState = .dispatch) (valid : s.dmxValid = true) (idx : s.dmxIdx.val = r.val)
      (bound : s.bound[r.val + 8] = true) : StepsTo s .dmxRxDispatch { s with dmxState := .rxCopy 0 }
  | dmxRxRead {k} {r : RxCh} (state : s.dmxState = .rxCopy k) (idx : s.dmxIdx.val = r.val) :
      StepsTo s .dmxRxRead { s with
        dmxWords := s.dmxWords.set k.val (readWord s (wordAddr s (r.val + 8) k.val)) k.isLt
        dmxState := afterRead k
        history := s.history ++
          [.mmio .demux .read (wordAddr s (r.val + 8) k.val) (readWord s (wordAddr s (r.val + 8) k.val))] }
  | dmxRxCommit {r : RxCh} (state : s.dmxState = .rxCommit) (idx : s.dmxIdx.val = r.val) :
      StepsTo s .dmxRxCommit { s with
        rx := s.rx.set r.val { s.rx[r] with buf := msgOf s.dmxWords, ready := true } r.isLt
        dmxState := .rearm }
  | dmxRearm {r : RxCh} (state : s.dmxState = .rearm) (idx : s.dmxIdx.val = r.val) :
      StepsTo s .dmxRearm { s with
        c2dStat := s.c2dStat ||| pmask (chRx r)
        dmxState := .idle
        history := s.history ++ [.mmio .demux .write (s.cfg.regBase + 0x04) (pmask (chRx r))] }
  | dmxRxUnbound {r : RxCh} (state : s.dmxState = .dispatch) :
      StepsTo s .dmxRxUnbound { s with
        dmxState := .idle
        history := s.history ++ [.report .illegalRxChannel (r.val + 8)] }
  -- the send side (R192 to R195)
  | txGrant {c : TxCh} (free : s.txGrant = none) (sends : s.tx[c].state = .sending) :
      StepsTo s (.txGrant c) { s with txGrant := some c }
  | txWrite {c : TxCh} {k : Fin 8} (granted : s.txGrant = some c) (next : s.tx[c].word = k.val) :
      StepsTo s .txWrite { s with
        mem := Memory.writeWord s.mem (bufWordAddr s.cfg (chTx c) k) (wordOf s.tx[c].payload k)
        tx := s.tx.set c.val { s.tx[c] with word := k.val + 1 } c.isLt
        history := s.history ++ [.mmio .txeng .write (wordAddr s c.val s.tx[c].word) (wordOf s.tx[c].payload k)] }
  | txSet {c : TxCh} (granted : s.txGrant = some c) :
      StepsTo s .txSet { s with
        c2dStat := s.c2dStat ||| pmask (chTx c)
        tx := s.tx.set c.val { s.tx[c] with state := .waitAck, elapsed := 0, word := 0 } c.isLt
        txGrant := none
        history := s.history ++ [.mmio .txeng .write (s.cfg.regBase + 0x04) (pmask (chTx c))] }
  | txTimeout {c : TxCh} (waits : s.tx[c].state = .waitAck) :
      StepsTo s (.txTimeout c) { s with
        ports := s.ports.set s.tx[c].port Port.atReset
        tx := s.tx.set c.val { s.tx[c] with state := .idle, elapsed := 0 } c.isLt
        history := s.history ++ [respRecord s.tx[c].port .sendTimeout false none] }
  -- the ports, the synchronizer and the system (R223, R225, R250, R320, R340, R342)
  | waitFault {p b e} {r : RxCh} (port : s.ports[p]? = some { state := .waiting r b, elapsed := e }) :
      StepsTo s (.waitConsume p) { s with
        ports := s.ports.set p Port.atReset
        history := s.history ++ [respRecord p .copyFault false none] }
  | waitConsume {p b e} {r : RxCh} (port : s.ports[p]? = some { state := .waiting r b, elapsed := e }) :
      StepsTo s (.waitConsume p) { s with
        ports := s.ports.set p Port.atReset
        rx := s.rx.set r.val { s.rx[r] with ready := false, readySync := false } r.isLt
        history := s.history ++ [respRecord p .ok false (some s.rx[r].buf)] }
  | waitTimeout {p b e} {r : RxCh} (port : s.ports[p]? = some { state := .waiting r b, elapsed := e }) :
      StepsTo s (.waitTimeout p) { s with
        ports := s.ports.set p Port.atReset
        history := s.history ++ [respRecord p .recvTimeout false none] }
  | sync {r : RxCh} (differs : s.rx[r].readySync ≠ s.rx[r].ready) :
      StepsTo s (.sync r) { s with
        rx := s.rx.set r.val { s.rx[r] with readySync := true } r.isLt
        history := s.history ++
          ((List.range s.cfg.numPorts).filter (isListener s r)).map fun q => Record.notify q (r.val + 8) }
  | tick : StepsTo s .tick { s with
      tx := Vector.ofFn fun c : Fin 8 => tickTx s.cfg.tSendTimeout s.tx[c]
      ports := s.ports.map tickPort }
  | init (fresh : s.initDone = false) : StepsTo s .init { s with
      d2cEn := 0xFFFFFFFF
      initDone := true
      history := s.history ++ [.mmio .init .write (s.cfg.regBase + 0x1c) 0xFFFFFFFF] }
  | reset : StepsTo s .reset (resetMailbox s)

section
variable {s t : State} {p : Nat} {i : Instr}

theorem rxChannel_or_outside (ch : Nat) : (ch < 8 ∨ 16 ≤ ch) ∨ ∃ r : RxCh, ch = r.val + 8 := by
  by_cases rx : 8 ≤ ch ∧ ch < 16
  · exact .inr ⟨⟨ch - 8, by omega⟩, by simp only; omega⟩
  · exact .inl (by omega)

theorem txChannel_or_outside (ch : Nat) : 8 ≤ ch ∨ ∃ c : TxCh, ch = c.val := by
  rcases Nat.lt_or_ge ch 8 with tx | outside
  · exact .inr ⟨⟨ch, tx⟩, rfl⟩
  · exact .inl outside

/-- The state a step leaves is the one its equation gives. -/
theorem StepsTo.of_exec_eq {u : State} (h : exec i s = .next t) (e : exec i s = .next u) (steps : StepsTo s i u) :
    StepsTo s i t := next_inj (e.symm.trans h) ▸ steps

/-- A command that is answered at once with nothing but a code. -/
theorem StepsTo.of_answered {code : StatusCode} (h : exec i s = .next t) (cmd : CommandOf p i) (issues : mayIssue p s)
    (e : exec i s = .next (answered p i code false none s)) : StepsTo s i t :=
  .of_exec_eq h e (.answer code false cmd issues nofun)

/-- A RECEIVE of either mode, once its outcome without a message is known. -/
theorem stepsTo_receive {ch : Nat} {noMessage : RxCh → State → State} (h : exec i s = .next t) (cmd : CommandOf p i)
    (issues : mayIssue p s) (receives : Receives p ch i noMessage s)
    (mode : ∀ r : RxCh, ch = r.val + 8 → i = .receiveNb p (r.val + 8) ∨ ∃ b, i = .receiveB p (r.val + 8) b)
    (waits : ∀ r : RxCh, ch = r.val + 8 → s.bound[r.val + 8] = true →
      exec i s = .next (noMessage r (s.log (cmdRecord p i))) → StepsTo s i t) : StepsTo s i t := by
  rcases rxChannel_or_outside ch with outside | ⟨r, rfl⟩
  · exact .of_answered h cmd issues (receives.exec_of_outside outside)
  cases bound : s.bound[r.val + 8] with
  | false => exact .of_answered h cmd issues (receives.exec_of_unbound bound)
  | true =>
    cases msg : s.rx[r].ready with
    | false => exact waits r rfl bound (receives.exec_of_noMessage bound msg)
    | true =>
      cases err : s.draws.xferErr with
      | true => exact .of_answered h cmd issues (receives.exec_of_xferErr bound msg err)
      | false => exact .of_exec_eq h (receives.exec_of_message bound msg err) (.receive issues (mode r rfl))

/-- The outcomes of a command. -/
theorem stepsTo_of_command (cmd : CommandOf p i) (h : exec i s = .next t) : StepsTo s i t := by
  have issues : mayIssue p s := by
    by_contra no
    cases (exec_command_of_not_mayIssue cmd no).symm.trans h
  have cmd' := cmd
  cases cmd with
  | bind ch =>
    obtain ⟨outside, inside⟩ := bindOutcomes p ch s issues
    rcases Nat.lt_or_ge ch 16 with inTable | out
    · obtain ⟨ifBound, ifUnbound⟩ := inside inTable
      cases bound : s.bound[ch] with
      | true => exact .of_answered h cmd' issues (ifBound bound)
      | false => exact .of_exec_eq h (ifUnbound bound) (.bind issues inTable)
    · exact .of_answered h cmd' issues (outside out)
  | send ch m =>
    obtain ⟨outside, inside⟩ := sendOutcomes p ch m s issues
    rcases txChannel_or_outside ch with out | ⟨c, rfl⟩
    · exact .of_answered h cmd' issues (outside out)
    obtain ⟨ifUnbound, ifBusy, ifErr, latches⟩ := inside c rfl
    cases bound : s.bound[c.val] with
    | false => exact .of_answered h cmd' issues (ifUnbound bound)
    | true =>
      by_cases idle : s.tx[c].state = .idle
      · cases err : s.draws.xferErr with
        | true => exact .of_answered h cmd' issues (ifErr bound idle err)
        | false => exact .of_exec_eq h (latches bound idle err) (.send issues bound idle)
      · exact .of_answered h cmd' issues (ifBusy bound idle)
  | receiveNb ch =>
    have receives : Receives p ch (.receiveNb p ch) _ s := receives_receiveNb issues
    refine stepsTo_receive h cmd' issues receives (fun r e => .inl (by rw [e])) fun r _ _ noMsg => ?_
    exact .of_answered h cmd' issues (noMsg.trans (congrArg _ (respond_log p _ .empty false none s)))
  | receiveB ch b =>
    have receives : Receives p ch (.receiveB p ch b) _ s := receives_receiveB issues
    refine stepsTo_receive h cmd' issues receives (fun r e => .inr ⟨b, by rw [e]⟩) fun r e bound waits => ?_
    subst e
    exact .of_exec_eq h waits (.wait issues bound)
  | pollReady ch =>
    exact .of_exec_eq h (exec_pollReady_answered issues) (.answer _ _ cmd' issues fun _ => ⟨ch, rfl⟩)
  | registerListener ch =>
    rcases rxChannel_or_outside ch with outside | ⟨r, rfl⟩
    · refine .of_answered (code := .invalidChannel) h cmd' issues
        ((exec_registerListener issues).trans (congrArg _ ?_))
      exact (acceptRegisterListener_of_outside p _ outside).trans (respond_log p _ .invalidChannel false none s)
    · exact .of_exec_eq h (exec_registerListener_of_rx issues r) (.registerListener issues)
  | cancel ch =>
    rcases rxChannel_or_outside ch with outside | ⟨r, rfl⟩
    · refine .of_answered (code := .invalidChannel) h cmd' issues ((exec_cancel issues).trans (congrArg _ ?_))
      exact (acceptCancel_of_outside p _ outside).trans (respond_log p _ .invalidChannel false none s)
    · refine .of_exec_eq h ((exec_cancel issues).trans (congrArg _ ?_)) (.cancel issues)
      simp only [acceptCancel, rxChannel_val, foldl_cancelOne, respond_eq, State.log, List.append_assoc]
      rfl
  | illegal w payload => exact .of_answered h cmd' issues (illegalWordsAreAnswered p w payload s issues)

theorem regWrite_eq (ag : Issuer) (r : Reg) (v : Word) (s : State) :
    regWrite ag r v s = { s with
        c2dEn := (regEffect ag r v s).c2dEn
        c2dStat := (regEffect ag r v s).c2dStat
        d2cEn := (regEffect ag r v s).d2cEn
        d2cStat := (regEffect ag r v s).d2cStat
        history := s.history ++ [regWriteRecord ag r.offset v s] } := by
  cases r
  case c2dClr | d2cClr =>
    simp only [regWrite, regEffect, State.log]
    split <;> rfl
  all_goals rfl

theorem stepsTo_of_exec (h : exec i s = .next t) : StepsTo s i t := by
  cases kind i with
  | command cmd => exact stepsTo_of_command cmd h
  | reg ag dir v r =>
    cases dir with
    | read =>
      obtain ⟨may, rfl⟩ := next_regRead ((exec_regRead ag v r s).symm.trans h)
      exact .regRead r may
    | write =>
      obtain ⟨may, rfl⟩ := access_next ((exec_regWrite ag v r s).symm.trans h)
      rw [regWrite_eq]
      exact .regWrite r may
  | bufR ag i k =>
    obtain ⟨may, rfl⟩ := next_bufRead h
    exact .bufRead may
  | bufW ag i k v =>
    obtain ⟨may, rfl⟩ := access_next h
    exact .bufWrite may
  | event ev =>
    cases i with
    | dmxStart =>
      obtain ⟨init, idle, -, rfl⟩ := next_dmxStart h
      exact .dmxStart init idle
    | dmxClear =>
      obtain ⟨n, state, rfl⟩ := next_dmxClear h
      rw [regWrite_d2cClr]
      exact .dmxClear state
    | dmxSpurious =>
      obtain ⟨state, -, rfl⟩ := next_dmxSpurious h
      exact .dmxSpurious state
    | dmxTxack =>
      obtain ⟨state, -, c, -, -, rfl⟩ := next_dmxTxack h
      split
      case isTrue waits => exact .dmxTxack state waits
      case isFalse => exact .dmxTxackStale state
    | dmxTxackUnbound =>
      obtain ⟨state, -, c, -, -, rfl⟩ := next_dmxTxackUnbound h
      exact .dmxTxackUnbound state
    | dmxRxDispatch =>
      obtain ⟨state, valid, r, idx, bound, rfl⟩ := next_dmxRxDispatch h
      exact .dmxRxDispatch state valid idx bound
    | dmxRxRead =>
      obtain ⟨k, r, state, idx, rfl⟩ := next_dmxRxRead h
      exact .dmxRxRead state idx
    | dmxRxCommit =>
      obtain ⟨r, state, idx, rfl⟩ := next_dmxRxCommit h
      exact .dmxRxCommit state idx
    | dmxRearm =>
      obtain ⟨r, state, idx, rfl⟩ := next_dmxRearm h
      exact .dmxRearm state idx
    | dmxRxUnbound =>
      obtain ⟨state, -, r, -, -, rfl⟩ := next_dmxRxUnbound h
      exact .dmxRxUnbound state
    | txGrant c =>
      obtain ⟨free, sends, -, rfl⟩ := next_txGrant h
      exact .txGrant free sends
    | txWrite =>
      obtain ⟨c, k, granted, next, rfl⟩ := next_txWrite h
      have steps := StepsTo.txWrite granted next
      rw [next] at steps
      exact steps
    | txSet =>
      obtain ⟨c, granted, -, rfl⟩ := next_txSet h
      exact .txSet granted
    | txTimeout c =>
      obtain ⟨waits, -, rfl⟩ := next_txTimeout h
      exact .txTimeout waits
    | waitConsume p =>
      obtain ⟨r, b, e, port, -, rfl⟩ := next_waitConsume h
      cases err : s.draws.xferErr with
      | true =>
        rw [consume_of_xferErr p r err]
        exact .waitFault port
      | false =>
        rw [consume_of_noErr p r err]
        exact .waitConsume port
    | waitTimeout p =>
      obtain ⟨r, b, e, port, -, -, rfl⟩ := next_waitTimeout h
      exact .waitTimeout port
    | sync r =>
      obtain ⟨differs, rfl⟩ := next_sync h
      exact .sync differs
    | tick =>
      obtain rfl := next_tick h
      exact .tick
    | init =>
      obtain ⟨fresh, rfl⟩ := next_init h
      exact .init fresh
    | reset =>
      obtain rfl := next_reset h
      exact .reset
    | _ => cases ev

end

end Sys2Proof.Machine
end

section
/-! Who writes what: the receive side, the control bits, the status bits and the buffer bytes (R23 to R42). -/

namespace Sys2Proof.Machine

/-! ## RX channels -/

/-- What a step does to RX channel `r`: the channel after it. -/
inductive RxStep (s : State) (i : Instr) (r : RxCh) : RxChan → Prop
  | keep : RxStep s i r s.rx[r]
  | register {p l} (cmd : i = .registerListener p (r.val + 8)) : RxStep s i r { s.rx[r] with listeners := l }
  | take (taker : (∃ p, i = .receiveNb p (r.val + 8)) ∨ (∃ p b, i = .receiveB p (r.val + 8) b) ∨
      ∃ p x b, i = .waitConsume p ∧ s.ports[p]? = some x ∧ x.state = .waiting r b) :
      RxStep s i r { s.rx[r] with ready := false, readySync := false }
  | commit (ev : i = .dmxRxCommit) (idx : s.dmxIdx.val = r.val) :
      RxStep s i r { s.rx[r] with buf := msgOf s.dmxWords, ready := true }
  | sync (ev : i = .sync r) : RxStep s i r { s.rx[r] with readySync := true }
  | reset (ev : i = .reset) : RxStep s i r (RxChan.atReset s.cfg.numPorts)

/-- A step that writes one RX channel leaves the others. -/
theorem rxStep_set {s : State} {i : Instr} {r r' : RxCh} {x : RxChan} (h : r' = r → RxStep s i r x) :
    RxStep s i r (s.rx.set r'.val x r'.isLt)[r] := by
  rw [vector_get_set]
  split
  case isTrue same => exact h same
  case isFalse => exact .keep

theorem rxStep_of_steps {s t : State} {i : Instr} (steps : StepsTo s i t) (r : RxCh) : RxStep s i r t.rx[r] := by
  cases steps with
  | receive issues cmd =>
    refine rxStep_set ?_
    rintro rfl
    exact .take (cmd.elim (fun nb => .inl ⟨_, nb⟩) fun ⟨b, waits⟩ => .inr (.inl ⟨_, b, waits⟩))
  | registerListener issues =>
    refine rxStep_set ?_
    rintro rfl
    exact .register rfl
  | dmxRxCommit state idx =>
    refine rxStep_set ?_
    rintro rfl
    exact .commit rfl idx
  | waitConsume port =>
    refine rxStep_set ?_
    rintro rfl
    exact .take (.inr (.inr ⟨_, _, _, rfl, port, rfl⟩))
  | sync differs =>
    refine rxStep_set ?_
    rintro rfl
    exact .sync rfl
  | reset => exact resetOf_rx s.cfg r ▸ .reset rfl
  | _ => exact .keep

/-- Settles O53: of the ways a step writes an RX channel, only the commit raises the flag and writes the message, only SYNC
raises the copy, and only a taker or RESET lowers them. -/
theorem readyFlagsHaveTheirOnlyWriters : Obligations.ReadyFlagsHaveTheirOnlyWriters := by
  intro i s t r h
  have step := rxStep_of_steps (stepsTo_of_exec h) r
  generalize t.rx[r] = x at step
  cases step with
  | keep | register cmd => exact ⟨.inl, .inl, fun changed => absurd rfl changed, by simp⟩
  | take taker =>
    refine ⟨nofun, nofun, fun changed => absurd rfl changed, fun _ => ?_⟩
    rcases taker with nb | b | wait
    · exact .inl nb
    · exact .inr (.inl b)
    · exact .inr (.inr (.inl wait))
  | commit ev idx => exact ⟨fun _ => .inr ⟨ev, idx⟩, .inl, fun _ => .inl ⟨ev, idx⟩, by simp⟩
  | sync ev => exact ⟨.inl, fun _ => .inr ev, fun changed => absurd rfl changed, by simp⟩
  | reset ev => exact ⟨nofun, nofun, fun _ => .inr ev, fun _ => .inr (.inr (.inr ev))⟩

/-! ## The register file under a write -/

section
variable (ag : Issuer) {r : Reg} (v : Word) (s : State)

theorem regEffect_c2dEn (other : r ≠ .c2dEn) : (regEffect ag r v s).c2dEn = s.c2dEn := by
  cases r
  case c2dEn => exact absurd rfl other
  case c2dClr | d2cClr => simp only [regEffect]; split <;> rfl
  all_goals rfl

theorem regEffect_d2cEn (other : r ≠ .d2cEn) : (regEffect ag r v s).d2cEn = s.d2cEn := by
  cases r
  case d2cEn => exact absurd rfl other
  case c2dClr | d2cClr => simp only [regEffect]; split <;> rfl
  all_goals rfl

theorem regEffect_c2dStat (r : Reg) : (regEffect ag r v s).c2dStat = s.c2dStat ∨
    (r = .c2dSet ∧ (regEffect ag r v s).c2dStat = s.c2dStat ||| v) ∨
      (r = .c2dClr ∧ (regEffect ag r v s).c2dStat = s.c2dStat &&& ~~~v) := by
  cases r
  case c2dSet => exact .inr (.inl ⟨rfl, rfl⟩)
  case c2dClr =>
    simp only [regEffect]
    split
    · exact .inr (.inr ⟨trivial, rfl⟩)
    · exact .inl rfl
  case d2cClr => simp only [regEffect]; split <;> exact .inl rfl
  all_goals exact .inl rfl

theorem regEffect_d2cStat (r : Reg) : (regEffect ag r v s).d2cStat = s.d2cStat ∨
    (r = .d2cSet ∧ (regEffect ag r v s).d2cStat = s.d2cStat ||| v) ∨
      (r = .d2cClr ∧ (regEffect ag r v s).d2cStat = s.d2cStat &&& ~~~v) := by
  cases r
  case d2cSet => exact .inr (.inl ⟨rfl, rfl⟩)
  case d2cClr =>
    simp only [regEffect]
    split
    · exact .inr (.inr ⟨trivial, rfl⟩)
    · exact .inl rfl
  case c2dClr => simp only [regEffect]; split <;> exact .inl rfl
  all_goals exact .inl rfl

end

/-! ## Control bits -/

section
variable {s t : State} {i : Instr}

theorem cfg_of_steps (steps : StepsTo s i t) : t.cfg = s.cfg := by
  cases steps <;> rfl

theorem c2dEn_of_steps (steps : StepsTo s i t) : t.c2dEn = s.c2dEn ∨ (∃ ag v, i = .c2dEnW ag v) ∨ i = .reset := by
  cases steps with
  | @regWrite ag v r may =>
    by_cases own : r = .c2dEn
    · exact .inr (.inl ⟨ag, v, by rw [own]; rfl⟩)
    · exact .inl (regEffect_c2dEn ag v s own)
  | reset => exact .inr (.inr rfl)
  | _ => exact .inl rfl

theorem d2cEn_of_steps (steps : StepsTo s i t) :
    t.d2cEn = s.d2cEn ∨ (∃ ag v, i = .d2cEnW ag v) ∨ i = .init ∨ i = .reset := by
  cases steps with
  | @regWrite ag v r may =>
    by_cases own : r = .d2cEn
    · exact .inr (.inl ⟨ag, v, by rw [own]; rfl⟩)
    · exact .inl (regEffect_d2cEn ag v s own)
  | init fresh => exact .inr (.inr (.inl rfl))
  | reset => exact .inr (.inr (.inr rfl))
  | _ => exact .inl rfl

theorem bound_of_steps (steps : StepsTo s i t) (ch : Fin 16) :
    t.bound[ch] = s.bound[ch] ∨ (t.bound[ch] = true ∧ ∃ p, i = .bind p ch.val) ∨ i = .reset := by
  cases steps with
  | @bind p n issues h =>
    have read : (s.bound.set n true h)[ch] = if (⟨n, h⟩ : Fin 16) = ch then true else s.bound[ch] :=
      vector_get_set s.bound ⟨n, h⟩ ch true
    split at read
    case isTrue same => exact .inr (.inl ⟨read, p, by rw [← same]⟩)
    case isFalse => exact .inl read
  | reset => exact .inr (.inr rfl)
  | _ => exact .inl rfl

theorem listeners_of_steps (steps : StepsTo s i t) (r : RxCh) :
    t.rx[r].listeners = s.rx[r].listeners ∨ (∃ p, i = .registerListener p (r.val + 8)) ∨ i = .reset := by
  have step := rxStep_of_steps steps r
  generalize t.rx[r] = x at step
  cases step with
  | register cmd => exact .inr (.inl ⟨_, cmd⟩)
  | reset ev => exact .inr (.inr ev)
  | _ => exact .inl rfl

theorem initDone_of_steps (steps : StepsTo s i t) :
    t.initDone = s.initDone ∨ (t.initDone = true ∧ i = .init) ∨ i = .reset := by
  cases steps with
  | init fresh => exact .inr (.inl ⟨rfl, rfl⟩)
  | reset => exact .inr (.inr rfl)
  | _ => exact .inl rfl

end

/-- Settles O54: one lemma for each item. -/
theorem controlBitsHaveTheirOnlyWriters : Obligations.ControlBitsHaveTheirOnlyWriters := by
  intro i s t h
  have steps := stepsTo_of_exec h
  exact ⟨cfg_of_steps steps, (c2dEn_of_steps steps).resolve_left, (d2cEn_of_steps steps).resolve_left,
    fun ch => (bound_of_steps steps ch).resolve_left, fun r => (listeners_of_steps steps r).resolve_left,
    (initDone_of_steps steps).resolve_left⟩

/-! ## Status bits -/

theorem bit_of_pmask {p : Fin 16} {b : Nat} (bit : (pmask p).getLsbD b = true) : b = 2 * p.val ∨ b = 2 * p.val + 1 := by
  rw [pmask, BitVec.getLsbD_shiftLeft] at bit
  simp only [Bool.and_eq_true, Bool.not_eq_true', decide_eq_true_eq, decide_eq_false_iff_not, getLsbD_three_iff] at bit
  omega

section
variable {s t : State} {i : Instr}

/-- The writes of the D2C status word: a set write, or a clear of the mask or of a clear write's data. -/
theorem d2cStat_of_steps (steps : StepsTo s i t) : t.d2cStat = s.d2cStat ∨
    (∃ ag v, i = .d2cSetW ag v ∧ t.d2cStat = s.d2cStat ||| v) ∨
    (∃ v, ((i = .dmxClear ∧ v = s.dmxMask) ∨ ∃ ag, i = .d2cClrW ag v) ∧ t.d2cStat = s.d2cStat &&& ~~~v) ∨
    (i = .reset ∧ t.d2cStat = 0) := by
  cases steps with
  | @regWrite ag v r may =>
    rcases regEffect_d2cStat ag v s r with same | ⟨own, set⟩ | ⟨own, clears⟩
    · exact .inl same
    · exact .inr (.inl ⟨ag, v, by rw [own]; rfl, set⟩)
    · exact .inr (.inr (.inl ⟨v, .inr ⟨ag, by rw [own]; rfl⟩, clears⟩))
  | dmxClear state =>
    rcases ite_eq_or_eq (clearTakes .demux .d2cClr s.dmxMask s = true) (s.d2cStat &&& ~~~s.dmxMask) s.d2cStat with
      clears | same
    · exact .inr (.inr (.inl ⟨s.dmxMask, .inl ⟨rfl, rfl⟩, clears⟩))
    · exact .inl same
  | reset => exact .inr (.inr (.inr ⟨rfl, rfl⟩))
  | _ => exact .inl rfl

/-- The writes of the C2D status word: a set write, a notification or a re-arm, or a clear write. -/
theorem c2dStat_of_steps (steps : StepsTo s i t) : t.c2dStat = s.c2dStat ∨
    (∃ v, ((∃ ag, i = .c2dSetW ag v) ∨ (i = .txSet ∧ ∃ c, v = pmask (chTx c)) ∨ (i = .dmxRearm ∧ ∃ r, v = pmask (chRx r))) ∧
      t.c2dStat = s.c2dStat ||| v) ∨
    (∃ ag v, i = .c2dClrW ag v ∧ t.c2dStat = s.c2dStat &&& ~~~v) ∨ (i = .reset ∧ t.c2dStat = 0) := by
  cases steps with
  | @regWrite ag v r may =>
    rcases regEffect_c2dStat ag v s r with same | ⟨own, set⟩ | ⟨own, clears⟩
    · exact .inl same
    · exact .inr (.inl ⟨v, .inl ⟨ag, by rw [own]; rfl⟩, set⟩)
    · exact .inr (.inr (.inl ⟨ag, v, by rw [own]; rfl, clears⟩))
  | @dmxRearm r state idx => exact .inr (.inl ⟨_, .inr (.inr ⟨rfl, r, rfl⟩), rfl⟩)
  | @txSet c granted => exact .inr (.inl ⟨_, .inr (.inl ⟨rfl, c, rfl⟩), rfl⟩)
  | reset => exact .inr (.inr (.inr ⟨rfl, rfl⟩))
  | _ => exact .inl rfl

end

section
variable {w x v : Word} {b : Nat}

theorem bit_of_set (set : x = w ||| v) (low : w.getLsbD b = false) (high : x.getLsbD b = true) : v.getLsbD b = true := by
  simpa [set, low] using high

theorem not_fall_of_set (set : x = w ||| v) (high : w.getLsbD b = true) (low : x.getLsbD b = false) : False := by
  simp [set, high] at low

theorem not_rise_of_clear (clears : x = w &&& ~~~v) (low : w.getLsbD b = false) (high : x.getLsbD b = true) : False := by
  simp [clears, low] at high

theorem bit_of_clear (clears : x = w &&& ~~~v) (high : w.getLsbD b = true) (low : x.getLsbD b = false) :
    v.getLsbD b = true := by
  have inWord := BitVec.lt_of_getLsbD high
  simp only [clears, BitVec.getLsbD_and, BitVec.getLsbD_not, high, inWord, decide_true, Bool.true_and] at low
  simpa using low

end

/-- Settles O55: a bit that rises is in the word that was set, one that falls in the word that was cleared. -/
theorem statusBitsHaveTheirOnlyWriters : Obligations.StatusBitsHaveTheirOnlyWriters := by
  intro i s t b h
  have steps := stepsTo_of_exec h
  refine ⟨fun low high => ?_, fun high low => ?_, fun low high => ?_, fun high low => ?_⟩
  · rcases d2cStat_of_steps steps with same | ⟨ag, v, cmd, set⟩ | ⟨v, -, clears⟩ | ⟨-, zero⟩
    · simp [same, low] at high
    · exact ⟨ag, v, cmd, bit_of_set set low high⟩
    · exact (not_rise_of_clear clears low high).elim
    · simp [zero] at high
  · rcases d2cStat_of_steps steps with same | ⟨ag, v, -, set⟩ | ⟨v, clearer, clears⟩ | ⟨ev, -⟩
    · simp [same, high] at low
    · exact (not_fall_of_set set high low).elim
    · have bit := bit_of_clear clears high low
      rcases clearer with ⟨ev, rfl⟩ | ⟨ag, cmd⟩
      · exact .inl ⟨ev, bit⟩
      · exact .inr (.inl ⟨ag, v, cmd, bit⟩)
    · exact .inr (.inr ev)
  · rcases c2dStat_of_steps steps with same | ⟨v, setter, set⟩ | ⟨ag, v, -, clears⟩ | ⟨-, zero⟩
    · simp [same, low] at high
    · have bit := bit_of_set set low high
      rcases setter with ⟨ag, cmd⟩ | ⟨ev, c, rfl⟩ | ⟨ev, r, rfl⟩
      · exact .inl ⟨ag, v, cmd, bit⟩
      · have place := bit_of_pmask bit
        simp only [chTx] at place
        exact .inr (.inl ⟨ev, by omega⟩)
      · have place := bit_of_pmask bit
        simp only [chRx] at place
        exact .inr (.inr ⟨ev, by omega⟩)
    · exact (not_rise_of_clear clears low high).elim
    · simp [zero] at high
  · rcases c2dStat_of_steps steps with same | ⟨v, -, set⟩ | ⟨ag, v, cmd, clears⟩ | ⟨ev, -⟩
    · simp [same, high] at low
    · exact (not_fall_of_set set high low).elim
    · exact .inl ⟨ag, v, cmd, bit_of_clear clears high low⟩
    · exact .inr ev

/-! ## Buffer bytes -/

/-- Settles O56: every step but the three keeps the written bytes and the reset count, which a read depends on. -/
theorem otherStepsLeaveEveryBufferByte : Obligations.OtherStepsLeaveEveryBufferByte := by
  intro i s t a h notBufW notTxWrite notReset
  cases stepsTo_of_exec h with
  | bufWrite may => exact absurd rfl (notBufW _ _ _ _)
  | txWrite granted next => exact absurd rfl notTxWrite
  | reset => exact absurd rfl notReset
  | _ => exact readByte_congr rfl rfl a

end Sys2Proof.Machine
end

section
/-! What a step appends to the history: the accesses of its rule, and records of its own kind (R43, R63, R96). -/

namespace Sys2Proof.Machine

/-! ## Response words -/

theorem respWord_fields (code : StatusCode) (ready : Bool) :
    (respWord code ready).extractLsb' 5 27 = 0 ∧ ((respWord code ready).extractLsb' 0 4).toNat ≤ 9 ∧
      (respWord code ready).getLsbD 4 = ready := by
  cases code <;> cases ready <;> decide

/-- The word of a response to instruction `i`, as R96 and R224 make it: the ready bit is POLL_READY's, data goes with OK. -/
def ResponseFits (i : Instr) (w : Word) (data : Option Msg) : Prop :=
  ∃ code ready, w = respWord code ready ∧ (ready = true → ∃ q ch, i = .pollReady q ch) ∧
    (data.isSome = true → code = .ok ∧ ready = false)

/-- A response without a ready bit and without data. -/
theorem responseFits_code (i : Instr) (code : StatusCode) : ResponseFits i (respWord code false) none :=
  ⟨code, false, rfl, nofun, nofun⟩

theorem responseFits_ok (i : Instr) (data : Option Msg) : ResponseFits i (respWord .ok false) data :=
  ⟨.ok, false, rfl, nofun, fun _ => ⟨rfl, rfl⟩⟩

/-! ## Records -/

/-- A record that a step of `i` may append (R43): each kind of record is of the steps whose rules append it. -/
def RecordFits (i : Instr) (e : Record) : Prop :=
  match e with
  | .mmio .. => True
  | .cmd p _ _ => CommandOf p i ∧ e = cmdRecord p i
  | .resp _ w data =>
    ((∃ q, agentOf i = .port q) ∨ i = .dmxTxack ∨ ∃ c, i = .txTimeout c) ∧ ResponseFits i w data
  | .report .. => i = .dmxSpurious ∨ i = .dmxTxack ∨ i = .dmxTxackUnbound ∨ i = .dmxRxUnbound
  | .notify _ r => ∃ r' : RxCh, i = .sync r' ∧ r = r'.val + 8

/-- What a step of `i` from `s` appends: the accesses of its rule in their order, and records that fit. -/
def Appends (s t : State) (i : Instr) : Prop :=
  ∃ new, t.history = s.history ++ new ∧ new.filterMap accessOf = accesses i s ∧ ∀ e ∈ new, RecordFits i e

section
variable {s t : State} {i : Instr}

theorem appends_nothing (same : t.history = s.history) (none : accesses i s = []) : Appends s t i :=
  ⟨[], by rw [same, List.append_nil], none.symm, nofun⟩

theorem appends_one {e : Record} (appended : t.history = s.history ++ [e]) (access : [e].filterMap accessOf = accesses i s)
    (fits : RecordFits i e) : Appends s t i :=
  ⟨[e], appended, access, List.forall_mem_singleton.2 fits⟩

/-- A command appends its CMD record and then responses. -/
theorem appends_command {p : Nat} {l : List Record} (cmd : CommandOf p i)
    (appended : t.history = s.history ++ (cmdRecord p i :: l))
    (responses : ∀ e ∈ l, ∃ q w data, e = .resp q w data ∧ ResponseFits i w data) : Appends s t i := by
  have none : accesses i s = [] := by cases cmd <;> rfl
  refine ⟨_, appended, ?_, fun e new => ?_⟩
  · rw [none, List.filterMap_eq_nil_iff]
    intro e new
    rcases List.mem_cons.1 new with rfl | response
    · rfl
    · obtain ⟨q, w, data, rfl, -⟩ := responses e response
      rfl
  · rcases List.mem_cons.1 new with rfl | response
    · exact ⟨cmd, rfl⟩
    · obtain ⟨q, w, data, rfl, fits⟩ := responses e response
      exact ⟨.inl ⟨p, cmd.isCommandOf.1⟩, fits⟩

theorem accesses_regInstr (ag : Issuer) (dir : Dir) (v : Word) (r : Reg) (s : State) :
    accesses (regInstr ag dir v r) s = [(ag, dir, s.cfg.regBase + r.offset)] := by
  cases r <;> cases dir <;> rfl

theorem appends_of_steps (steps : StepsTo s i t) (notReset : i ≠ .reset) : Appends s t i := by
  cases steps with
  | answer code ready cmd issues poll =>
    refine appends_command cmd rfl (List.forall_mem_singleton.2 ⟨_, _, _, rfl, code, ready, rfl, fun up => ?_, nofun⟩)
    exact ⟨_, poll up⟩
  | bind issues h =>
    exact appends_command (.bind _) rfl (List.forall_mem_singleton.2 ⟨_, _, _, rfl, responseFits_code _ _⟩)
  | send issues bound idle => exact appends_command (.send _ _) rfl nofun
  | @receive p _ r issues cmd =>
    have isCmd : CommandOf p i := by
      rcases cmd with rfl | ⟨b, rfl⟩
      · exact .receiveNb _
      · exact .receiveB _ _
    exact appends_command isCmd rfl (List.forall_mem_singleton.2 ⟨_, _, _, rfl, responseFits_ok _ _⟩)
  | wait issues bound => exact appends_command (.receiveB _ _) rfl nofun
  | registerListener issues =>
    exact appends_command (.registerListener _) rfl (List.forall_mem_singleton.2 ⟨_, _, _, rfl, responseFits_code _ _⟩)
  | cancel issues =>
    refine appends_command (.cancel _) rfl fun e new => ?_
    rcases List.mem_append.1 new with cancelled | last
    · obtain ⟨q, -, rfl⟩ := List.mem_map.1 cancelled
      exact ⟨_, _, _, rfl, responseFits_code _ _⟩
    · obtain rfl := List.mem_singleton.1 last
      exact ⟨_, _, _, rfl, responseFits_code _ _⟩
  | @regRead ag v r may => exact appends_one rfl (accesses_regInstr ag .read v r s).symm trivial
  | @regWrite ag v r may => exact appends_one rfl (accesses_regInstr ag .write v r s).symm trivial
  | dmxSpurious state => exact appends_one rfl rfl (.inl rfl)
  | dmxTxack state waits => exact appends_one rfl rfl ⟨.inr (.inl rfl), responseFits_code _ _⟩
  | dmxTxackStale state => exact appends_one rfl rfl (.inr (.inl rfl))
  | dmxTxackUnbound state => exact appends_one rfl rfl (.inr (.inr (.inl rfl)))
  | dmxRxUnbound state => exact appends_one rfl rfl (.inr (.inr (.inr rfl)))
  | dmxRxDispatch | dmxRxCommit | txGrant | tick => exact appends_nothing rfl rfl
  | dmxRxRead state idx => exact appends_one rfl (by simp only [accesses, state, idx]; rfl) trivial
  | txWrite granted next => exact appends_one rfl (by simp only [accesses, granted]; rfl) trivial
  | txTimeout waits => exact appends_one rfl rfl ⟨.inr (.inr ⟨_, rfl⟩), responseFits_code _ _⟩
  | waitFault | waitTimeout => exact appends_one rfl rfl ⟨.inl ⟨_, rfl⟩, responseFits_code _ _⟩
  | waitConsume => exact appends_one rfl rfl ⟨.inl ⟨_, rfl⟩, responseFits_ok _ _⟩
  | @sync r differs =>
    refine ⟨_, rfl, ?_, fun e new => ?_⟩
    · rw [List.filterMap_map]
      exact List.filterMap_eq_nil_iff.2 fun _ _ => rfl
    · obtain ⟨q, -, rfl⟩ := List.mem_map.1 new
      exact ⟨r, rfl, rfl⟩
  | reset => exact absurd rfl notReset
  | _ => exact appends_one rfl rfl trivial

/-! ## Where the accesses are -/

theorem inBufWindow_wordAddr (s : State) {n k : Nat} (buffer : n < 16) (word : k < 8) :
    inBufWindow s.cfg (wordAddr s n k) = true := by
  rw [inBufWindow, wordAddr, decide_eq_true_eq]
  omega

/-- An access is of the agent that takes the step, and lies in a window. -/
def AccessFits (i : Instr) (s : State) (a : Issuer × Dir × Nat) : Prop :=
  issuerAgent a.1 = agentOf i ∧ (inRegWindow s.cfg a.2.2 = true ∨ inBufWindow s.cfg a.2.2 = true)

theorem accesses_fit (steps : StepsTo s i t) : ∀ a ∈ accesses i s, AccessFits i s a := by
  have reg {o : Nat} (h : o < 0x24) : inRegWindow s.cfg (s.cfg.regBase + o) = true ∨
      inBufWindow s.cfg (s.cfg.regBase + o) = true := .inl (inRegWindow_offset s.cfg h)
  have buf {n k : Nat} (buffer : n < 16) (word : k < 8) : inRegWindow s.cfg (wordAddr s n k) = true ∨
      inBufWindow s.cfg (wordAddr s n k) = true := .inr (inBufWindow_wordAddr s buffer word)
  cases steps with
  | answer code ready cmd issues poll => cases cmd <;> nofun
  | receive issues cmd => rcases cmd with rfl | ⟨b, rfl⟩ <;> nofun
  | @regRead ag v r may =>
    rw [accesses_regInstr]
    exact List.forall_mem_singleton.2 ⟨(agentOf_regInstr ..).symm, reg (offset_lt r).1⟩
  | @regWrite ag v r may =>
    rw [accesses_regInstr]
    exact List.forall_mem_singleton.2 ⟨(agentOf_regInstr ..).symm, reg (offset_lt r).1⟩
  | @bufRead ag n k may => exact List.forall_mem_singleton.2 ⟨rfl, buf n.isLt k.isLt⟩
  | @bufWrite ag n k v may => exact List.forall_mem_singleton.2 ⟨rfl, buf n.isLt k.isLt⟩
  | dmxStart | dmxClear | dmxRearm | txSet | init => exact List.forall_mem_singleton.2 ⟨rfl, reg (by decide)⟩
  | @dmxRxRead k r state idx =>
    simp only [accesses, state, idx]
    exact List.forall_mem_singleton.2 ⟨rfl, buf (by omega) k.isLt⟩
  | @txWrite c k granted next =>
    simp only [accesses, granted, next]
    exact List.forall_mem_singleton.2 ⟨rfl, buf (by omega) k.isLt⟩
  | _ => nofun

end

/-- Settles O57: what a step appends has the accesses of its rule, and each record is of its own kind. -/
theorem historyGrowsByTheStepsOwnRecords : Obligations.HistoryGrowsByTheStepsOwnRecords := by
  intro i s t h notReset
  have steps := stepsTo_of_exec h
  obtain ⟨new, appended, access, fits⟩ := appends_of_steps steps notReset
  refine ⟨new, appended, access, fun ag dir addr listed => accesses_fit steps (ag, dir, addr) listed,
    fun p w m mem => ?_, fun p w d mem => (fits _ mem).1, fun kind idx mem => fits _ mem, fun q r mem => fits _ mem⟩
  obtain ⟨cmd, own⟩ := fits _ mem
  exact ⟨cmd.isCommandOf, own⟩

/-- Settles O58: a new response fits its instruction; RESET leaves none. -/
theorem responsesAreWellFormed : Obligations.ResponsesAreWellFormed := by
  intro i s t p w d h listed isNew
  by_cases reset : i = .reset
  · subst reset
    obtain rfl := next_reset h
    cases listed
  obtain ⟨new, appended, -, fits⟩ := appends_of_steps (stepsTo_of_exec h) reset
  rw [appended] at listed
  obtain ⟨-, code, ready, rfl, poll, data⟩ := fits _ ((List.mem_append.1 listed).resolve_left isNew)
  obtain ⟨upper, codeFits, readyBit⟩ := respWord_fields code ready
  refine ⟨upper, codeFits, fun up => poll (readyBit.symm.trans up), fun some => ?_⟩
  obtain ⟨rfl, rfl⟩ := data some
  rfl

end Sys2Proof.Machine
end

section
/-! Enabling (R12, R97, R142), and the bound on an invocation (R153). -/

namespace Sys2Proof.Machine

section
variable {s t : State} {i : Instr}

theorem enabled_command {p : Nat} (cmd : CommandOf p i) (s : State) : Enabled i s ↔ mayIssue p s := by
  cases cmd <;> exact Iff.rfl

theorem enabled_regInstr (ag : Issuer) (dir : Dir) (v : Word) (r : Reg) (s : State) :
    Enabled (regInstr ag dir v r) s ↔ mayAccess ag s := by
  cases r <;> cases dir <;> exact Iff.rfl

theorem mayIssue_of_next {p : Nat} (cmd : CommandOf p i) (h : exec i s = .next t) : mayIssue p s := by
  by_contra no
  cases (exec_command_of_not_mayIssue cmd no).symm.trans h

theorem exists_next_access_iff {ag : Issuer} (agent : agentOf i = issuerAgent ag) (noEvent : i.isEvent = false) :
    (∃ t, exec i s = .next t) ↔ mayAccess ag s := by
  obtain ⟨effect, access⟩ := exec_access agent noEvent
  rw [access]
  exact ⟨fun ⟨_, h⟩ => (access_next h).1, fun may => ⟨_, access_ok may⟩⟩

/-- A step is taken only where its condition holds. -/
theorem enabled_of_next (h : exec i s = .next t) : Enabled i s := by
  cases kind i with
  | command cmd => exact (enabled_command cmd s).2 (mayIssue_of_next cmd h)
  | reg ag dir v r =>
    exact (enabled_regInstr ag dir v r s).2
      ((exists_next_access_iff (agentOf_regInstr ag dir v r) (isEvent_regInstr ag dir v r)).1 ⟨t, h⟩)
  | bufR ag | bufW ag => exact (exists_next_access_iff (ag := ag) rfl rfl).1 ⟨t, h⟩
  | event ev =>
    cases i with
    | dmxStart =>
      obtain ⟨init, idle, trigger, -⟩ := next_dmxStart h
      exact ⟨init, idle, trigger⟩
    | dmxClear =>
      obtain ⟨n, state, -⟩ := next_dmxClear h
      exact ⟨n, state⟩
    | dmxSpurious =>
      obtain ⟨state, noPair, -⟩ := next_dmxSpurious h
      exact ⟨state, noPair⟩
    | dmxTxack =>
      obtain ⟨state, valid, c, idx, bound, -⟩ := next_dmxTxack h
      exact ⟨state, valid, c, idx, bound⟩
    | dmxTxackUnbound =>
      obtain ⟨state, valid, c, idx, unbound, -⟩ := next_dmxTxackUnbound h
      exact ⟨state, valid, c, idx, unbound⟩
    | dmxRxDispatch =>
      obtain ⟨state, valid, r, idx, bound, -⟩ := next_dmxRxDispatch h
      exact ⟨state, valid, r, idx, bound⟩
    | dmxRxUnbound =>
      obtain ⟨state, valid, r, idx, unbound, -⟩ := next_dmxRxUnbound h
      exact ⟨state, valid, r, idx, unbound⟩
    | dmxRxRead =>
      obtain ⟨k, -, state, -⟩ := next_dmxRxRead h
      exact ⟨k, state⟩
    | dmxRxCommit =>
      obtain ⟨-, state, -⟩ := next_dmxRxCommit h
      exact state
    | dmxRearm =>
      obtain ⟨-, state, -⟩ := next_dmxRearm h
      exact state
    | txGrant c =>
      obtain ⟨free, sends, fresh, -⟩ := next_txGrant h
      exact ⟨free, sends, fresh⟩
    | txWrite =>
      obtain ⟨c, k, granted, next, -⟩ := next_txWrite h
      exact ⟨c, granted, next ▸ k.isLt⟩
    | txSet =>
      obtain ⟨c, granted, whole, -⟩ := next_txSet h
      exact ⟨c, granted, whole⟩
    | txTimeout c =>
      obtain ⟨waits, due, -⟩ := next_txTimeout h
      exact ⟨waits, due⟩
    | waitConsume p =>
      obtain ⟨r, b, e, port, shown, -⟩ := next_waitConsume h
      exact ⟨_, r, b, port, rfl, shown⟩
    | waitTimeout p =>
      obtain ⟨r, b, e, port, bounded, due, -⟩ := next_waitTimeout h
      exact ⟨_, r, b, port, rfl, bounded, due⟩
    | sync r => exact (next_sync h).1
    | init => exact (next_init h).1
    | tick | reset => trivial
    | _ => cases ev

/-- A step whose condition holds can be taken; for the copy, `InvDemux` says that its channel exists. -/
theorem next_of_enabled (inv : InvDemux s) (enabled : Enabled i s) : ∃ t, exec i s = .next t := by
  cases kind i with
  | command cmd =>
    obtain ⟨rule, issued⟩ := exec_command cmd
    exact ⟨_, (issued s).trans (issue_ok ((enabled_command cmd s).1 enabled))⟩
  | reg ag dir v r =>
    exact (exists_next_access_iff (agentOf_regInstr ag dir v r) (isEvent_regInstr ag dir v r)).2
      ((enabled_regInstr ag dir v r s).1 enabled)
  | bufR ag | bufW ag => exact (exists_next_access_iff (ag := ag) rfl rfl).2 enabled
  | event ev =>
    cases i with
    | dmxStart =>
      obtain ⟨init, idle, trigger⟩ := enabled
      exact ⟨_, exec_dmxStart_eq init idle trigger⟩
    | dmxClear =>
      obtain ⟨n, state⟩ := enabled
      exact ⟨_, exec_dmxClear_eq s n state⟩
    | dmxSpurious =>
      obtain ⟨state, noPair⟩ := enabled
      exact ⟨_, exec_dmxSpurious_eq state noPair⟩
    | dmxTxack =>
      obtain ⟨state, valid, c, idx, bound⟩ := enabled
      exact ⟨_, exec_dmxTxack_eq (dispatchTarget_ack state valid idx) bound⟩
    | dmxTxackUnbound =>
      obtain ⟨state, valid, c, idx, unbound⟩ := enabled
      exact ⟨_, exec_dmxTxackUnbound_eq (dispatchTarget_ack state valid idx) unbound⟩
    | dmxRxDispatch =>
      obtain ⟨state, valid, r, idx, bound⟩ := enabled
      exact ⟨_, exec_dmxRxDispatch_eq (dispatchTarget_arrival state valid idx) bound⟩
    | dmxRxUnbound =>
      obtain ⟨state, valid, r, idx, unbound⟩ := enabled
      exact ⟨_, exec_dmxRxUnbound_eq (dispatchTarget_arrival state valid idx) unbound⟩
    | dmxRxRead =>
      obtain ⟨k, state⟩ := enabled
      obtain ⟨-, r, idx, -⟩ := inv.2 (.inl ⟨k, state⟩)
      exact ⟨_, exec_dmxRxRead_eq s r k state idx⟩
    | dmxRxCommit =>
      obtain ⟨-, r, idx, -⟩ := inv.2 (.inr (.inl enabled))
      exact ⟨_, exec_dmxRxCommit_eq enabled idx⟩
    | dmxRearm =>
      obtain ⟨-, r, idx, -⟩ := inv.2 (.inr (.inr enabled))
      exact ⟨_, exec_dmxRearm_eq enabled idx⟩
    | txGrant c =>
      obtain ⟨free, sends, fresh⟩ := enabled
      exact ⟨_, exec_txGrant_eq free sends fresh⟩
    | txWrite =>
      obtain ⟨c, granted, more⟩ := enabled
      exact ⟨_, exec_txWrite_eq s c s.tx[c] ⟨s.tx[c].word, more⟩ granted rfl rfl⟩
    | txSet =>
      obtain ⟨c, granted, whole⟩ := enabled
      exact ⟨_, exec_txSet_eq granted whole⟩
    | txTimeout c =>
      obtain ⟨waits, due⟩ := enabled
      exact ⟨_, exec_txTimeout_eq waits due⟩
    | waitConsume p =>
      obtain ⟨x, r, b, port, waits, shown⟩ := enabled
      exact ⟨_, (exec_waitConsume_of_waiting port waits).trans (if_pos shown)⟩
    | waitTimeout p =>
      obtain ⟨x, r, b, port, waits, bounded, due⟩ := enabled
      exact ⟨_, (exec_waitTimeout_of_waiting port waits).trans (if_pos ⟨bounded, due⟩)⟩
    | sync r => exact ⟨_, syncRaisesTheCopyAndNotifies s r enabled⟩
    | tick | reset => exact ⟨_, rfl⟩
    | init => exact ⟨_, exec_init_eq enabled⟩
    | _ => cases ev

theorem exec_ne_refused (i : Instr) (s : State) (r : Refusal) : exec i s ≠ .refused r := by
  intro refused
  have ofAccess {ag : Issuer} (agent : agentOf i = issuerAgent ag) (noEvent : i.isEvent = false) : False := by
    obtain ⟨effect, isAccess⟩ := exec_access agent noEvent
    rw [isAccess, access] at refused
    split at refused <;> cases refused
  cases kind i with
  | command cmd =>
    obtain ⟨rule, issued⟩ := exec_command cmd
    rw [issued, issue] at refused
    split at refused <;> cases refused
  | reg ag dir v reg => exact ofAccess (agentOf_regInstr ag dir v reg) (isEvent_regInstr ag dir v reg)
  | bufR ag | bufW ag => exact ofAccess (ag := ag) rfl rfl
  | event ev =>
    rcases exec_event ev s with ⟨t, next⟩ | fault
    · cases next.symm.trans refused
    · cases fault.symm.trans refused

end

/-- Settles O52: the condition of each step is what its inversion says, and is enough for its equation. -/
theorem stepsExistExactlyWhenEnabled : Obligations.StepsExistExactlyWhenEnabled :=
  fun i s inv => ⟨⟨fun ⟨_, h⟩ => enabled_of_next h, next_of_enabled inv⟩, exec_ne_refused i s⟩

/-! ## Invocations -/

/-- The one DEMUX step of a state in an invocation: what R156 to R164 let follow (none of them in IDLE). -/
def demuxStep (s : State) : Option Instr :=
  match s.dmxState with
  | .idle => none
  | .clearing _ => some .dmxClear
  | .dispatch =>
    if s.dmxValid then
      match rangeSplit s.dmxIdx with
      | .ack c => some (if s.bound[c.val] then .dmxTxack else .dmxTxackUnbound)
      | .arrival r => some (if s.bound[r.val + 8] then .dmxRxDispatch else .dmxRxUnbound)
    else some .dmxSpurious
  | .rxCopy _ => some .dmxRxRead
  | .rxCommit => some .dmxRxCommit
  | .rearm => some .dmxRearm

section
variable {s t : State} {i : Instr}

/-- A DEMUX step that is enabled is that one. -/
theorem demuxStep_of_enabled (mem : i ∈ demuxSteps) (enabled : Enabled i s) : demuxStep s = some i := by
  simp only [demuxSteps, List.mem_cons, List.not_mem_nil, or_false] at mem
  rcases mem with rfl | rfl | rfl | rfl | rfl | rfl | rfl | rfl | rfl
  · obtain ⟨n, state⟩ := enabled
    simp [demuxStep, state]
  · obtain ⟨state, noPair⟩ := enabled
    simp [demuxStep, state, noPair]
  · obtain ⟨state, valid, c, idx, bound⟩ := enabled
    simp [demuxStep, state, valid, rangeSplit_tx c _ idx, bound]
  · obtain ⟨state, valid, c, idx, unbound⟩ := enabled
    simp [demuxStep, state, valid, rangeSplit_tx c _ idx, unbound]
  · obtain ⟨state, valid, r, idx, bound⟩ := enabled
    simp [demuxStep, state, valid, rangeSplit_rx r _ idx, bound]
  · obtain ⟨k, state⟩ := enabled
    simp [demuxStep, state]
  · simp [demuxStep, show s.dmxState = .rxCommit from enabled]
  · simp [demuxStep, show s.dmxState = .rearm from enabled]
  · obtain ⟨state, valid, r, idx, unbound⟩ := enabled
    simp [demuxStep, state, valid, rangeSplit_rx r _ idx, unbound]

/-- Outside IDLE one DEMUX step is enabled. -/
theorem exists_demux_enabled (running : s.dmxState ≠ .idle) : ∃ i ∈ demuxSteps, Enabled i s := by
  cases state : s.dmxState with
  | idle => exact absurd state running
  | clearing n => exact ⟨.dmxClear, by decide, n, state⟩
  | dispatch =>
    cases valid : s.dmxValid with
    | false => exact ⟨.dmxSpurious, by decide, state, valid⟩
    | true =>
      rcases rangeSplit_cases s.dmxIdx with ⟨r, idx, -⟩ | ⟨c, idx, -⟩
      · cases bound : s.bound[r.val + 8] with
        | true => exact ⟨.dmxRxDispatch, by decide, state, valid, r, idx, bound⟩
        | false => exact ⟨.dmxRxUnbound, by decide, state, valid, r, idx, bound⟩
      · cases bound : s.bound[c.val] with
        | true => exact ⟨.dmxTxack, by decide, state, valid, c, idx, bound⟩
        | false => exact ⟨.dmxTxackUnbound, by decide, state, valid, c, idx, bound⟩
  | rxCopy k => exact ⟨.dmxRxRead, by decide, k, state⟩
  | rxCommit => exact ⟨.dmxRxCommit, by decide, state⟩
  | rearm => exact ⟨.dmxRearm, by decide, state⟩

theorem stepsLeft_afterClear (n : Fin clearRetryCount) : stepsLeft (afterClear n) < stepsLeft (.clearing n) := by
  revert n
  decide

theorem stepsLeft_afterRead (k : Fin 8) : stepsLeft (afterRead k) < stepsLeft (.rxCopy k) := by
  revert k
  decide

theorem of_mem_demuxSteps (mem : i ∈ demuxSteps) : agentOf i = .demux ∧ i.isEvent = true ∧ i ≠ .dmxStart := by
  simp only [demuxSteps, List.mem_cons, List.not_mem_nil, or_false] at mem
  rcases mem with rfl | rfl | rfl | rfl | rfl | rfl | rfl | rfl | rfl <;> exact ⟨rfl, rfl, nofun⟩

/-- A DEMUX step brings the end of its invocation nearer. -/
theorem stepsLeft_of_steps (mem : i ∈ demuxSteps) (steps : StepsTo s i t) :
    stepsLeft t.dmxState < stepsLeft s.dmxState := by
  obtain ⟨agent, ev, notStart⟩ := of_mem_demuxSteps mem
  cases steps with
  | dmxClear state => exact state ▸ stepsLeft_afterClear _
  | dmxRxRead state idx => exact state ▸ stepsLeft_afterRead _
  | dmxRxDispatch state => exact state ▸ (by decide : stepsLeft (.rxCopy 0) < stepsLeft .dispatch)
  | dmxRxCommit state idx => exact state ▸ (by decide : stepsLeft .rearm < stepsLeft .rxCommit)
  | dmxRearm state idx => exact state ▸ (by decide : stepsLeft .idle < stepsLeft .rearm)
  | dmxSpurious state | dmxTxack state waits | dmxTxackStale state | dmxTxackUnbound state | dmxRxUnbound state =>
    exact state ▸ (by decide : stepsLeft .idle < stepsLeft .dispatch)
  | dmxStart => exact absurd rfl notStart
  | answer code ready cmd => exact absurd (ev.symm.trans cmd.isCommandOf.2) (by decide)
  | receive issues cmd => rcases cmd with rfl | ⟨b, rfl⟩ <;> cases ev
  | regRead | regWrite => exact absurd (ev.symm.trans (isEvent_regInstr ..)) (by decide)
  | bind | send | wait | registerListener | cancel | bufRead | bufWrite => cases ev
  | _ => cases agent

theorem dmxState_of_steps (steps : StepsTo s i t) (notDemux : i ∉ demuxSteps) (notStart : i ≠ .dmxStart)
    (notReset : i ≠ .reset) : t.dmxState = s.dmxState := by
  cases steps with
  | dmxStart => exact absurd rfl notStart
  | reset => exact absurd rfl notReset
  | dmxClear | dmxSpurious | dmxTxack | dmxTxackStale | dmxTxackUnbound | dmxRxDispatch | dmxRxRead | dmxRxCommit
  | dmxRearm | dmxRxUnbound => exact absurd (by decide) notDemux
  | _ => rfl

end

/-- Settles O37: one DEMUX step is enabled in an invocation, each brings the end nearer, and no other step moves the
sequencer. -/
theorem invocationsAreBoundedAndDoNotNest : Obligations.InvocationsAreBoundedAndDoNotNest := by
  intro s inv
  refine ⟨fun running => ⟨?_, exec_event_of_no_next rfl fun t h => running (next_dmxStart h).2.1⟩, fun t h => ?_,
    fun i t h notDemux notStart notReset => dmxState_of_steps (stepsTo_of_exec h) notDemux notStart notReset⟩
  · obtain ⟨i, mem, enabled⟩ := exists_demux_enabled running
    obtain ⟨t, next⟩ := next_of_enabled inv enabled
    refine ⟨i, mem, ⟨t, next, stepsLeft_of_steps mem (stepsTo_of_exec next)⟩, fun j memJ ⟨u, nextJ⟩ => ?_⟩
    exact Option.some.inj
      ((demuxStep_of_enabled memJ (enabled_of_next nextJ)).symm.trans (demuxStep_of_enabled mem enabled))
  · obtain ⟨-, idle, -, rfl⟩ := next_dmxStart h
    exact ⟨idle, rfl⟩

end Sys2Proof.Machine
end

section
/-! Every step keeps the invariants (R44): one lemma for each part of the state that a step writes, then the case split. -/

namespace Sys2Proof.Machine

/-! ## Decoded instructions are well formed -/

theorem chanFits_bits (w : Word) : chanFits (bits w 11 4) = true := decide_eq_true (Nat.mod_lt _ (by decide))

theorem timeoutFits_bits (w : Word) : timeoutFits (bits w 31 16) = true := decide_eq_true (Nat.mod_lt _ (by decide))

theorem wf_of_spells {p : Nat} {w : Word} {m : Msg} {i : Instr} (h : Spells p w m i) : i.wf = true := by
  cases h with
  | illegal noRow => exact illegalFits_iff.2 ⟨noRow, by split <;> simp_all⟩
  | receiveB op mode => exact Bool.and_eq_true_iff.2 ⟨chanFits_bits w, timeoutFits_bits w⟩
  | _ => exact chanFits_bits w

theorem wf_of_decodeAccess {c : Config} {ag : Issuer} {dir : Dir} {width addr : Nat} {v : Word} {i : Instr}
    (h : decodeAccess c ag dir width addr v = .ok i) : i.wf = true := by
  unfold decodeAccess at h
  repeat' split at h
  any_goals cases h
  · exact wf_regInstr ..
  · cases dir <;> rfl

theorem wf_of_decode {c : Config} {pr : Proposal} {i : Instr} (h : decode c pr = .ok i) : i.wf = true := by
  cases pr with
  | command p w m =>
    obtain rfl : decodeCommand p w m = i := Except.ok.inj h
    exact wf_of_spells (spells_decodeCommand p w m)
  | access ag dir width addr v => exact wf_of_decodeAccess h
  | event j =>
    simp only [decode] at h
    split at h
    case isTrue ev =>
      obtain rfl : j = i := Except.ok.inj h
      cases j <;> first | rfl | cases ev
    case isFalse => cases h

/-! ## What the invariants say before INIT -/

/-- After INIT, R44's item 7 asks nothing. -/
theorem beforeInit_of_init {s : State} (init : s.initDone = true) : InvBeforeInit s :=
  fun fresh => absurd (init.symm.trans fresh) (by decide)

section
variable {s t : State} (inv : Inv s)
include inv

theorem Inv.initDone_of_busy {c : TxCh} (busy : s.tx[c].state ≠ .idle) : s.initDone = true := by
  by_contra fresh
  obtain ⟨-, tx, -⟩ := inv.beforeInit (Bool.eq_false_iff.2 fresh)
  rw [tx] at busy
  exact busy (congrArg TxChan.state (resetOf_tx s.cfg c))

theorem Inv.initDone_of_running (running : s.dmxState ≠ .idle) : s.initDone = true := by
  by_contra fresh
  obtain ⟨-, -, -, -, idle, -⟩ := inv.beforeInit (Bool.eq_false_iff.2 fresh)
  exact running idle

theorem Inv.initDone_of_port {p : Nat} {x : Port} (port : s.ports[p]? = some x) (used : x.state ≠ .free) :
    s.initDone = true := by
  by_contra fresh
  obtain ⟨-, -, -, -, -, -, -, -, -, ports⟩ := inv.beforeInit (Bool.eq_false_iff.2 fresh)
  rw [ports] at port
  exact used (congrArg Port.state (resetOf_port s.cfg port))

theorem Inv.initDone_of_ready {r : RxCh} (differs : s.rx[r].readySync ≠ s.rx[r].ready) : s.initDone = true := by
  by_contra fresh
  obtain ⟨-, -, -, rx, -⟩ := inv.beforeInit (Bool.eq_false_iff.2 fresh)
  have atReset : s.rx[r] = RxChan.atReset s.cfg.numPorts := by
    rw [rx]
    exact resetOf_rx s.cfg r
  rw [atReset] at differs
  exact differs rfl

/-! ## One part of the state at a time -/

/-- The register file, the environment's own fields and the reset count are in no invariant. -/
theorem Inv.of_registers (frame : { s with
      c2dEn := t.c2dEn, c2dStat := t.c2dStat, d2cEn := t.d2cEn, d2cStat := t.d2cStat, resetCount := t.resetCount
      peerStuck := t.peerStuck, agenda := t.agenda, draws := t.draws, stepCount := t.stepCount } = t) : Inv t := by
  rw [← frame]
  exact ⟨inv.shape, inv.memory, inv.readySync, inv.grant, inv.word, inv.sendPort, inv.busyBound, inv.waitBound,
    inv.beforeInit, inv.ranges, inv.demux, inv.clearRun⟩

/-- A write of a buffer word (R141). -/
theorem Inv.writeWord (i : Fin 16) (k : Fin 8) (v : Word) :
    Inv { s with mem := Memory.writeWord s.mem (bufWordAddr s.cfg i k) v } :=
  ⟨inv.shape, mem_word inv.memory i k v, inv.readySync, inv.grant, inv.word, inv.sendPort, inv.busyBound, inv.waitBound,
    inv.beforeInit, inv.ranges, inv.demux, inv.clearRun⟩

section
variable (init : s.initDone = true)
include init

/-- A binding rises (R145). -/
theorem Inv.bind {ch : Nat} (h : ch < 16) : Inv { s with bound := s.bound.set ch true h } := by
  have kept {n : Nat} (inTable : n < 16) (bound : s.bound[n] = true) : (s.bound.set ch true h)[n] = true := by
    rw [Vector.getElem_set]
    split
    · rfl
    · exact bound
  refine ⟨inv.shape, inv.memory, inv.readySync, inv.grant, inv.word, inv.sendPort,
    fun c busy => kept (by omega) (inv.busyBound c busy),
    fun p x r t port waits => kept (by omega) (inv.waitBound p x r t port waits), beforeInit_of_init init,
    inv.ranges, ⟨inv.demux.1, fun copies => ?_⟩, inv.clearRun⟩
  obtain ⟨valid, r, idx, bound⟩ := inv.demux.2 copies
  exact ⟨valid, r, idx, kept (by omega) bound⟩

/-- The demultiplexer's own items, with a status register and the history (R155 to R164). -/
theorem Inv.of_demux (frame : { s with
      c2dStat := t.c2dStat, d2cStat := t.d2cStat, dmxState := t.dmxState, dmxValid := t.dmxValid, dmxIdx := t.dmxIdx
      dmxMask := t.dmxMask, dmxWords := t.dmxWords, history := t.history } = t)
    (demux : InvDemux t) (clearRun : InvClearRun t) : Inv t := by
  rw [← frame] at demux clearRun ⊢
  exact ⟨inv.shape, inv.memory, inv.readySync, inv.grant, inv.word, inv.sendPort, inv.busyBound, inv.waitBound,
    beforeInit_of_init init, inv.ranges, demux, clearRun⟩

/-- The TX channels and the grant, where no channel becomes busy or idle (R192 to R194, R320). -/
theorem Inv.of_tx (frame : { s with c2dStat := t.c2dStat, tx := t.tx, txGrant := t.txGrant } = t)
    (same : ∀ c : TxCh, (t.tx[c].state ≠ .idle ↔ s.tx[c].state ≠ .idle) ∧ t.tx[c].port = s.tx[c].port)
    (grant : InvGrant t) (word : InvWord t)
    (range : ∀ c : TxCh, t.tx[c].word ≤ 8 ∧ t.tx[c].elapsed ≤ s.cfg.tSendTimeout) : Inv t := by
  rw [← frame] at same grant word range ⊢
  refine ⟨inv.shape, inv.memory, inv.readySync, grant, word, fun p c => ?_,
    fun c busy => inv.busyBound c ((same c).1.1 busy), inv.waitBound, beforeInit_of_init init,
    ⟨range, inv.ranges.2⟩, inv.demux, inv.clearRun⟩
  rw [(same c).1, (same c).2]
  exact inv.sendPort p c

/-- The items of the granted channel, which keeps the grant or releases it for WAIT_ACK (R193, R194). -/
theorem Inv.of_granted {c : TxCh} {x : TxChan}
    (frame : { s with c2dStat := t.c2dStat, tx := t.tx, txGrant := t.txGrant } = t) (granted : s.txGrant = some c)
    (set : t.tx = s.tx.set c.val x c.isLt) (port : x.port = s.tx[c].port) (wordLe : x.word ≤ 8)
    (elapsedLe : x.elapsed ≤ s.cfg.tSendTimeout)
    (held : (t.txGrant = some c ∧ x.state = .sending) ∨ (t.txGrant = none ∧ x.state = .waitAck)) : Inv t := by
  have read (d : TxCh) : t.tx[d] = if c = d then x else s.tx[d] := by
    rw [set]
    exact vector_get_set ..
  have busy : x.state ≠ .idle := by rcases held with ⟨-, state⟩ | ⟨-, state⟩ <;> rw [state] <;> nofun
  have others {d : TxCh} (free : t.txGrant ≠ some d) (sends : t.tx[d].state = .sending) : c ≠ d := by
    rintro rfl
    rw [read, if_pos rfl] at sends
    rcases held with ⟨keeps, -⟩ | ⟨-, state⟩
    · exact free keeps
    · cases state.symm.trans sends
  refine inv.of_tx init frame (fun d => ?_) (fun d holds => ?_) (fun d sends free => ?_) fun d => ?_
  · rw [read]
    split
    case isTrue own =>
      subst own
      exact ⟨iff_of_true busy (by rw [inv.grant c granted]; nofun), port⟩
    case isFalse => exact ⟨Iff.rfl, rfl⟩
  · rcases held with ⟨keeps, state⟩ | ⟨released, -⟩
    · obtain rfl := Option.some.inj (keeps.symm.trans holds)
      rw [read, if_pos rfl, state]
    · cases released.symm.trans holds
  · have other := others free sends
    rw [read, if_neg other] at sends ⊢
    exact inv.word d sends fun holds => other (Option.some.inj (granted.symm.trans holds))
  · rw [read]
    split
    · exact ⟨wordLe, elapsedLe⟩
    · exact inv.ranges.1 d

/-- What one port may become: it pends the same send, or none as before, and its wait is in range. -/
def PortKeeps (s : State) (x y : Port) : Prop :=
  (∀ c, y.state = .sendPending c ↔ x.state = .sendPending c) ∧ y.elapsed ≤ 65535 ∧
    ∀ (r : RxCh) (b : Nat), y.state = .waiting r b → s.bound[r.val + 8] = true ∧ b ≤ 65535

/-- The ports, each entry by itself (R220 to R226, R320). -/
theorem Inv.of_ports (frame : { s with ports := t.ports } = t) (length : t.ports.length = s.ports.length)
    (each : ∀ (q : Nat) (x : Port), s.ports[q]? = some x → ∃ y, t.ports[q]? = some y ∧ PortKeeps s x y) : Inv t := by
  rw [← frame] at length each ⊢
  have back {q : Nat} {y : Port} (port : t.ports[q]? = some y) : ∃ x, s.ports[q]? = some x ∧ PortKeeps s x y := by
    have inList : q < s.ports.length := length ▸ (List.getElem?_eq_some_iff.1 port).1
    obtain ⟨y', port', keeps⟩ := each q _ (List.getElem?_eq_getElem inList)
    obtain rfl := Option.some.inj (port.symm.trans port')
    exact ⟨_, List.getElem?_eq_getElem inList, keeps⟩
  refine ⟨⟨length.trans inv.shape.1, inv.shape.2⟩, inv.memory, inv.readySync, inv.grant, inv.word, fun q c => ?_,
    inv.busyBound, fun q y r b port waits => ?_, beforeInit_of_init init, ⟨inv.ranges.1, fun q y port => ?_⟩,
    inv.demux, inv.clearRun⟩
  · rw [← inv.sendPort q c]
    constructor
    · rintro ⟨y, port, pends⟩
      obtain ⟨x, port', sends, -⟩ := back port
      exact ⟨x, port', (sends c).1 pends⟩
    · rintro ⟨x, port, pends⟩
      obtain ⟨y, port', sends, -⟩ := each q x port
      exact ⟨y, port', (sends c).2 pends⟩
  · obtain ⟨x, -, -, -, waiting⟩ := back port
    exact (waiting r b waits).1
  · obtain ⟨x, -, -, elapsed, waiting⟩ := back port
    exact ⟨elapsed, fun r b waits => (waiting r b waits).2⟩

end

theorem Inv.portKeeps_self {q : Nat} {x : Port} (port : s.ports[q]? = some x) : PortKeeps s x x := by
  obtain ⟨elapsed, waiting⟩ := inv.ranges.2 q x port
  exact ⟨fun _ => Iff.rfl, elapsed, fun r b waits => ⟨inv.waitBound q x r b port waits, waiting r b waits⟩⟩

end

section
variable {s t : State}

theorem portKeeps_atReset {x : Port} (noSend : ∀ c, x.state ≠ .sendPending c) : PortKeeps s x Port.atReset :=
  ⟨fun c => iff_of_false nofun (noSend c), Nat.zero_le _, nofun⟩

theorem portKeeps_tick {x : Port} (keeps : PortKeeps s x x) : PortKeeps s x (tickPort x) := by
  obtain ⟨-, elapsed, waiting⟩ := keeps
  unfold tickPort
  split
  · exact ⟨fun _ => Iff.rfl, by simp only; omega, waiting⟩
  · exact ⟨fun _ => Iff.rfl, elapsed, waiting⟩
  · exact ⟨fun _ => Iff.rfl, elapsed, waiting⟩

theorem portKeeps_endWait {x : Port} (r : RxCh) (keeps : PortKeeps s x x) : PortKeeps s x (endWait r x) := by
  unfold endWait
  split
  case h_1 waits =>
    split
    · exact portKeeps_atReset fun c pends => by rw [waits] at pends; cases pends
    · exact keeps
  all_goals exact keeps

theorem free_of_mayIssue {p : Nat} {x : Port} (issues : mayIssue p s) (port : s.ports[p]? = some x) : x.state = .free := by
  obtain ⟨-, y, port', free⟩ := issues
  obtain rfl := Option.some.inj (port.symm.trans port')
  exact free

theorem sendPending_of_mayIssue {p : Nat} {x : Port} (issues : mayIssue p s) (port : s.ports[p]? = some x) (c : TxCh) :
    x.state ≠ .sendPending c := by
  rw [free_of_mayIssue issues port]
  nofun

/-- CANCEL ends waits, and frees a port that may issue (R226). -/
theorem Inv.cancel {p : Nat} (inv : Inv s) (issues : mayIssue p s) (r : RxCh) :
    Inv { s with
      ports := (s.ports.mapIdx fun q x => if q < s.cfg.numPorts then endWait r x else x).set p Port.atReset } := by
  refine inv.of_ports issues.1 rfl (by simp) fun q x port => ?_
  by_cases own : p = q
  · subst own
    have inList := (List.getElem?_eq_some_iff.1 port).1
    exact ⟨Port.atReset, by simp [inList], portKeeps_atReset (sendPending_of_mayIssue issues port)⟩
  · refine ⟨if q < s.cfg.numPorts then endWait r x else x, by simp [own, port], ?_⟩
    split
    · exact portKeeps_endWait r (inv.portKeeps_self port)
    · exact inv.portKeeps_self port

/-- The state of a latched send (R190). -/
def latched (p : Nat) (c : TxCh) (m : Msg) (s : State) : State :=
  { s with
    tx := s.tx.set c.val { state := .sending, port := p, payload := m, word := 0, elapsed := 0 } c.isLt
    ports := s.ports.modify p fun x => { x with state := .sendPending c } }

theorem latched_tx (p : Nat) (c d : TxCh) (m : Msg) (s : State) : (latched p c m s).tx[d] =
    if c = d then { state := .sending, port := p, payload := m, word := 0, elapsed := 0 } else s.tx[d] :=
  vector_get_set ..

/-- After the latch each port is as before, but for the issuer, which was free and pends now. -/
theorem latched_port {p q : Nat} {c : TxCh} {m : Msg} {y : Port} (issues : mayIssue p s)
    (port : (latched p c m s).ports[q]? = some y) :
    (q ≠ p ∧ s.ports[q]? = some y) ∨
      (q = p ∧ ∃ x, s.ports[q]? = some x ∧ x.state = .free ∧ y = { x with state := .sendPending c }) := by
  simp only [latched, List.getElem?_modify] at port
  obtain ⟨x, old, new⟩ := Option.map_eq_some_iff.1 port
  split at new
  case isTrue own =>
    subst own
    exact .inr ⟨rfl, x, old, free_of_mayIssue issues old, new.symm⟩
  case isFalse other => exact .inl ⟨Ne.symm other, old.trans (congrArg some new)⟩

/-- A send is latched: an idle channel becomes busy for a free port, which pends on it (R190). -/
theorem Inv.latchSend {p : Nat} {c : TxCh} (inv : Inv s) (issues : mayIssue p s) (bound : s.bound[c.val] = true)
    (idle : s.tx[c].state = .idle) (m : Msg) : Inv (latched p c m s) := by
  refine ⟨⟨(List.length_modify ..).trans inv.shape.1, inv.shape.2⟩, inv.memory, inv.readySync, fun d granted => ?_,
    fun d sends free => ?_, fun q d => ?_, fun d busy => ?_, fun q y r b port waits => ?_, beforeInit_of_init issues.1,
    ⟨fun d => ?_, fun q y port => ?_⟩, inv.demux, inv.clearRun⟩
  · rw [latched_tx]
    split
    · rfl
    · exact inv.grant d granted
  · rw [latched_tx] at sends ⊢
    split at sends
    case isTrue own => rw [if_pos own]
    case isFalse other => rw [if_neg other]; exact inv.word d sends free
  · rw [latched_tx]
    constructor
    · rintro ⟨y, port, pends⟩
      rcases latched_port issues port with ⟨-, old⟩ | ⟨rfl, x, -, -, rfl⟩
      · obtain ⟨busy, owner⟩ := (inv.sendPort q d).1 ⟨y, old, pends⟩
        split
        case isTrue own => exact absurd (own ▸ idle) busy
        case isFalse => exact ⟨busy, owner⟩
      · obtain rfl : c = d := PortState.sendPending.inj pends
        rw [if_pos rfl]
        exact ⟨nofun, rfl⟩
    · split
      case isTrue own =>
        rintro ⟨-, owner⟩
        obtain rfl : p = q := owner
        obtain ⟨-, x, port, -⟩ := issues
        exact ⟨{ x with state := .sendPending c }, by simp [latched, port], own ▸ rfl⟩
      case isFalse =>
        rintro ⟨busy, owner⟩
        obtain ⟨x, old, pends⟩ := (inv.sendPort q d).2 ⟨busy, owner⟩
        have other : p ≠ q := by
          rintro rfl
          exact sendPending_of_mayIssue issues old d pends
        exact ⟨x, by simp [latched, other, old], pends⟩
  · rw [latched_tx] at busy
    split at busy
    case isTrue own => exact own ▸ bound
    case isFalse => exact inv.busyBound d busy
  · rcases latched_port issues port with ⟨-, old⟩ | ⟨-, x, -, -, rfl⟩
    · exact inv.waitBound q y r b old waits
    · cases waits
  · rw [latched_tx]
    split
    · exact ⟨Nat.zero_le _, Nat.zero_le _⟩
    · exact inv.ranges.1 d
  · rcases latched_port issues port with ⟨-, old⟩ | ⟨-, x, old, -, rfl⟩
    · exact inv.ranges.2 q y old
    · exact ⟨(inv.ranges.2 q x old).1, nofun⟩

theorem tickTx_keeps (bound : Nat) (x : TxChan) :
    (tickTx bound x).state = x.state ∧ (tickTx bound x).port = x.port ∧ (tickTx bound x).word = x.word ∧
      (x.elapsed ≤ bound → (tickTx bound x).elapsed ≤ bound) := by
  unfold tickTx
  split
  · exact ⟨rfl, rfl, rfl, fun _ => Nat.min_le_right ..⟩
  · exact ⟨rfl, rfl, rfl, id⟩

/-- The state after a tick (R320). -/
def ticked (s : State) : State :=
  { s with
    tx := Vector.ofFn fun c : Fin 8 => tickTx s.cfg.tSendTimeout s.tx[c]
    ports := s.ports.map tickPort }

theorem ticked_tx (s : State) (c : TxCh) : (ticked s).tx[c] = tickTx s.cfg.tSendTimeout s.tx[c] :=
  Vector.getElem_ofFn _

/-- Before INIT no counter runs. -/
theorem ticked_of_fresh (inv : Inv s) (fresh : s.initDone = false) : ticked s = s := by
  obtain ⟨-, tx, -, -, -, -, -, -, -, ports⟩ := inv.beforeInit fresh
  have txSame : (Vector.ofFn fun c : Fin 8 => tickTx s.cfg.tSendTimeout s.tx[c]) = s.tx := by
    rw [tx]
    refine Vector.ext fun k hk => ?_
    simp only [Vector.getElem_ofFn, Vector.getElem_replicate, Fin.getElem_fin]
    rfl
  have portsSame : s.ports.map tickPort = s.ports := by
    rw [ports, List.map_replicate]
    rfl
  rw [ticked, txSame, portsSame]

theorem Inv.tickAll (inv : Inv s) : Inv (ticked s) := by
  by_cases init : s.initDone = true
  · have ports : Inv { s with ports := s.ports.map tickPort } :=
      inv.of_ports init rfl (List.length_map _) fun q x port =>
        ⟨tickPort x, by rw [List.getElem?_map, port, Option.map_some], portKeeps_tick (inv.portKeeps_self port)⟩
    refine ports.of_tx init rfl (fun c => ?_) (fun c granted => ?_) (fun c sends free => ?_) fun c => ?_
    all_goals
      obtain ⟨state, port, word, elapsed⟩ := tickTx_keeps s.cfg.tSendTimeout s.tx[c]
      rw [ticked_tx]
    · rw [state, port]
      exact ⟨Iff.rfl, rfl⟩
    · rw [state]
      exact inv.grant c granted
    · rw [ticked_tx, state] at sends
      rw [word]
      exact inv.word c sends free
    · obtain ⟨wordLe, elapsedLe⟩ := inv.ranges.1 c
      exact ⟨word ▸ wordLe, elapsed elapsedLe⟩
  · rw [ticked_of_fresh inv (Bool.eq_false_iff.2 init)]
    exact inv

/-- The end of a clear run grows by the write that is appended. -/
theorem replicate_suffix_append {c : Config} {ag : Issuer} {o k : Nat} {v : Word} {h : List Record} (inWindow : o < 0x24)
    (run : List.replicate k (Record.mmio ag .write (c.regBase + o) v) <:+ regAccesses c ag h) :
    List.replicate (k + 1) (Record.mmio ag .write (c.regBase + o) v) <:+
      regAccesses c ag (h ++ [.mmio ag .write (c.regBase + o) v]) := by
  have own : regAccesses c ag [.mmio ag .write (c.regBase + o) v] = [.mmio ag .write (c.regBase + o) v] := by
    simp [regAccesses, isRegAccess, inRegWindow_offset c inWindow]
  rw [regAccesses_append, own, List.replicate_succ']
  exact List.suffix_append_self_iff.2 run

theorem afterClear_eq_clearing {n m : Fin clearRetryCount} (h : afterClear n = .clearing m) : m.val = n.val + 1 := by
  unfold afterClear at h
  split at h <;> cases h
  rfl

theorem invDemux_idle (idle : t.dmxState = .idle) : InvDemux t := by
  refine ⟨fun running => absurd idle running, ?_⟩
  rw [idle]
  rintro (⟨k, h⟩ | h | h) <;> cases h

theorem clearRun_idle (idle : t.dmxState = .idle) : InvClearRun t :=
  clearRun_off fun n h => by rw [idle] at h; cases h

/-- An invocation that ends leaves the demultiplexer idle, whatever it saved. -/
theorem Inv.of_idle (inv : Inv s) (running : s.dmxState ≠ .idle) (frame : { s with
      c2dStat := t.c2dStat, d2cStat := t.d2cStat, dmxState := t.dmxState, dmxValid := t.dmxValid, dmxIdx := t.dmxIdx
      dmxMask := t.dmxMask, dmxWords := t.dmxWords, history := t.history } = t) (idle : t.dmxState = .idle) : Inv t :=
  inv.of_demux (inv.initDone_of_running running) frame (invDemux_idle idle) (clearRun_idle idle)

/-- A stand-alone access is the peer's, so that its record is no access of the DEMUX. -/
theorem Inv.log_of_access {i : Instr} {ag : Issuer} (inv : Inv s) (agent : agentOf i = issuerAgent ag)
    (noEvent : i.isEvent = false) (alone : standsAlone i = true) (dir : Dir) (a : Nat) (v : Word) :
    Inv (s.log (.mmio ag dir a v)) := by
  obtain rfl := standsAlone_access agent noEvent alone
  exact inv_log inv _ (quiet_cons_mmio nofun (quiet_nil _))

/-- Records that are no register access of the DEMUX. -/
theorem Inv.append (inv : Inv s) {l : List Record} (isQuiet : quiet s.cfg l) :
    Inv { s with history := s.history ++ l } :=
  ⟨inv.shape, inv.memory, inv.readySync, inv.grant, inv.word, inv.sendPort, inv.busyBound, inv.waitBound,
    inv.beforeInit, inv.ranges, inv.demux, clearRun_quiet inv.clearRun l isQuiet rfl rfl (fun _ h => h) rfl⟩

theorem Inv.initDone (inv : Inv s) : Inv { s with initDone := true } :=
  ⟨inv.shape, inv.memory, inv.readySync, inv.grant, inv.word, inv.sendPort, inv.busyBound, inv.waitBound,
    beforeInit_of_init rfl, inv.ranges, inv.demux, inv.clearRun⟩

theorem afterClear_cases (n : Fin clearRetryCount) : (∃ m, afterClear n = .clearing m) ∨ afterClear n = .dispatch := by
  unfold afterClear
  split
  · exact .inl ⟨_, rfl⟩
  · exact .inr rfl

theorem afterRead_cases (k : Fin 8) : (∃ j, afterRead k = .rxCopy j) ∨ afterRead k = .rxCommit := by
  unfold afterRead
  split
  · exact .inl ⟨_, rfl⟩
  · exact .inr rfl

/-- DMX_CLEAR appends its write to the run and counts on (R156). -/
theorem Inv.dmxClear {n : Fin clearRetryCount} {w : Word} (inv : Inv s) (state : s.dmxState = .clearing n) :
    Inv { s with
      d2cStat := w
      dmxState := afterClear n
      history := s.history ++ [.mmio .demux .write (s.cfg.regBase + 0x18) s.dmxMask] } := by
  have running : s.dmxState ≠ .idle := by rw [state]; nofun
  refine inv.of_demux (inv.initDone_of_running running) rfl ⟨fun _ => inv.demux.1 running, ?_⟩ fun m next => ?_
  · rcases afterClear_cases n with ⟨m, next⟩ | next <;> simp [next]
  · rw [afterClear_eq_clearing next]
    exact replicate_suffix_append (by decide) (inv.clearRun n state)

/-- Within a copy the saved position stays what R160 checked. -/
theorem Inv.of_copy (inv : Inv s)
    (copies : (∃ k, s.dmxState = .rxCopy k) ∨ s.dmxState = .rxCommit ∨ s.dmxState = .rearm)
    (frame : { s with dmxState := t.dmxState, dmxWords := t.dmxWords, history := t.history } = t)
    (next : (∃ k, t.dmxState = .rxCopy k) ∨ t.dmxState = .rxCommit ∨ t.dmxState = .rearm) : Inv t := by
  have running : s.dmxState ≠ .idle := by rcases copies with ⟨k, h⟩ | h | h <;> rw [h] <;> nofun
  rw [← frame]
  refine inv.of_demux (inv.initDone_of_running running) rfl ⟨fun _ => inv.demux.1 running, fun _ => inv.demux.2 copies⟩
    (clearRun_off fun n h => ?_)
  rcases next with ⟨k, next⟩ | next | next <;> cases next.symm.trans h

/-- DMX_RX_COMMIT writes the message and the flag (R162). -/
theorem Inv.dmxRxCommit {r : RxCh} (inv : Inv s) (state : s.dmxState = .rxCommit) (m : Msg) :
    Inv { s.setRx r { s.rx[r] with buf := m, ready := true } with dmxState := .rearm } := by
  have running : s.dmxState ≠ .idle := by rw [state]; nofun
  have committed := inv_rx inv (inv.initDone_of_running running) r { s.rx[r] with buf := m, ready := true }
    (inv.shape.2 r) fun _ => rfl
  exact committed.of_copy (.inr (.inl state)) rfl (.inr (.inr rfl))

/-- SYNC shows the flag to the listeners (R250). -/
theorem Inv.sync {r : RxCh} (inv : Inv s) (differs : s.rx[r].readySync ≠ s.rx[r].ready) :
    Inv (s.setRx r { s.rx[r] with readySync := true }) := by
  refine inv_rx inv (inv.initDone_of_ready differs) r _ (inv.shape.2 r) fun _ => ?_
  have notShown : s.rx[r].readySync ≠ true := fun shown => differs (shown.trans (inv.readySync r shown).symm)
  exact (Bool.eq_not.2 differs.symm).trans (by rw [Bool.eq_false_iff.2 notShown]; rfl)

/-- Every step of its own keeps the invariants. -/
theorem inv_of_steps {i : Instr} (inv : Inv s) (steps : StepsTo s i t) (alone : standsAlone i = true)
    (wf : i.wf = true) : Inv t := by
  have log_cmd (p : Nat) (j : Instr) : Inv (s.log (cmdRecord p j)) := inv_log inv _ (quiet_cons_cmd (quiet_nil _))
  cases steps with
  | answer code ready cmd issues => exact inv_answered inv issues
  | bind issues h => exact inv_answered (inv.bind issues.1 h) issues
  | send issues bound idle => exact (log_cmd _ _).latchSend issues bound idle _
  | receive issues cmd => exact inv_rx (inv_answered inv issues) issues.1 _ _ (inv.shape.2 _) nofun
  | wait issues bound =>
    obtain ⟨-, tFits⟩ := Bool.and_eq_true_iff.1 wf
    have tLt := of_decide_eq_true tFits
    refine inv_setPort (log_cmd _ _) issues.1 _ _ (fun x port => sendPending_of_mayIssue issues port) nofun ?_
      (Nat.zero_le _)
    intro r b waits
    cases waits
    exact ⟨bound, by omega⟩
  | registerListener issues =>
    exact inv_rx (inv_answered inv issues) issues.1 _ _ (List.length_set.trans (inv.shape.2 _)) (inv.readySync _)
  | cancel issues =>
    exact (inv.cancel issues _).append
      (quiet_append (quiet_cons_cmd (quiet_map_resp _ _ _)) (quiet_cons_resp (quiet_nil _)))
  | @regRead ag v r may =>
    exact inv.log_of_access (agentOf_regInstr ag .read v r) (isEvent_regInstr ..) alone _ _ _
  | @regWrite ag v r may =>
    exact (inv.log_of_access (agentOf_regInstr ag .write v r) (isEvent_regInstr ..) alone _ _ _).of_registers rfl
  | @bufRead ag i k may => exact inv.log_of_access (ag := ag) (i := .bufR ag i k) rfl rfl alone _ _ _
  | @bufWrite ag i k v may =>
    exact (inv.writeWord i k v).log_of_access (ag := ag) (i := .bufW ag i k v) rfl rfl alone _ _ _
  | dmxStart init idle =>
    refine inv.of_demux init rfl ⟨fun _ => rfl, ?_⟩ ?_
    · rintro (⟨k, h⟩ | h | h) <;> cases h
    · intro n h
      cases h
      exact List.nil_suffix
  | dmxClear state => exact inv.dmxClear state
  | dmxSpurious state | dmxTxackStale state | dmxTxackUnbound state | dmxRxUnbound state | dmxRearm state idx =>
    exact inv.of_idle (by rw [state]; nofun) rfl rfl
  | dmxTxack state waits =>
    have running : s.dmxState ≠ .idle := by rw [state]; nofun
    exact (inv_completeSend (code := .ok) inv (inv.initDone_of_running running) waits).of_idle running rfl rfl
  | dmxRxDispatch state valid idx bound =>
    have running : s.dmxState ≠ .idle := by rw [state]; nofun
    exact inv.of_demux (inv.initDone_of_running running) rfl
      ⟨fun _ => inv.demux.1 running, fun _ => ⟨valid, _, idx, bound⟩⟩ (clearRun_off nofun)
  | dmxRxRead state idx =>
    exact inv.of_copy (.inl ⟨_, state⟩) rfl ((afterRead_cases _).imp id .inl)
  | dmxRxCommit state idx => exact inv.dmxRxCommit state _
  | @txGrant c free sends =>
    refine inv.of_tx (inv.initDone_of_busy (by rw [sends]; nofun)) rfl (fun _ => ⟨Iff.rfl, rfl⟩) (fun d granted => ?_)
      (fun d sends _ => inv.word d sends (by rw [free]; nofun)) inv.ranges.1
    obtain rfl : c = d := Option.some.inj granted
    exact sends
  | @txWrite c k granted next =>
    have sends := inv.grant c granted
    have stored := inv_log (inv.writeWord (chTx c) k (wordOf s.tx[c].payload k))
      (.mmio .txeng .write (wordAddr s c.val s.tx[c].word) (wordOf s.tx[c].payload k))
      (quiet_cons_mmio nofun (quiet_nil _))
    exact stored.of_granted (inv.initDone_of_busy (by rw [sends]; nofun)) rfl granted rfl rfl k.isLt
      (inv.ranges.1 c).2 (.inl ⟨granted, sends⟩)
  | @txSet c granted =>
    have sends := inv.grant c granted
    have recorded := inv_log inv (.mmio .txeng .write (s.cfg.regBase + 0x04) (pmask (chTx c)))
      (quiet_cons_mmio nofun (quiet_nil _))
    exact recorded.of_granted (inv.initDone_of_busy (by rw [sends]; nofun)) rfl granted rfl rfl (Nat.zero_le _)
      (Nat.zero_le _) (.inr ⟨rfl, rfl⟩)
  | txTimeout waits =>
    exact inv_completeSend inv (inv.initDone_of_busy (by rw [waits]; nofun)) waits
  | waitFault port | waitTimeout port =>
    refine inv_respond inv (inv.initDone_of_port port nofun) fun x port' => ?_
    obtain rfl := Option.some.inj (port.symm.trans port')
    nofun
  | waitConsume port =>
    have init := inv.initDone_of_port port nofun
    refine inv_rx (inv_respond inv init fun x port' => ?_) init _ _ (inv.shape.2 _) nofun
    obtain rfl := Option.some.inj (port.symm.trans port')
    nofun
  | sync differs => exact (inv.sync differs).append (quiet_map_notify _ _)
  | tick => exact inv.tickAll
  | init fresh =>
    exact (inv_log inv.initDone (.mmio .init .write (s.cfg.regBase + 0x1c) 0xFFFFFFFF)
      (quiet_cons_mmio nofun (quiet_nil _))).of_registers rfl
  | reset => exact (inv_resetOf s.cfg).of_registers rfl

/-- The step of any slot keeps the invariants. -/
theorem stepOn_keeps_inv {sl : Slot} (inv : Inv s) (h : stepOn sl s = .next t) : Inv t := by
  have loaded : Inv (loadSlot sl s) := inv.of_registers rfl
  obtain ⟨-, rfl | ⟨_, _, _, _, -, -, rfl⟩ | ⟨i, decoded, alone, next⟩⟩ := stepOn_cases h
  · exact loaded
  · exact loaded.of_registers rfl
  · exact inv_of_steps loaded (stepsTo_of_exec next) alone (wf_of_decode decoded)

end

/-- Settles O50: a step is that of the next slot, and each slot's step keeps the invariants. -/
theorem stepKeepsTheInvariants : Obligations.StepKeepsTheInvariants := fun _ _ inv h => stepOn_keeps_inv inv h

end Sys2Proof.Machine
end

section
/-! A whole send (R192 to R194), over the state that the send was latched in. -/

namespace Sys2Proof.Machine

/-- The write of payload word `k` (R193). -/
def sendRecord (s : State) (c : TxCh) (k : Fin 8) : Record :=
  .mmio .txeng .write (wordAddr s c.val k.val) (wordOf s.tx[c].payload k)

/-- A state of a send: of `s`, only these four fields move. -/
def sendFields (s : State) (c : TxCh) (m : List Host.Cell) (tx : Vector TxChan 8) (h : List Record) : State :=
  { s with mem := m, txGrant := some c, tx := tx, history := h }

/-- The state after the grant of channel `c` and `k` payload writes that left the buffers as `m`. -/
def sendState (s : State) (c : TxCh) (k : Nat) (m : List Host.Cell) : State :=
  sendFields s c m (s.tx.set c.val { s.tx[c] with word := k } c.isLt)
    (s.history ++ (List.ofFn (sendRecord s c)).take k)

/-- The buffers `m` hold the first `k` words of the payload of channel `c`, and are else as in `s`. -/
structure HoldsWords (s : State) (c : TxCh) (k : Nat) (m : List Host.Cell) : Prop where
  inside : ∀ j : Fin 32, j.val < 4 * k → readByte { s with mem := m } (wordAddr s c.val 0 + j.val) = s.tx[c].payload[j]
  outside : ∀ a : Nat, ¬ (wordAddr s c.val 0 ≤ a ∧ a < wordAddr s c.val 0 + 32) →
    readByte { s with mem := m } a = readByte s a

variable {s : State} {c : TxCh} {k : Nat} {m : List Host.Cell}

theorem sendState_chan (s : State) (c : TxCh) (k : Nat) (m : List Host.Cell) :
    (sendState s c k m).tx[c] = { s.tx[c] with word := k } :=
  Vector.getElem_set_self ..

/-- The state right after the grant. -/
theorem sendState_zero (fresh : s.tx[c].word = 0) : sendState s c 0 s.mem = { s with txGrant := some c } := by
  have same : s.tx.set c.val { s.tx[c] with word := 0 } c.isLt = s.tx := by
    rw [← fresh]
    exact Vector.set_getElem_self c.isLt
  rw [sendState, same, List.take_zero, List.append_nil]
  rfl

theorem holdsWords_zero : HoldsWords s c 0 s.mem := ⟨fun _ noByte => absurd noByte (Nat.not_lt_zero _), fun _ _ => rfl⟩

/-- One TX_WRITE. -/
theorem exec_txWrite_sendState (s : State) (c : TxCh) (k : Fin 8) (m : List Host.Cell) :
    exec .txWrite (sendState s c k.val m) = .next (sendState s c (k.val + 1)
      (Memory.writeWord m (wordAddr s c.val k.val) (wordOf s.tx[c].payload k))) := by
  have set : (sendState s c k.val m).tx.set c.val { s.tx[c] with word := k.val + 1 } c.isLt =
      s.tx.set c.val { s.tx[c] with word := k.val + 1 } c.isLt := Vector.set_set ..
  have records : (sendState s c k.val m).history ++ [sendRecord s c k] =
      s.history ++ (List.ofFn (sendRecord s c)).take (k.val + 1) := by
    rw [List.take_add_one, List.getElem?_ofFn, dif_pos k.isLt, ← List.append_assoc]
    rfl
  exact (exec_txWrite_eq _ c _ k rfl (sendState_chan ..) rfl).trans
    (congrArg Host.Outcome.next (congrArg₂ (sendFields s c _) set records))

theorem HoldsWords.writeWord {k : Fin 8} (holds : HoldsWords s c k.val m) :
    HoldsWords s c (k.val + 1) (Memory.writeWord m (wordAddr s c.val k.val) (wordOf s.tx[c].payload k)) := by
  have start : wordAddr s c.val k.val = wordAddr s c.val 0 + 4 * k.val := rfl
  have away {a : Nat} (outside : ¬ (wordAddr s c.val k.val ≤ a ∧ a < wordAddr s c.val k.val + 4)) :=
    readByte_outside_writeWord (s := { s with mem := m })
      (t := { s with mem := Memory.writeWord m (wordAddr s c.val k.val) (wordOf s.tx[c].payload k) }) rfl rfl outside
  refine ⟨fun j written => ?_, fun a outside => (away (by omega)).trans (holds.outside a outside)⟩
  by_cases new : 4 * k.val ≤ j.val
  · obtain ⟨i, at_i⟩ := Nat.exists_eq_add_of_le new
    have inWord : i < 4 := by omega
    calc _ = readByte _ (wordAddr s c.val k.val + i) := by rw [start, at_i, Nat.add_assoc]
      _ = (wordOf s.tx[c].payload k).extractLsb' (8 * i) 8 :=
        readByte_inside_writeWord (s := { s with mem := m }) rfl inWord
      _ = s.tx[c].payload[j] := by
        rw [← leByte_eq_extract _ inWord, leByte_wordOf]
        simp only [Fin.getElem_fin, at_i]
  · exact (away (by omega)).trans (holds.inside j (by omega))

/-- Any number of TX_WRITEs that the payload still has words for. -/
theorem runSteps_txWrites (n : Nat) (more : k + n ≤ 8) (holds : HoldsWords s c k m) :
    ∃ m', runSteps (List.replicate n .txWrite) (sendState s c k m) = .next (sendState s c (k + n) m') ∧
      HoldsWords s c (k + n) m' := by
  induction n generalizing k m with
  | zero => exact ⟨m, rfl, holds⟩
  | succ n ih =>
    have next : k < 8 := by omega
    obtain ⟨m', runs, holds⟩ := ih (k := k + 1) (by omega) (HoldsWords.writeWord (k := ⟨k, next⟩) holds)
    rw [show k + (n + 1) = k + 1 + n by omega]
    exact ⟨m', (runSteps_cons (exec_txWrite_sendState s c ⟨k, next⟩ m)).trans runs, holds⟩

/-- The buffer that holds all eight words holds the payload. -/
theorem HoldsWords.bufMsg_eq (holds : HoldsWords s c 8 m) : bufMsg { s with mem := m } (chTx c) = s.tx[c].payload := by
  refine Vector.ext fun j inBuf => ?_
  rw [bufMsg, Vector.getElem_ofFn]
  exact holds.inside ⟨j, inBuf⟩ inBuf

/-- Settles O43: the grant, the payload word by word, and the set write over what they leave. -/
theorem sendSequenceFillsTheBufferThenNotifies : Obligations.SendSequenceFillsTheBufferThenNotifies := by
  intro s c free sends fresh
  obtain ⟨m, writes, holds⟩ := runSteps_txWrites 8 (Nat.le_refl _) (holdsWords_zero (s := s) (c := c))
  have granted : exec (.txGrant c) s = .next (sendState s c 0 s.mem) :=
    (exec_txGrant_eq free sends fresh).trans (by rw [sendState_zero fresh])
  have set := exec_txSet_eq (s := sendState s c 8 m) rfl (congrArg TxChan.word (sendState_chan s c 8 m))
  refine ⟨_, (runSteps_append ((runSteps_cons granted).trans writes)).trans (runSteps_cons set), holds.bufMsg_eq,
    holds.outside, ?_⟩
  have chan : (sendState s c 8 m).tx.set c.val
      { (sendState s c 8 m).tx[c] with state := .waitAck, elapsed := 0, word := 0 } c.isLt =
      s.tx.set c.val { s.tx[c] with state := .waitAck, elapsed := 0, word := 0 } c.isLt := by
    rw [sendState_chan]
    exact Vector.set_set ..
  have records : (sendState s c 8 m).history = s.history ++ List.ofFn (sendRecord s c) :=
    congrArg (s.history ++ ·) (List.take_of_length_le (by rw [List.length_ofFn]))
  rw [chan, records, ← free]
  rfl

end Sys2Proof.Machine
end

section
/-! A whole arrival invocation (R155 to R163): one equation for each part, and their composition. -/

namespace Sys2Proof.Machine
variable {s : State} {r : RxCh}

/-- The encoder finds a position that has fired while none below it has. -/
theorem prioEnc_eq {w : Word} {p : Fin 16} (hit : fired w p = true) (lowest : ∀ q, q < p → fired w q = false) :
    prioEnc w = (true, p) := by
  have valid := (prioEnc_valid_iff w).2 ⟨p, hit⟩
  obtain ⟨found, below⟩ := prioEnc_lowest valid
  refine Prod.ext valid (le_antisymm ?_ ?_) <;> refine not_lt.1 fun lower => ?_
  · exact Bool.false_ne_true ((below p lower).symm.trans hit)
  · exact Bool.false_ne_true ((lowest _ lower).symm.trans found)

/-- DMX_START when the encoder finds `p` (R155). -/
theorem exec_dmxStart_of_prioEnc {p : Fin 16} (init : s.initDone = true) (idle : s.dmxState = .idle)
    (trigger : irqCpu s = true) (found : prioEnc s.d2cStat = (true, p)) :
    exec .dmxStart s = .next { s with
      dmxValid := true
      dmxIdx := p
      dmxMask := pmask p
      dmxState := .clearing 0
      history := s.history ++ [.mmio .demux .read (s.cfg.regBase + 0x20) s.d2cStat] } := by
  rw [exec_dmxStart_eq init idle (.inl trigger), enterInvocation, found]
  rfl

/-- The words of a buffer are the words of its message. -/
theorem readWord_eq_wordOf (s : State) (i : Fin 16) (k : Fin 8) :
    readWord s (wordAddr s i.val k.val) = wordOf (bufMsg s i) k := by
  have byte (j : Nat) (h : 4 * k.val + j < 32) :
      (bufMsg s i)[4 * k.val + j] = readByte s (wordAddr s i.val k.val + j) := by
    rw [bufMsg, Vector.getElem_ofFn]
    exact congrArg (readByte s) (Nat.add_assoc ..).symm
  rw [wordOf, byte, byte, byte]
  exact congrArg (fun b => le32 b _ _ _) (byte 0 (by omega)).symm

/-- Staging all words of a buffer and joining them gives its message. -/
theorem msgOf_readWords (s : State) (i : Fin 16) :
    msgOf (Vector.ofFn fun k : Fin 8 => readWord s (wordAddr s i.val k.val)) = bufMsg s i := by
  simp only [readWord_eq_wordOf]
  exact msgOf_words _

/-- A state of an arrival invocation on channel `r`: of `s`, only what R155 saves and these fields move. -/
def arrivalState (s : State) (r : RxCh) (d : Draws) (st : DmxState) (stat : Word) (words : Vector Word 8)
    (h : List Record) : State :=
  { s with
    d2cStat := stat
    dmxState := st
    dmxValid := true
    dmxIdx := ⟨r.val, by omega⟩
    dmxMask := pmask ⟨r.val, by omega⟩
    dmxWords := words
    draws := d
    history := h }

section
variable (s : State) (r : RxCh) (d0 : Draws) (stat : Word) (words : Vector Word 8) (h : List Record)
  (l : List (Instr × Draws))

theorem runWith_dmxStart_arrival (d : Draws) (init : s.initDone = true) (idle : s.dmxState = .idle)
    (trigger : irqCpu s = true) (found : prioEnc s.d2cStat = (true, ⟨r.val, by omega⟩)) :
    runWith ((.dmxStart, d) :: l) s = runWith l (arrivalState s r d (.clearing 0) s.d2cStat s.dmxWords
      (s.history ++ [.mmio .demux .read (s.cfg.regBase + 0x20) s.d2cStat])) :=
  runWith_cons l (exec_dmxStart_of_prioEnc (s := { s with draws := d }) init idle trigger found)

theorem runWith_clears_arrival (d1 d2 d3 : Draws) :
    runWith ((.dmxClear, d1) :: (.dmxClear, d2) :: (.dmxClear, d3) :: l)
        (arrivalState s r d0 (.clearing 0) stat words h) =
      runWith l (arrivalState s r d3 .dispatch (stat &&& ~~~pmask ⟨r.val, by omega⟩) words
        (h ++ List.replicate 3 (regWriteRecord .demux 0x18 (pmask ⟨r.val, by omega⟩) s))) :=
  runWith_clearRun (s := arrivalState s r d0 (.clearing 0) stat words h) d1 d2 d3 l rfl

theorem runWith_dispatch_arrival (d : Draws) (bound : s.bound[r.val + 8] = true) :
    runWith ((.dmxRxDispatch, d) :: l) (arrivalState s r d0 .dispatch stat words h) =
      runWith l (arrivalState s r d (.rxCopy 0) stat words h) :=
  runWith_cons l (exec_dmxRxDispatch_eq (s := arrivalState s r d .dispatch stat words h) (r := r)
    (dispatchTarget_arrival rfl rfl rfl) bound)

theorem runWith_copy_arrival (d1 d2 d3 d4 d5 d6 d7 d8 : Draws) :
    runWith ((.dmxRxRead, d1) :: (.dmxRxRead, d2) :: (.dmxRxRead, d3) :: (.dmxRxRead, d4) :: (.dmxRxRead, d5) ::
        (.dmxRxRead, d6) :: (.dmxRxRead, d7) :: (.dmxRxRead, d8) :: l)
        (arrivalState s r d0 (.rxCopy 0) stat words h) =
      runWith l (arrivalState s r d8 .rxCommit stat
        (Vector.ofFn fun k : Fin 8 => readWord s (wordAddr s (r.val + 8) k.val)) (h ++ (List.range 8).map (copyRecord s r))) :=
  runWith_copy (s := arrivalState s r d0 (.rxCopy 0) stat words h) d1 d2 d3 d4 d5 d6 d7 d8 l rfl rfl

theorem runWith_commit_arrival (d : Draws) :
    runWith ((.dmxRxCommit, d) :: l) (arrivalState s r d0 .rxCommit stat words h) = runWith l (arrivalState
      (s.setRx r { s.rx[r] with buf := msgOf words, ready := true }) r d .rearm stat words h) :=
  runWith_cons l (exec_dmxRxCommit_eq (s := arrivalState s r d .rxCommit stat words h) rfl rfl)

theorem runWith_rearm_arrival (d : Draws) :
    runWith [(.dmxRearm, d)] (arrivalState s r d0 .rearm stat words h) = .next (arrivalState
      { s with c2dStat := s.c2dStat ||| pmask (chRx r) } r d .idle stat words
      (h ++ [regWriteRecord .demux 0x04 (pmask (chRx r)) s])) :=
  runWith_cons [] (exec_dmxRearm_eq (s := arrivalState s r d .rearm stat words h) (r := r) rfl rfl)

end

/-- Settles O38: start, clear run, dispatch, copy, commit and re-arm, each over what the one before leaves. -/
theorem arrivalInvocationDeliversTheBuffer : Obligations.ArrivalInvocationDeliversTheBuffer := by
  intro s r d init idle trigger hit lowest bound
  have found : prioEnc s.d2cStat = (true, ⟨r.val, by omega⟩) :=
    prioEnc_eq ((fired_iff ..).2 hit) fun q lower => (not_fired_iff ..).2 (lowest q.val lower)
  have message : msgOf (Vector.ofFn fun k : Fin 8 => readWord s (wordAddr s (r.val + 8) k.val)) = bufMsg s (chRx r) :=
    msgOf_readWords s (chRx r)
  rw [runWith_dmxStart_arrival _ _ _ _ init idle trigger found, runWith_clears_arrival,
    runWith_dispatch_arrival _ _ _ _ _ _ _ _ bound, runWith_copy_arrival, runWith_commit_arrival, message,
    runWith_rearm_arrival, arrivalState, idle]
  rfl

end Sys2Proof.Machine
end

section
/-! Fair runs of the send side (R13, R192, R197): the grant, the notification and the timeout. -/

namespace Sys2Proof.Machine
variable {sched : Nat → Slot} {σ : Nat → State} {c : TxCh} {n m : Nat}

/-! ## Along a run -/

theorem run_inv (run : IsRun sched σ) (inv : Inv (σ n)) (later : n ≤ m) : Inv (σ m) := by
  induction m, later using Nat.le_induction with
  | base => exact inv
  | succ m _ ih => exact stepOn_keeps_inv ih (run m)

/-- The parameters stay. -/
theorem run_cfg (run : IsRun sched σ) (m : Nat) : (σ (m + 1)).cfg = (σ m).cfg := by
  rcases stepOn_taken (run m) with ⟨i, -, -, next⟩ | next | next
  · exact cfg_of_steps (s := loadSlot (sched m) (σ m)) (stepsTo_of_exec next)
  · rw [next]; rfl
  · rw [next]; rfl

theorem takes_enabled {i : Instr} (run : IsRun sched σ) (takes : Takes sched σ m i) :
    Enabled i (loadSlot (sched m) (σ m)) :=
  enabled_of_next (takes_exec run takes)

/-- Weak fairness as it is used: what enables a step of the block holds until the step is taken or an exit comes. -/
theorem exists_takes_of_stays {i : Instr} {P : Nat → Prop} {exit : Nat → Prop} (fair : FairRun sched σ)
    (enabled : ∀ m, n ≤ m → P m → BlockEnabled i (σ m))
    (stays : ∀ m, n ≤ m → P m → Takes sched σ m i ∨ exit m ∨ P (m + 1)) (start : P n) :
    ∃ m, n ≤ m ∧ P m ∧ (Takes sched σ m i ∨ exit m) := by
  by_contra never
  have always (m : Nat) (later : n ≤ m) : P m := by
    induction m, later using Nat.le_induction with
    | base => exact start
    | succ m later ih =>
      rcases stays m later ih with takes | leaves | stay
      · exact absurd ⟨m, later, ih, .inl takes⟩ never
      · exact absurd ⟨m, later, ih, .inr leaves⟩ never
      · exact stay
  obtain ⟨m, later, takes⟩ := fair.weak i n fun m later => enabled m later (always m later)
  exact never ⟨m, later, always m later, .inl takes⟩

/-! ## From the grant to the notification -/

/-- The grant is with channel `c`, which has written `k` words. -/
structure Granted (c : TxCh) (k : Nat) (s : State) : Prop where
  granted : s.txGrant = some c
  word : s.tx[c].word = k

/-- What a step can do to the granted channel. -/
theorem Granted.next {k : Nat} (run : IsRun sched σ) (inv : Inv (σ m)) (here : Granted c k (σ m)) :
    Takes sched σ m .reset ∨ Takes sched σ m .txSet ∨ Granted c k (σ (m + 1)) ∨
      Takes sched σ m .txWrite ∧ Granted c (k + 1) (σ (m + 1)) := by
  obtain ⟨granted, word⟩ := here
  have sends := inv.grant c granted
  have notIdle : (σ m).tx[c].state ≠ .idle := by rw [sends]; nofun
  have notWaiting : (σ m).tx[c].state ≠ .waitAck := by rw [sends]; nofun
  rcases run_txGrant run m with keeps | ⟨d, -, free, -⟩ | ⟨set, -⟩ | reset
  · have granted' := keeps.trans granted
    rcases run_tx run c m with same | ⟨p, msg, -, idle⟩ | ⟨write, -, wrote⟩ | ⟨set, -⟩ | ⟨-, waits, -⟩ |
      ⟨-, -, -, -, waits⟩ | ⟨-, waits, -⟩ | reset
    · exact .inr (.inr (.inl ⟨granted', (congrArg TxChan.word same).trans word⟩))
    · exact absurd idle notIdle
    · exact .inr (.inr (.inr ⟨write, granted', (congrArg TxChan.word wrote).trans (congrArg (· + 1) word)⟩))
    · exact .inr (.inl set)
    · exact absurd waits notWaiting
    · exact absurd waits notWaiting
    · exact absurd waits notWaiting
    · exact .inl reset
  · cases granted.symm.trans free
  · exact .inr (.inl set)
  · exact .inl reset

/-- TX_SET is taken with all eight words written. -/
theorem Granted.whole_of_takes {k : Nat} (run : IsRun sched σ) (here : Granted c k (σ m))
    (set : Takes sched σ m .txSet) : k = 8 := by
  obtain ⟨d, granted, whole⟩ := takes_enabled run set
  obtain rfl := Option.some.inj (here.granted.symm.trans granted)
  exact here.word.symm.trans whole

/-- TX_WRITE is taken with a word left, and writes it. -/
theorem Granted.write_of_takes {k : Nat} (run : IsRun sched σ) (here : Granted c k (σ m))
    (write : Takes sched σ m .txWrite) : k < 8 ∧ Granted c (k + 1) (σ (m + 1)) := by
  obtain ⟨d, j, granted, word, next⟩ := next_txWrite (takes_exec run write)
  obtain rfl := Option.some.inj (here.granted.symm.trans granted)
  obtain rfl : j.val = k := word.symm.trans here.word
  rw [next]
  exact ⟨j.isLt, granted, congrArg TxChan.word (Vector.getElem_set_self ..)⟩

/-- TX_SET ends the grant. -/
theorem free_of_takes_txSet (run : IsRun sched σ) (set : Takes sched σ m .txSet) : (σ (m + 1)).txGrant = none := by
  obtain ⟨d, -, -, next⟩ := next_txSet (takes_exec run set)
  rw [next]

/-- A granted channel is notified, unless a RESET comes: the words that are left are written one by one. -/
theorem Granted.exists_txSet {k : Nat} (fair : FairRun sched σ) (left : Nat) (inv : Inv (σ n))
    (here : Granted c k (σ n)) (words : k + left = 8) :
    ∃ m, n ≤ m ∧ ((σ m).txGrant = some c ∧ Takes sched σ m .txSet ∨ Takes sched σ m .reset) := by
  induction left generalizing n k with
  | zero =>
    obtain rfl : k = 8 := words
    have stays (m : Nat) (later : n ≤ m) (here : Granted c 8 (σ m)) :
        Takes sched σ m .txSet ∨ Takes sched σ m .reset ∨ Granted c 8 (σ (m + 1)) := by
      rcases here.next fair.run (run_inv fair.run inv later) with reset | set | same | ⟨write, -⟩
      · exact .inr (.inl reset)
      · exact .inl set
      · exact .inr (.inr same)
      · exact absurd (here.write_of_takes fair.run write).1 (Nat.lt_irrefl 8)
    obtain ⟨m, later, here, event⟩ := exists_takes_of_stays (i := .txSet) (P := fun m => Granted c 8 (σ m)) fair
      (fun m _ here => ⟨rfl, c, here.granted, here.word⟩) stays here
    exact ⟨m, later, event.imp (fun set => ⟨here.granted, set⟩) id⟩
  | succ left ih =>
    have stays (m : Nat) (later : n ≤ m) (here : Granted c k (σ m)) :
        Takes sched σ m .txWrite ∨ Takes sched σ m .reset ∨ Granted c k (σ (m + 1)) := by
      rcases here.next fair.run (run_inv fair.run inv later) with reset | set | same | ⟨write, -⟩
      · exact .inr (.inl reset)
      · have whole := here.whole_of_takes fair.run set
        omega
      · exact .inr (.inr same)
      · exact .inl write
    have more : k < 8 := by omega
    obtain ⟨m, later, here, write | reset⟩ := exists_takes_of_stays (i := .txWrite)
      (P := fun m => Granted c k (σ m)) fair
      (fun m _ here => ⟨rfl, c, here.granted, here.word.trans_lt more⟩) stays here
    · obtain ⟨m', later', event⟩ := ih (n := m + 1) (run_inv fair.run inv (Nat.le_succ_of_le later))
        (here.write_of_takes fair.run write).2 (by omega)
      exact ⟨m', by omega, event⟩
    · exact ⟨m, later, .inr reset⟩

/-! ## From the latched send to the grant -/

/-- A channel that sends without the grant stays so until it is granted or a RESET comes. -/
theorem sending_next (run : IsRun sched σ) (sends : (σ m).tx[c].state = .sending) (waits : (σ m).txGrant ≠ some c)
    (noReset : ¬ Takes sched σ m .reset) : (σ (m + 1)).tx[c].state = .sending := by
  have notIdle : (σ m).tx[c].state ≠ .idle := by rw [sends]; nofun
  have notWaiting : (σ m).tx[c].state ≠ .waitAck := by rw [sends]; nofun
  rcases run_tx run c m with same | ⟨p, msg, -, idle⟩ | ⟨-, granted, -⟩ | ⟨-, granted⟩ | ⟨-, waits, -⟩ |
    ⟨-, -, -, -, waits⟩ | ⟨-, waits, -⟩ | reset
  · exact (congrArg TxChan.state same).trans sends
  · exact absurd idle notIdle
  · exact absurd granted waits
  · exact absurd granted waits
  · exact absurd waits notWaiting
  · exact absurd waits notWaiting
  · exact absurd waits notWaiting
  · exact absurd reset noReset

/-- Again and again no grant is outstanding, while no RESET comes. -/
theorem exists_free_grant (fair : FairRun sched σ) (inv : Inv (σ n)) (noReset : ∀ m, n ≤ m → ¬ Takes sched σ m .reset) :
    ∃ m, n ≤ m ∧ (σ m).txGrant = none := by
  cases grant : (σ n).txGrant with
  | none => exact ⟨n, le_rfl, grant⟩
  | some d =>
    have inRange := (inv.ranges.1 d).1
    obtain ⟨m, later, ⟨-, set⟩ | reset⟩ :=
      Granted.exists_txSet fair (8 - (σ n).tx[d].word) inv ⟨grant, rfl⟩ (by omega)
    · exact ⟨m + 1, by omega, free_of_takes_txSet fair.run set⟩
    · exact absurd reset (noReset m later)

/-- A channel that sends is granted, unless a RESET comes. -/
theorem exists_grant_of_sending (fair : FairRun sched σ) (inv : Inv (σ n)) (sends : (σ n).tx[c].state = .sending) :
    ∃ m, n ≤ m ∧ ((σ m).txGrant = some c ∨ Takes sched σ m .reset) := by
  by_contra never
  have waits (m : Nat) (later : n ≤ m) : (σ m).txGrant ≠ some c := fun granted => never ⟨m, later, .inl granted⟩
  have noReset (m : Nat) (later : n ≤ m) : ¬ Takes sched σ m .reset := fun reset => never ⟨m, later, .inr reset⟩
  have stays (m : Nat) (later : n ≤ m) : (σ m).tx[c].state = .sending := by
    induction m, later using Nat.le_induction with
    | base => exact sends
    | succ m later ih => exact sending_next fair.run ih (waits m later) (noReset m later)
  have grantable (m : Nat) (later : n ≤ m) : ∃ k, m ≤ k ∧ Enabled (.txGrant c) (σ k) := by
    obtain ⟨k, after, free⟩ := exists_free_grant fair (run_inv fair.run inv later) fun k after => noReset k (by omega)
    have inv' := run_inv fair.run inv (later.trans after)
    exact ⟨k, after, free, stays k (by omega), inv'.word c (stays k (by omega)) (waits k (by omega))⟩
  obtain ⟨m, later, takes⟩ := fair.strong c n grantable
  obtain ⟨-, -, -, next⟩ := next_txGrant (takes_exec fair.run takes)
  exact waits (m + 1) (by omega) (by rw [next])

/-! ## From the notification to the timeout -/

/-- Channel `c` awaits an ack for port `p`, and none is latched or in progress. -/
structure AwaitsAck (c : TxCh) (p : Nat) (s : State) : Prop where
  state : s.tx[c].state = .waitAck
  port : s.tx[c].port = p
  noAck : noAck c s

/-- Step `m` neither is a RESET nor sets the ack position of channel `c`. -/
def NoAckStep (sched : Nat → Slot) (σ : Nat → State) (c : TxCh) (m : Nat) : Prop :=
  ¬ Takes sched σ m .reset ∧ ∀ ag v, Takes sched σ m (.d2cSetW ag v) → (v >>> (2 * (c.val + 8))) &&& 0x3 = 0

variable {p : Nat}

/-- Such a channel takes its timeout, keeps its counter or counts a tick. -/
theorem AwaitsAck.next (run : IsRun sched σ) (inv : Inv (σ m)) (awaits : AwaitsAck c p (σ m))
    (clean : NoAckStep sched σ c m) :
    Takes sched σ m (.txTimeout c) ∨ AwaitsAck c p (σ (m + 1)) ∧
      ((σ (m + 1)).tx[c].elapsed = (σ m).tx[c].elapsed ∨ Takes sched σ m .tick ∧
        (σ (m + 1)).tx[c].elapsed = min ((σ m).tx[c].elapsed + 1) (σ m).cfg.tSendTimeout) := by
  obtain ⟨waits, port, quietAck⟩ := awaits
  obtain ⟨noReset, noSet⟩ := clean
  have quietAck' := run_noAck run c m quietAck noSet
  have notGranted : (σ m).txGrant ≠ some c := fun granted => by cases waits.symm.trans (inv.grant c granted)
  rcases run_tx run c m with same | ⟨q, msg, -, idle⟩ | ⟨-, granted, -⟩ | ⟨-, granted⟩ | ⟨out, -, -⟩ |
    ⟨-, dispatch, valid, idx, -⟩ | ⟨tick, -, counted⟩ | reset
  · exact .inr ⟨⟨(congrArg TxChan.state same).trans waits, (congrArg TxChan.port same).trans port, quietAck'⟩,
      .inl (congrArg TxChan.elapsed same)⟩
  · cases waits.symm.trans idle
  · exact absurd granted notGranted
  · exact absurd granted notGranted
  · exact .inl out
  · exact absurd idx (quietAck.2 (by rw [dispatch]; nofun) valid)
  · exact .inr ⟨⟨(congrArg TxChan.state counted).trans waits, (congrArg TxChan.port counted).trans port, quietAck'⟩,
      .inr ⟨tick, congrArg TxChan.elapsed counted⟩⟩
  · exact absurd reset noReset

/-- A TICK counts. -/
theorem elapsed_of_takes_tick (run : IsRun sched σ) (waits : (σ m).tx[c].state = .waitAck)
    (tick : Takes sched σ m .tick) :
    (σ (m + 1)).tx[c].elapsed = min ((σ m).tx[c].elapsed + 1) (σ m).cfg.tSendTimeout := by
  rw [next_tick (takes_exec run tick)]
  calc _ = (tickTx (σ m).cfg.tSendTimeout (σ m).tx[c]).elapsed := congrArg TxChan.elapsed (Vector.getElem_ofFn _)
    _ = _ := congrArg TxChan.elapsed (if_pos waits)

/-- The timeout is taken: the ticks that are left come one by one, and then TX_TIMEOUT stays enabled. -/
theorem exists_txTimeout (fair : FairRun sched σ) (left : Nat) (inv : Inv (σ n))
    (clean : ∀ m, n ≤ m → NoAckStep sched σ c m) (awaits : AwaitsAck c p (σ n))
    (due : (σ n).cfg.tSendTimeout ≤ (σ n).tx[c].elapsed + left) : ∃ m, n ≤ m ∧ Takes sched σ m (.txTimeout c) := by
  induction left generalizing n with
  | zero =>
    have stays (m : Nat) (later : n ≤ m) (here : AwaitsAck c p (σ m) ∧ (σ m).cfg.tSendTimeout ≤ (σ m).tx[c].elapsed) :
        Takes sched σ m (.txTimeout c) ∨ False ∨
          AwaitsAck c p (σ (m + 1)) ∧ (σ (m + 1)).cfg.tSendTimeout ≤ (σ (m + 1)).tx[c].elapsed := by
      obtain ⟨awaits, due⟩ := here
      rcases awaits.next fair.run (run_inv fair.run inv later) (clean m later) with
        out | ⟨awaits', same | ⟨-, counted⟩⟩
      · exact .inl out
      · exact .inr (.inr ⟨awaits', by rw [run_cfg fair.run, same]; exact due⟩)
      · exact .inr (.inr ⟨awaits', by rw [run_cfg fair.run, counted]; omega⟩)
    obtain ⟨m, later, -, out | never⟩ := exists_takes_of_stays (i := .txTimeout c)
      (P := fun m => AwaitsAck c p (σ m) ∧ (σ m).cfg.tSendTimeout ≤ (σ m).tx[c].elapsed) fair
      (fun m _ here => ⟨rfl, here.1.state, here.2⟩) stays ⟨awaits, due⟩
    · exact ⟨m, later, out⟩
    · exact never.elim
  | succ left ih =>
    have stays (m : Nat) (later : n ≤ m)
        (here : AwaitsAck c p (σ m) ∧ (σ m).cfg.tSendTimeout ≤ (σ m).tx[c].elapsed + (left + 1)) :
        Takes sched σ m .tick ∨ Takes sched σ m (.txTimeout c) ∨
          AwaitsAck c p (σ (m + 1)) ∧ (σ (m + 1)).cfg.tSendTimeout ≤ (σ (m + 1)).tx[c].elapsed + (left + 1) := by
      obtain ⟨awaits, due⟩ := here
      rcases awaits.next fair.run (run_inv fair.run inv later) (clean m later) with
        out | ⟨awaits', same | ⟨tick, -⟩⟩
      · exact .inr (.inl out)
      · exact .inr (.inr ⟨awaits', by rw [run_cfg fair.run, same]; exact due⟩)
      · exact .inl tick
    obtain ⟨m, later, ⟨awaits, due⟩, tick | out⟩ := exists_takes_of_stays (i := .tick)
      (P := fun m => AwaitsAck c p (σ m) ∧ (σ m).cfg.tSendTimeout ≤ (σ m).tx[c].elapsed + (left + 1)) fair
      (fun m _ _ => ⟨rfl, trivial⟩) stays ⟨awaits, due⟩
    · rcases awaits.next fair.run (run_inv fair.run inv later) (clean m later) with out | ⟨awaits', -⟩
      · exact ⟨m, later, out⟩
      · have counted := elapsed_of_takes_tick fair.run awaits.state tick
        obtain ⟨m', later', out⟩ := ih (n := m + 1) (run_inv fair.run inv (Nat.le_succ_of_le later))
          (fun k after => clean k (by omega)) awaits' (by rw [run_cfg fair.run, counted]; omega)
        exact ⟨m', by omega, out⟩
    · exact ⟨m, later, out⟩

/-- Only the timeout answers the port whose send awaits its ack. -/
theorem AwaitsAck.noResponse (run : IsRun sched σ) (inv : Inv (σ m)) (awaits : AwaitsAck c p (σ m))
    (noReset : ¬ Takes sched σ m .reset) (noTimeout : ¬ Takes sched σ m (.txTimeout c)) :
    NoResponse p (σ m) (σ (m + 1)) := by
  rcases stepOn_taken (run m) with ⟨i, takes, -, next⟩ | next | next
  · have pends := (inv.sendPort p c).2 ⟨by rw [awaits.state]; nofun, awaits.port⟩
    obtain ⟨x, port, pends⟩ := pends
    rcases responses_next next (fun reset => noReset (reset ▸ takes)) ⟨x, c, port, pends⟩ with
      quiet | ⟨d, code, waits, owner, cause, -⟩
    · exact quiet
    · obtain ⟨y, port', pends'⟩ := (inv.sendPort p d).2
        ⟨by rw [show (σ m).tx[d].state = _ from waits]; nofun, owner⟩
      obtain rfl := Option.some.inj (port.symm.trans port')
      obtain rfl : c = d := PortState.sendPending.inj (pends.symm.trans pends')
      rcases cause with ⟨rfl, -⟩ | ⟨rfl, idx⟩
      · exact absurd takes noTimeout
      · obtain ⟨dispatch, valid, -⟩ := takes_enabled run takes
        exact absurd idx (awaits.noAck.2 (by rw [show (σ m).dmxState = _ from dispatch]; nofun) valid)
  · exact noResponse_of_eq (by rw [next]; rfl)
  · exact noResponse_of_eq (by rw [next]; rfl)

/-- What holds while the timeout is not taken: the channel waits, its counter has gained no more than the ticks that
passed, and the port has no response. -/
theorem awaitsAck_until_timeout (run : IsRun sched σ) (inv : Inv (σ n)) (clean : ∀ m, n ≤ m → NoAckStep sched σ c m)
    (awaits : AwaitsAck c p (σ n)) (k : Nat) (noTimeout : ∀ j, j < k → ¬ Takes sched σ (n + j) (.txTimeout c)) :
    AwaitsAck c p (σ (n + k)) ∧ (σ (n + k)).cfg = (σ n).cfg ∧
      (σ (n + k)).tx[c].elapsed ≤ (σ n).tx[c].elapsed + ticks sched σ n k ∧ NoResponse p (σ n) (σ (n + k)) := by
  induction k with
  | zero => exact ⟨awaits, rfl, Nat.le_add_right .., noResponse_of_eq rfl⟩
  | succ k ih =>
    obtain ⟨awaits, cfg, elapsed, old, history, noneOld⟩ := ih fun j before => noTimeout j (by omega)
    have inv' := run_inv run inv (Nat.le_add_right n k)
    have noTimeout := noTimeout k (Nat.lt_succ_self k)
    obtain ⟨new, history', noneNew⟩ := awaits.noResponse run inv' (clean _ (Nat.le_add_right ..)).1 noTimeout
    have responses : NoResponse p (σ n) (σ (n + k + 1)) :=
      ⟨old ++ new, by rw [history', history, List.append_assoc], by rw [List.filter_append, noneOld, noneNew]; rfl⟩
    rcases awaits.next run inv' (clean _ (Nat.le_add_right ..)) with out | ⟨awaits', counter⟩
    · exact absurd out noTimeout
    · refine ⟨awaits', (run_cfg run _).trans cfg, ?_, responses⟩
      show (σ (n + k + 1)).tx[c].elapsed ≤ _ + (ticks sched σ n k + _)
      rcases counter with same | ⟨tick, counted⟩
      · omega
      · rw [if_pos (show taken _ _ = _ from tick)]
        omega

/-- Settles O60: the two ways to the notification, and the least step that takes the timeout. -/
theorem fairRunsGrantAndTimeOutEverySend : Obligations.FairRunsGrantAndTimeOutEverySend := by
  intro sched σ c n fair inv
  refine ⟨exists_grant_of_sending fair inv, fun granted => ?_, fun waits quietAck clean => ?_⟩
  · have inRange := (inv.ranges.1 c).1
    exact Granted.exists_txSet fair (8 - (σ n).tx[c].word) inv ⟨granted, rfl⟩ (by omega)
  · have awaits : AwaitsAck c (σ n).tx[c].port (σ n) := ⟨waits, rfl, quietAck⟩
    obtain ⟨m, later, out⟩ := exists_txTimeout fair (σ n).cfg.tSendTimeout inv clean awaits (Nat.le_add_left ..)
    have ends : ∃ k, Takes sched σ (n + k) (.txTimeout c) := ⟨m - n, by rwa [Nat.add_sub_cancel' later]⟩
    classical
    have out := Nat.find_spec ends
    obtain ⟨awaits', cfg, elapsed, old, history, noneOld⟩ :=
      awaitsAck_until_timeout fair.run inv clean awaits (Nat.find ends) fun j before => Nat.find_min ends before
    obtain ⟨-, due, next⟩ := next_txTimeout (takes_exec fair.run out)
    have due : (σ (n + Nat.find ends)).cfg.tSendTimeout ≤ (σ (n + Nat.find ends)).tx[c].elapsed := due
    refine ⟨Nat.find ends, out, by rw [← cfg]; omega, old ++ [respRecord (σ n).tx[c].port .sendTimeout false none], ?_, ?_⟩
    · rw [next, ← List.append_assoc, ← history, ← awaits'.port]
      rfl
    · rw [List.filter_append, noneOld]
      simp [isResponseOf, respRecord]

end Sys2Proof.Machine
end
